-- ==== Sys2Proof/Word.lean ====
section
/-! DEFINITION. Word: the widths of 10_state.md. Every register and memory value is an unsigned integer of its stated
width (00_scope.md R8); `BitVec` addition and subtraction are the spec's `trunc_8` and `trunc_16` arithmetic. -/

namespace Sys2Proof

/-- An 8-bit value: a general register, a byte of memory, a timer (10_state.md R20, R25, R31). -/
abbrev Byte := BitVec 8

/-- A 16-bit value: `I`, `PC`, a return address, an instruction word (R22, R23, R24; 30_encoding.md R80). -/
abbrev Word := BitVec 16

/-- The index of a general register, 0..15 (R20); `VF` is index 15 (R21). -/
abbrev Reg := Fin 16

end Sys2Proof
end

