-- ==== Sys2Proof/Machine/Bits.lean ====
section
/-! DEFINITION. Machine/Bits: the bit fields of an instruction word (30_encoding.md R81) and the byte order
(20_memory.md R64, R65), used by the decoder and by the machine. -/

namespace Sys2Proof

/-- Two bytes as a word, the first the more significant: `(hi << 8) | lo` (R8, R64). -/
def joinBytes (hi lo : Byte) : Word := hi ++ lo

/-- `w[15:8]`, the byte at the lower address (R65). -/
def highByte (w : Word) : Byte := w.extractLsb' 8 8

/-- `w[7:0]`. -/
def lowByte (w : Word) : Byte := w.extractLsb' 0 8

/-- `F = w[15:12]`, the family (R81). -/
def family (w : Word) : Nat := (w.extractLsb' 12 4).toNat

/-- `X = w[11:8]` (R81). -/
def fieldX (w : Word) : Fin 16 := (w.extractLsb' 8 4).toFin

/-- `Y = w[7:4]` (R81). -/
def fieldY (w : Word) : Fin 16 := (w.extractLsb' 4 4).toFin

/-- `N = w[3:0]` (R81). -/
def fieldN (w : Word) : Fin 16 := (w.extractLsb' 0 4).toFin

/-- `NN = w[7:0]` (R81). -/
def fieldNN (w : Word) : Byte := w.extractLsb' 0 8

/-- `NNN = w[11:0]` (R81). -/
def fieldNNN (w : Word) : BitVec 12 := w.extractLsb' 0 12

/-- `X = w[11:8]` as the plane mask of `FX01` (R83). -/
def fieldMask (w : Word) : BitVec 4 := w.extractLsb' 8 4

end Sys2Proof
end

