-- ==== Sys2Proof/Config.lean ====
section
/-! DEFINITION. Config: what the spec leaves to a model as an OPEN parameter (00_scope.md R6, 92_eei_decisions.md).
Each is a constant with no body, so no proof can see its value and every claim holds for every admissible value.
The parameters to which the spec gives a default stand in Machine/Platform.lean. -/

namespace Sys2Proof

/-- The three platform presets (00_scope.md R1). -/
inductive Platform where
  | chip8
  | schip11
  | xochip
  deriving DecidableEq, Repr, Inhabited

/-- The two behaviours of `00FD` (00_scope.md R6, 40_flow.md R104). -/
inductive ExitMode where
  | halt
  | noOp
  deriving DecidableEq, Repr, Inhabited

namespace Config

/-- `STACK_DEPTH - 17`; OPEN, so that every depth with 16 < depth <= 255 is admitted (R24, D7; log 3). -/
opaque stackDepthExcess : Fin 239

/-- `STACK_DEPTH`: an OPEN integer with 16 < `STACK_DEPTH` <= 255 (R24, D7; log 3). -/
def stackDepth : Nat := stackDepthExcess.val + 17

/-- `EXIT_MODE` (R104, D26): the spec takes it as a parameter and asks that claims hold under both values (log 4). -/
opaque exitMode : ExitMode

/-- `DEFAULT_PLATFORM`: OPEN (70_reset_and_hazards.md R310, D35; log 5). -/
opaque defaultPlatform : Platform

/-- A rational behind each `TICKRATE_<platform>`; OPEN (10_state.md R28, D27; log 6). -/
opaque tickrateRaw : Platform → Rat

/-- `TICKRATE_<platform>`: an OPEN positive real, here a positive rational (R28, D27; log 6). -/
def tickrate (p : Platform) : Rat := if 0 < tickrateRaw p then tickrateRaw p else 1

/-- The oracle `RAND`: draw `index` of stream `stream`, one free byte each, under no law (10_state.md R39,
41_alu.md R142, D28; log 11). The live machine draws from one stream; a copy made for introspection draws from
another (60_exceptions.md R288). -/
opaque randByte (stream index : Nat) : Byte

/-- How many tuples `disassemble-rom` returns for a machine whose program counter is `pc`: the spec does not say
(60_exceptions.md R288; log 28). -/
opaque disassembleCount (pc : Word) : Nat

end Config
end Sys2Proof
end

