-- ==== Sys2Proof/Syntax.lean ====
section
/-! DEFINITION. Syntax: the instructions of 30_encoding.md R84, one constructor per row of spec/opcode_table.json,
in the table's order. Field names are the spec's letters (R81): `x`, `y` name `V[X]`, `V[Y]`; `n` is the low nibble;
`nn`, `nnn`, `nnnn` are the immediates, none of them sign-extended (R82). A field that an instruction does not use
(`X` of `FX02`, the fields of the no-op rows) is kept, so that no bit of a word is lost. -/

namespace Sys2Proof

/-- The instruction set `CHIP-8+SCHIP1.1+XO-CHIP (ch8go)` (00_scope.md R1, 30_encoding.md R84). -/
inductive Instr where
  /-- `00CN`, `SCD N` (R207). -/
  | scd (n : Fin 16)
  /-- `00DN`, `SCU N` (R208). -/
  | scu (n : Fin 16)
  /-- `00E0`, `CLS` (R202). -/
  | cls
  /-- `00EE`, `RET` (R103). -/
  | ret
  /-- `00FB`, `SCR` (R209). -/
  | scr
  /-- `00FC`, `SCL` (R210). -/
  | scl
  /-- `00FD`, `EXIT` (R104). -/
  | exit
  /-- `00FE`, `LOW` (R203). -/
  | low
  /-- `00FF`, `HIGH` (R204). -/
  | high
  /-- `1NNN`, `JP NNN` (R105). -/
  | jp (nnn : BitVec 12)
  /-- `2NNN`, `CALL NNN` (R106). -/
  | call (nnn : BitVec 12)
  /-- `3XNN`, `SE Vx, NN` (R108). -/
  | seImm (x : Reg) (nn : Byte)
  /-- `4XNN`, `SNE Vx, NN` (R109). -/
  | sneImm (x : Reg) (nn : Byte)
  /-- `5XY0`, `SE Vx, Vy` (R110). -/
  | seReg (x y : Reg)
  /-- `5XY2`, `SAVE Vx, Vy` (R169). -/
  | saveRange (x y : Reg)
  /-- `5XY3`, `LOAD Vx, Vy` (R170). -/
  | loadRange (x y : Reg)
  /-- `6XNN`, `LD Vx, NN` (R131). -/
  | ldImm (x : Reg) (nn : Byte)
  /-- `7XNN`, `ADD Vx, NN` (R132). -/
  | addImm (x : Reg) (nn : Byte)
  /-- `8XY0`, `LD Vx, Vy` (R133). -/
  | ldReg (x y : Reg)
  /-- `8XY1`, `OR Vx, Vy` (R134). -/
  | orReg (x y : Reg)
  /-- `8XY2`, `AND Vx, Vy` (R135). -/
  | andReg (x y : Reg)
  /-- `8XY3`, `XOR Vx, Vy` (R136). -/
  | xorReg (x y : Reg)
  /-- `8XY4`, `ADD Vx, Vy` (R137). -/
  | addReg (x y : Reg)
  /-- `8XY5`, `SUB Vx, Vy` (R138). -/
  | subReg (x y : Reg)
  /-- `8XY6`, `SHR Vx, Vy` (R139). -/
  | shr (x y : Reg)
  /-- `8XY7`, `SUBN Vx, Vy` (R140). -/
  | subnReg (x y : Reg)
  /-- `8XYE`, `SHL Vx, Vy` (R141). -/
  | shl (x y : Reg)
  /-- `9XY0`, `SNE Vx, Vy` (R111). -/
  | sneReg (x y : Reg)
  /-- `ANNN`, `LD I, NNN` (R160). -/
  | ldI (nnn : BitVec 12)
  /-- `BNNN`, `JP V0, NNN` (R107). -/
  | jpV0 (nnn : BitVec 12)
  /-- `CXNN`, `RND Vx, NN` (R142). -/
  | rnd (x : Reg) (nn : Byte)
  /-- `DXYN`, `DRW Vx, Vy, N` (R216). -/
  | drw (x y : Reg) (n : Fin 16)
  /-- `EX9E`, `SKP Vx` (R112). -/
  | skp (x : Reg)
  /-- `EXA1`, `SKNP Vx` (R113). -/
  | sknp (x : Reg)
  /-- `F000 NNNN`, `LD I, NNNN` (R161). -/
  | ldILong (nnnn : Word)
  /-- `FX01`, `PLANE X` (R205). -/
  | plane (mask : BitVec 4)
  /-- `FX02`, `AUDIO` (R240). -/
  | audio (x : Fin 16)
  /-- `FX07`, `LD Vx, DT` (R190). -/
  | ldVxDT (x : Reg)
  /-- `FX0A`, `LD Vx, K` (R114). -/
  | ldVxK (x : Reg)
  /-- `FX15`, `LD DT, Vx` (R191). -/
  | ldDTVx (x : Reg)
  /-- `FX18`, `LD ST, Vx` (R192). -/
  | ldSTVx (x : Reg)
  /-- `FX1E`, `ADD I, Vx` (R162). -/
  | addI (x : Reg)
  /-- `FX29`, `LD F, Vx` (R163). -/
  | ldF (x : Reg)
  /-- `FX30`, `LD HF, Vx` (R164). -/
  | ldHF (x : Reg)
  /-- `FX33`, `LD B, Vx` (R165). -/
  | ldB (x : Reg)
  /-- `FX3A`, `PITCH Vx` (R241). -/
  | pitch (x : Reg)
  /-- `FX55`, `LD [I], Vx` (R167). -/
  | storeRegs (x : Reg)
  /-- `FX65`, `LD Vx, [I]` (R168). -/
  | loadRegs (x : Reg)
  /-- `FX75`, `LD R, Vx` (R171). -/
  | saveFlags (x : Reg)
  /-- `FX85`, `LD Vx, R` (R172). -/
  | loadFlags (x : Reg)
  /-- `0NNN no-op`, `no-op 0NNN` (R115). -/
  | noop0 (nnn : BitVec 12)
  /-- `5XYN no-op`, `no-op 5XYN, N not 0/2/3` (R116). -/
  | noop5 (x y n : Fin 16)
  /-- `8XYN no-op`, `no-op 8XYN, N in 8..D, F` (R144). -/
  | noop8 (x y n : Fin 16)
  /-- `9XYN no-op`, `no-op 9XYN, N != 0` (R116). -/
  | noop9 (x y n : Fin 16)
  /-- `EXNN no-op`, `no-op EXNN` (R116). -/
  | noopE (x : Fin 16) (nn : Byte)
  /-- `FXNN no-op`, `no-op FXNN` (R116). -/
  | noopF (x : Fin 16) (nn : Byte)
  deriving DecidableEq, Repr

end Sys2Proof
end

