-- ==== Sys2Proof/WellFormed.lean ====
section
/-! DEFINITION. WellFormed: which terms of `Instr` stand for a word. Every field of a listed instruction may take
every value; the six no-op rows hold only the words of their family that no listed row matches (30_encoding.md R86). -/

namespace Sys2Proof

/-- The operand of a family-0 no-op: 0x0000..0x00BF, 0x00E1..0x00ED, 0x00EF..0x00FA, 0x0100..0x0FFF (R86). -/
def noop0Operand (nnn : BitVec 12) : Bool :=
  nnn.toNat ≤ 0x0BF || (0x0E1 ≤ nnn.toNat && nnn.toNat ≤ 0x0ED) || (0x0EF ≤ nnn.toNat && nnn.toNat ≤ 0x0FA)
    || 0x100 ≤ nnn.toNat

/-- The low bytes that family F's listed rows use (R86). -/
def familyFSelectors : List Byte :=
  [0x01, 0x02, 0x07, 0x0A, 0x15] ++ [0x18, 0x1E, 0x29, 0x30, 0x33] ++ [0x3A, 0x55, 0x65, 0x75, 0x85]

/-- An instruction stands for a word exactly when this holds (30_encoding.md R84 to R86). -/
def Instr.wellFormed : Instr → Bool
  | .scd _ | .scu _ | .cls | .ret | .scr | .scl | .exit | .low | .high | .jp _ | .call _ | .seImm _ _
  | .sneImm _ _ | .seReg _ _ | .saveRange _ _ | .loadRange _ _ | .ldImm _ _ | .addImm _ _ | .ldReg _ _
  | .orReg _ _ | .andReg _ _ | .xorReg _ _ | .addReg _ _ | .subReg _ _ | .shr _ _ | .subnReg _ _ | .shl _ _
  | .sneReg _ _ | .ldI _ | .jpV0 _ | .rnd _ _ | .drw _ _ _ | .skp _ | .sknp _ | .ldILong _ | .plane _
  | .audio _ | .ldVxDT _ | .ldVxK _ | .ldDTVx _ | .ldSTVx _ | .addI _ | .ldF _ | .ldHF _ | .ldB _ | .pitch _
  | .storeRegs _ | .loadRegs _ | .saveFlags _ | .loadFlags _ => true
  | .noop0 nnn => noop0Operand nnn
  | .noop5 _ _ n => n.val != 0 && n.val != 2 && n.val != 3
  | .noop8 _ _ n => 8 ≤ n.val && n.val != 0xE
  | .noop9 _ _ n => n.val != 0
  | .noopE _ nn => nn != 0x9E && nn != 0xA1
  | .noopF x nn => !familyFSelectors.contains nn && !(x.val == 0 && nn == 0)

end Sys2Proof
end

