-- ==== Sys2Proof/Decode.lean ====
section
/-! DEFINITION. Decode: from bytes to an instruction, total, and the encoder written from the same rules
(30_encoding.md). No word is refused (R86); a byte list is refused only when it is too short, by name. -/

namespace Sys2Proof

/-- Why a list of bytes gives no instruction: it ends before the instruction does (R80). -/
inductive DecodeReject where
  /-- Fewer than two bytes. -/
  | truncatedWord
  /-- The word `0xF000` with fewer than two bytes after it (R80, R87). -/
  | truncatedLong
  deriving DecidableEq, Repr

/-! ### Decoding one word (R84, R85): the listed sub-cases of a family first, its no-op last -/

/-- Family 0. -/
def decodeFamily0 (w : Word) : Instr :=
  if w &&& 0xFFF0 = 0x00C0 then .scd (fieldN w)
  else if w &&& 0xFFF0 = 0x00D0 then .scu (fieldN w)
  else if w = 0x00E0 then .cls
  else if w = 0x00EE then .ret
  else if w = 0x00FB then .scr
  else if w = 0x00FC then .scl
  else if w = 0x00FD then .exit
  else if w = 0x00FE then .low
  else if w = 0x00FF then .high
  else .noop0 (fieldNNN w)

/-- Family 5, selected by `N`. -/
def decodeFamily5 (w : Word) : Instr :=
  match (fieldN w).val with
  | 0 => .seReg (fieldX w) (fieldY w)
  | 2 => .saveRange (fieldX w) (fieldY w)
  | 3 => .loadRange (fieldX w) (fieldY w)
  | _ => .noop5 (fieldX w) (fieldY w) (fieldN w)

/-- Family 8, selected by `N`. -/
def decodeFamily8 (w : Word) : Instr :=
  match (fieldN w).val with
  | 0x0 => .ldReg (fieldX w) (fieldY w)
  | 0x1 => .orReg (fieldX w) (fieldY w)
  | 0x2 => .andReg (fieldX w) (fieldY w)
  | 0x3 => .xorReg (fieldX w) (fieldY w)
  | 0x4 => .addReg (fieldX w) (fieldY w)
  | 0x5 => .subReg (fieldX w) (fieldY w)
  | 0x6 => .shr (fieldX w) (fieldY w)
  | 0x7 => .subnReg (fieldX w) (fieldY w)
  | 0xE => .shl (fieldX w) (fieldY w)
  | _ => .noop8 (fieldX w) (fieldY w) (fieldN w)

/-- Family 9, selected by `N`. -/
def decodeFamily9 (w : Word) : Instr :=
  match (fieldN w).val with
  | 0 => .sneReg (fieldX w) (fieldY w)
  | _ => .noop9 (fieldX w) (fieldY w) (fieldN w)

/-- Family E, selected by `NN`. -/
def decodeFamilyE (w : Word) : Instr :=
  if fieldNN w = 0x9E then .skp (fieldX w)
  else if fieldNN w = 0xA1 then .sknp (fieldX w)
  else .noopE (fieldX w) (fieldNN w)

/-- Family F, selected by `NN`; the long form `0xF000` is told apart before this (`decode`). -/
def decodeFamilyF (w : Word) : Instr :=
  match (fieldNN w).toNat with
  | 0x01 => .plane (fieldMask w)
  | 0x02 => .audio (fieldX w)
  | 0x07 => .ldVxDT (fieldX w)
  | 0x0A => .ldVxK (fieldX w)
  | 0x15 => .ldDTVx (fieldX w)
  | 0x18 => .ldSTVx (fieldX w)
  | 0x1E => .addI (fieldX w)
  | 0x29 => .ldF (fieldX w)
  | 0x30 => .ldHF (fieldX w)
  | 0x33 => .ldB (fieldX w)
  | 0x3A => .pitch (fieldX w)
  | 0x55 => .storeRegs (fieldX w)
  | 0x65 => .loadRegs (fieldX w)
  | 0x75 => .saveFlags (fieldX w)
  | 0x85 => .loadFlags (fieldX w)
  | _ => .noopF (fieldX w) (fieldNN w)

/-- Every word other than the long form's `0xF000` is one whole instruction (R80, R85, R86). -/
def decodeShort (w : Word) : Instr :=
  match family w with
  | 0x0 => decodeFamily0 w
  | 0x1 => .jp (fieldNNN w)
  | 0x2 => .call (fieldNNN w)
  | 0x3 => .seImm (fieldX w) (fieldNN w)
  | 0x4 => .sneImm (fieldX w) (fieldNN w)
  | 0x5 => decodeFamily5 w
  | 0x6 => .ldImm (fieldX w) (fieldNN w)
  | 0x7 => .addImm (fieldX w) (fieldNN w)
  | 0x8 => decodeFamily8 w
  | 0x9 => decodeFamily9 w
  | 0xA => .ldI (fieldNNN w)
  | 0xB => .jpV0 (fieldNNN w)
  | 0xC => .rnd (fieldX w) (fieldNN w)
  | 0xD => .drw (fieldX w) (fieldY w) (fieldN w)
  | 0xE => decodeFamilyE w
  | _ => decodeFamilyF w

/-- The first word of the only two-word instruction (R80, R87). -/
def longWord : Word := 0xF000

/-- Whether the instruction that starts with `w` has a second word: the first word alone tells (R87). -/
def isLong (w : Word) : Bool := w == longWord

/-- Read one instruction from the front of a list of bytes, big-endian, and give the rest of the list (R80). -/
def decode : List Byte → Except DecodeReject (Instr × List Byte)
  | hi :: lo :: rest =>
    if isLong (joinBytes hi lo) then
      match rest with
      | hi2 :: lo2 :: rest2 => .ok (.ldILong (joinBytes hi2 lo2), rest2)
      | _ => .error .truncatedLong
    else .ok (decodeShort (joinBytes hi lo), rest)
  | _ => .error .truncatedWord

/-! ### Encoding, from the formats of R81 and the patterns of R84 -/

/-- Format `XYN`: `FFFF XXXX YYYY NNNN`. -/
def wordXYN (f : BitVec 4) (x y n : Fin 16) : Word :=
  f ++ BitVec.ofFin (w := 4) x ++ BitVec.ofFin (w := 4) y ++ BitVec.ofFin (w := 4) n

/-- Formats `XNN` and `XOP`: `FFFF XXXX NNNN NNNN`. -/
def wordXNN (f : BitVec 4) (x : Fin 16) (nn : Byte) : Word :=
  f ++ BitVec.ofFin (w := 4) x ++ nn

/-- Format `NNN`: `FFFF NNNN NNNN NNNN`. -/
def wordNNN (f : BitVec 4) (nnn : BitVec 12) : Word := f ++ nnn

/-- The words of an instruction, first word first (R80, R81, R84). -/
def encode : Instr → List Word
  | .scd n => [wordXYN 0x0 0x0 0xC n]
  | .scu n => [wordXYN 0x0 0x0 0xD n]
  | .cls => [0x00E0]
  | .ret => [0x00EE]
  | .scr => [0x00FB]
  | .scl => [0x00FC]
  | .exit => [0x00FD]
  | .low => [0x00FE]
  | .high => [0x00FF]
  | .jp nnn => [wordNNN 0x1 nnn]
  | .call nnn => [wordNNN 0x2 nnn]
  | .seImm x nn => [wordXNN 0x3 x nn]
  | .sneImm x nn => [wordXNN 0x4 x nn]
  | .seReg x y => [wordXYN 0x5 x y 0x0]
  | .saveRange x y => [wordXYN 0x5 x y 0x2]
  | .loadRange x y => [wordXYN 0x5 x y 0x3]
  | .ldImm x nn => [wordXNN 0x6 x nn]
  | .addImm x nn => [wordXNN 0x7 x nn]
  | .ldReg x y => [wordXYN 0x8 x y 0x0]
  | .orReg x y => [wordXYN 0x8 x y 0x1]
  | .andReg x y => [wordXYN 0x8 x y 0x2]
  | .xorReg x y => [wordXYN 0x8 x y 0x3]
  | .addReg x y => [wordXYN 0x8 x y 0x4]
  | .subReg x y => [wordXYN 0x8 x y 0x5]
  | .shr x y => [wordXYN 0x8 x y 0x6]
  | .subnReg x y => [wordXYN 0x8 x y 0x7]
  | .shl x y => [wordXYN 0x8 x y 0xE]
  | .sneReg x y => [wordXYN 0x9 x y 0x0]
  | .ldI nnn => [wordNNN 0xA nnn]
  | .jpV0 nnn => [wordNNN 0xB nnn]
  | .rnd x nn => [wordXNN 0xC x nn]
  | .drw x y n => [wordXYN 0xD x y n]
  | .skp x => [wordXNN 0xE x 0x9E]
  | .sknp x => [wordXNN 0xE x 0xA1]
  | .ldILong nnnn => [0xF000, nnnn]
  | .plane mask => [wordXNN 0xF mask.toFin 0x01]
  | .audio x => [wordXNN 0xF x 0x02]
  | .ldVxDT x => [wordXNN 0xF x 0x07]
  | .ldVxK x => [wordXNN 0xF x 0x0A]
  | .ldDTVx x => [wordXNN 0xF x 0x15]
  | .ldSTVx x => [wordXNN 0xF x 0x18]
  | .addI x => [wordXNN 0xF x 0x1E]
  | .ldF x => [wordXNN 0xF x 0x29]
  | .ldHF x => [wordXNN 0xF x 0x30]
  | .ldB x => [wordXNN 0xF x 0x33]
  | .pitch x => [wordXNN 0xF x 0x3A]
  | .storeRegs x => [wordXNN 0xF x 0x55]
  | .loadRegs x => [wordXNN 0xF x 0x65]
  | .saveFlags x => [wordXNN 0xF x 0x75]
  | .loadFlags x => [wordXNN 0xF x 0x85]
  | .noop0 nnn => [wordNNN 0x0 nnn]
  | .noop5 x y n => [wordXYN 0x5 x y n]
  | .noop8 x y n => [wordXYN 0x8 x y n]
  | .noop9 x y n => [wordXYN 0x9 x y n]
  | .noopE x nn => [wordXNN 0xE x nn]
  | .noopF x nn => [wordXNN 0xF x nn]

/-- The bytes of a list of words as the machine stores them: each word big-endian (R65, R80). -/
def wordBytes (ws : List Word) : List Byte := ws.flatMap fun w => [highByte w, lowByte w]

/-- The bytes of an instruction, first byte at the lowest address. -/
def encodeBytes (i : Instr) : List Byte := wordBytes (encode i)

/-! ### The opcode map as data (R84): a word `w` matches a pattern when `w &&& mask = value` -/

/-- A word pattern of R84. -/
structure Pattern where
  mask : Word
  value : Word
  deriving DecidableEq, Repr

/-- `w` matches the pattern `p` (R84). -/
def Pattern.holds (p : Pattern) (w : Word) : Prop := w &&& p.mask = p.value

/-- The pattern of the row an instruction comes from; a no-op row's pattern is its whole family (R84). -/
def Instr.pattern : Instr → Pattern
  | .scd _ => ⟨0xFFF0, 0x00C0⟩
  | .scu _ => ⟨0xFFF0, 0x00D0⟩
  | .cls => ⟨0xFFFF, 0x00E0⟩
  | .ret => ⟨0xFFFF, 0x00EE⟩
  | .scr => ⟨0xFFFF, 0x00FB⟩
  | .scl => ⟨0xFFFF, 0x00FC⟩
  | .exit => ⟨0xFFFF, 0x00FD⟩
  | .low => ⟨0xFFFF, 0x00FE⟩
  | .high => ⟨0xFFFF, 0x00FF⟩
  | .jp _ => ⟨0xF000, 0x1000⟩
  | .call _ => ⟨0xF000, 0x2000⟩
  | .seImm _ _ => ⟨0xF000, 0x3000⟩
  | .sneImm _ _ => ⟨0xF000, 0x4000⟩
  | .seReg _ _ => ⟨0xF00F, 0x5000⟩
  | .saveRange _ _ => ⟨0xF00F, 0x5002⟩
  | .loadRange _ _ => ⟨0xF00F, 0x5003⟩
  | .ldImm _ _ => ⟨0xF000, 0x6000⟩
  | .addImm _ _ => ⟨0xF000, 0x7000⟩
  | .ldReg _ _ => ⟨0xF00F, 0x8000⟩
  | .orReg _ _ => ⟨0xF00F, 0x8001⟩
  | .andReg _ _ => ⟨0xF00F, 0x8002⟩
  | .xorReg _ _ => ⟨0xF00F, 0x8003⟩
  | .addReg _ _ => ⟨0xF00F, 0x8004⟩
  | .subReg _ _ => ⟨0xF00F, 0x8005⟩
  | .shr _ _ => ⟨0xF00F, 0x8006⟩
  | .subnReg _ _ => ⟨0xF00F, 0x8007⟩
  | .shl _ _ => ⟨0xF00F, 0x800E⟩
  | .sneReg _ _ => ⟨0xF00F, 0x9000⟩
  | .ldI _ => ⟨0xF000, 0xA000⟩
  | .jpV0 _ => ⟨0xF000, 0xB000⟩
  | .rnd _ _ => ⟨0xF000, 0xC000⟩
  | .drw _ _ _ => ⟨0xF000, 0xD000⟩
  | .skp _ => ⟨0xF0FF, 0xE09E⟩
  | .sknp _ => ⟨0xF0FF, 0xE0A1⟩
  | .ldILong _ => ⟨0xFFFF, 0xF000⟩
  | .plane _ => ⟨0xF0FF, 0xF001⟩
  | .audio _ => ⟨0xF0FF, 0xF002⟩
  | .ldVxDT _ => ⟨0xF0FF, 0xF007⟩
  | .ldVxK _ => ⟨0xF0FF, 0xF00A⟩
  | .ldDTVx _ => ⟨0xF0FF, 0xF015⟩
  | .ldSTVx _ => ⟨0xF0FF, 0xF018⟩
  | .addI _ => ⟨0xF0FF, 0xF01E⟩
  | .ldF _ => ⟨0xF0FF, 0xF029⟩
  | .ldHF _ => ⟨0xF0FF, 0xF030⟩
  | .ldB _ => ⟨0xF0FF, 0xF033⟩
  | .pitch _ => ⟨0xF0FF, 0xF03A⟩
  | .storeRegs _ => ⟨0xF0FF, 0xF055⟩
  | .loadRegs _ => ⟨0xF0FF, 0xF065⟩
  | .saveFlags _ => ⟨0xF0FF, 0xF075⟩
  | .loadFlags _ => ⟨0xF0FF, 0xF085⟩
  | .noop0 _ => ⟨0xF000, 0x0000⟩
  | .noop5 _ _ _ => ⟨0xF000, 0x5000⟩
  | .noop8 _ _ _ => ⟨0xF000, 0x8000⟩
  | .noop9 _ _ _ => ⟨0xF000, 0x9000⟩
  | .noopE _ _ => ⟨0xF000, 0xE000⟩
  | .noopF _ _ => ⟨0xF000, 0xF000⟩

/-- The 50 listed patterns of R84, in the table's order (the six no-op rows are the fallbacks). -/
def listedPatterns : List Pattern :=
  [⟨0xFFF0, 0x00C0⟩, ⟨0xFFF0, 0x00D0⟩, ⟨0xFFFF, 0x00E0⟩, ⟨0xFFFF, 0x00EE⟩, ⟨0xFFFF, 0x00FB⟩, ⟨0xFFFF, 0x00FC⟩] ++
  [⟨0xFFFF, 0x00FD⟩, ⟨0xFFFF, 0x00FE⟩, ⟨0xFFFF, 0x00FF⟩] ++
  [⟨0xF000, 0x1000⟩] ++
  [⟨0xF000, 0x2000⟩] ++
  [⟨0xF000, 0x3000⟩] ++
  [⟨0xF000, 0x4000⟩] ++
  [⟨0xF00F, 0x5000⟩, ⟨0xF00F, 0x5002⟩, ⟨0xF00F, 0x5003⟩] ++
  [⟨0xF000, 0x6000⟩] ++
  [⟨0xF000, 0x7000⟩] ++
  [⟨0xF00F, 0x8000⟩, ⟨0xF00F, 0x8001⟩, ⟨0xF00F, 0x8002⟩, ⟨0xF00F, 0x8003⟩, ⟨0xF00F, 0x8004⟩, ⟨0xF00F, 0x8005⟩] ++
  [⟨0xF00F, 0x8006⟩, ⟨0xF00F, 0x8007⟩, ⟨0xF00F, 0x800E⟩] ++
  [⟨0xF00F, 0x9000⟩] ++
  [⟨0xF000, 0xA000⟩] ++
  [⟨0xF000, 0xB000⟩] ++
  [⟨0xF000, 0xC000⟩] ++
  [⟨0xF000, 0xD000⟩] ++
  [⟨0xF0FF, 0xE09E⟩, ⟨0xF0FF, 0xE0A1⟩] ++
  [⟨0xFFFF, 0xF000⟩, ⟨0xF0FF, 0xF001⟩, ⟨0xF0FF, 0xF002⟩, ⟨0xF0FF, 0xF007⟩, ⟨0xF0FF, 0xF00A⟩, ⟨0xF0FF, 0xF015⟩] ++
  [⟨0xF0FF, 0xF018⟩, ⟨0xF0FF, 0xF01E⟩, ⟨0xF0FF, 0xF029⟩, ⟨0xF0FF, 0xF030⟩, ⟨0xF0FF, 0xF033⟩, ⟨0xF0FF, 0xF03A⟩] ++
  [⟨0xF0FF, 0xF055⟩, ⟨0xF0FF, 0xF065⟩, ⟨0xF0FF, 0xF075⟩, ⟨0xF0FF, 0xF085⟩]

/-- Whether an instruction is one of the six no-op rows (R86). -/
def Instr.isNoop : Instr → Bool
  | .scd _ | .scu _ | .cls | .ret | .scr | .scl | .exit | .low | .high | .jp _ | .call _ | .seImm _ _
  | .sneImm _ _ | .seReg _ _ | .saveRange _ _ | .loadRange _ _ | .ldImm _ _ | .addImm _ _ | .ldReg _ _
  | .orReg _ _ | .andReg _ _ | .xorReg _ _ | .addReg _ _ | .subReg _ _ | .shr _ _ | .subnReg _ _ | .shl _ _
  | .sneReg _ _ | .ldI _ | .jpV0 _ | .rnd _ _ | .drw _ _ _ | .skp _ | .sknp _ | .ldILong _ | .plane _
  | .audio _ | .ldVxDT _ | .ldVxK _ | .ldDTVx _ | .ldSTVx _ | .addI _ | .ldF _ | .ldHF _ | .ldB _ | .pitch _
  | .storeRegs _ | .loadRegs _ | .saveFlags _ | .loadFlags _ => false
  | .noop0 _ | .noop5 _ _ _ | .noop8 _ _ _ | .noop9 _ _ _ | .noopE _ _ | .noopF _ _ => true

/-! ### The opcode table's numbering of bits -/

/-- The four bytes, as the hardware stores them, of an instruction whose first word is bits 15..0 of `w` and whose
second word is bits 31..16; bits from `nbits` up are 0. -/
def tableBytes (nbits w : Nat) : List Byte :=
  wordBytes [BitVec.ofNat 16 (w % 2 ^ nbits), BitVec.ofNat 16 (w % 2 ^ nbits / 65536)]

/-- The instruction this decoder reads from an instruction whose bits, numbered as spec/opcode_table.json numbers
them, are `w`. -/
def decodeTableWord (nbits w : Nat) : Option Instr :=
  match decode (tableBytes nbits w) with
  | .ok (i, _) => some i
  | .error _ => none

end Sys2Proof
end

