-- ==== Sys2Proof/Machine/Platform.lean ====
section
/-! DEFINITION. Machine/Platform: the parameters of 00_scope.md R6 to which the spec gives a default, the quirk
bundle (10_state.md R29) and the platform presets (R30), and the font tables (R33). -/

namespace Sys2Proof.Machine

/-! ### Parameters with a default (R6) -/

/-- `MEM_SIZE`. -/
def memSize : Nat := 65536

/-- `LOAD_ADDR`, the load address and the entry point (R61, R312; UNVERIFIED, D3, log 8). -/
def loadAddr : Word := 0x0200

/-- `FONT_ADDR` (UNVERIFIED, D4, log 9). -/
def fontAddr : Nat := 0x0000

/-- `BIGFONT_ADDR` (UNVERIFIED, D4, log 9). -/
def bigFontAddr : Nat := 0x0050

/-- `BIGFONT_GLYPHS` (D4, log 9). -/
def bigFontGlyphs : Nat := 16

/-- `NREG`, the number of general registers: one for each value of the 4-bit index `Reg`. -/
abbrev nreg : Nat := 16

/-- `FLAGS_SIZE`, in bytes (D34, log 27). -/
abbrev flagsSize : Nat := 16

/-- `NPLANES`. -/
abbrev nplanes : Nat := 4

/-- `RASTER_W`, the columns of a plane. -/
abbrev rasterW : Nat := 128

/-- `RASTER_H`, the rows of a plane. -/
abbrev rasterH : Nat := 64

/-- `LORES_W`, the logical width in low resolution. -/
abbrev loresW : Nat := 64

/-- `LORES_H`, the logical height in low resolution. -/
abbrev loresH : Nat := 32

/-- `TIMER_HZ`. -/
def timerHz : Rat := 60

/-- `BEEP_HZ`. -/
def beepHz : Rat := 440

/-- `PITCH_BASE_RATE`. -/
def pitchBaseRate : Rat := 4000

/-- `PITCH_CENTER`. -/
def pitchCenter : Rat := 64

/-- `PITCH_PER_OCTAVE`. -/
def pitchPerOctave : Rat := 48

/-- `PITCH_RESET` (D25, log 10). -/
def pitchReset : Byte := 64

/-- `PATTERN_BITS`. -/
def patternBits : Rat := 128

/-! ### Quirks and presets -/

/-- The quirk bundle `Q`, a complete snapshot of eight switches, with the names and polarities of R29 (D19). -/
structure Quirks where
  /-- `8XY6` and `8XYE` shift `V[X]`; otherwise `V[Y]`. -/
  shift : Bool
  /-- After `FX55` and `FX65`, `I <- I + X`. -/
  memIncX : Bool
  /-- After `FX55` and `FX65`, `I` is unchanged; takes precedence over `memIncX`. -/
  memLeaveI : Bool
  /-- Sprite pixels past an edge wrap; otherwise they are clipped. -/
  wrap : Bool
  /-- `BNNN` adds `V[X]`; otherwise `V[0]`. -/
  jump : Bool
  /-- After a draw, `run-frame` skips CPU steps until `pendingVblank` is cleared. -/
  vblank : Bool
  /-- `8XY1`, `8XY2` and `8XY3` set `VF` to 0 after the result. -/
  vfReset : Bool
  /-- In low resolution a scroll amount is doubled on the raster. -/
  scaleScroll : Bool
  deriving DecidableEq, Repr

/-- The two ways the synthesizer sounds (R36). -/
inductive AudioMode where
  | beep
  | pattern
  deriving DecidableEq, Repr

/-- A platform preset: a complete triple (R10, R30). -/
structure Preset where
  quirks : Quirks
  tickrate : Rat
  audioMode : AudioMode
  deriving DecidableEq, Repr

/-- The quirk cells of R30's table (UNVERIFIED, D27, log 7). -/
def presetQuirks : Platform → Quirks
  | .chip8 =>
    { shift := false, memIncX := false, memLeaveI := false, wrap := false,
      jump := false, vblank := true, vfReset := true, scaleScroll := true }
  | .schip11 =>
    { shift := true, memIncX := false, memLeaveI := true, wrap := false,
      jump := true, vblank := false, vfReset := false, scaleScroll := false }
  | .xochip =>
    { shift := false, memIncX := false, memLeaveI := false, wrap := true,
      jump := false, vblank := false, vfReset := false, scaleScroll := true }

/-- `AUDIO_MODE_DEFAULT(platform)`: `Beep` for all three (R6, D25, log 10). -/
def audioModeDefault (_p : Platform) : AudioMode := .beep

/-- The preset table with the spec's default cells; `load` takes any table in its place (R30). -/
def defaultPreset (p : Platform) : Preset :=
  { quirks := presetQuirks p, tickrate := Config.tickrate p, audioMode := audioModeDefault p }

/-! ### Fonts (R33; UNVERIFIED, D4, log 9) -/

/-- `FONT_SMALL`: 16 glyphs of 5 bytes. -/
def fontSmall : List Byte :=
  [0xF0, 0x90, 0x90, 0x90, 0xF0] ++
  [0x20, 0x60, 0x20, 0x20, 0x70] ++
  [0xF0, 0x10, 0xF0, 0x80, 0xF0] ++
  [0xF0, 0x10, 0xF0, 0x10, 0xF0] ++
  [0x90, 0x90, 0xF0, 0x10, 0x10] ++
  [0xF0, 0x80, 0xF0, 0x10, 0xF0] ++
  [0xF0, 0x80, 0xF0, 0x90, 0xF0] ++
  [0xF0, 0x10, 0x20, 0x40, 0x40] ++
  [0xF0, 0x90, 0xF0, 0x90, 0xF0] ++
  [0xF0, 0x90, 0xF0, 0x10, 0xF0] ++
  [0xF0, 0x90, 0xF0, 0x90, 0x90] ++
  [0xE0, 0x90, 0xE0, 0x90, 0xE0] ++
  [0xF0, 0x80, 0x80, 0x80, 0xF0] ++
  [0xE0, 0x90, 0x90, 0x90, 0xE0] ++
  [0xF0, 0x80, 0xF0, 0x80, 0xF0] ++
  [0xF0, 0x80, 0xF0, 0x80, 0x80]

/-- `FONT_BIG`: 16 glyphs of 10 bytes. -/
def fontBig : List Byte :=
  [0xFF, 0xFF, 0xC3, 0xC3, 0xC3, 0xC3, 0xC3, 0xC3, 0xFF, 0xFF] ++
  [0x18, 0x78, 0x78, 0x18, 0x18, 0x18, 0x18, 0x18, 0xFF, 0xFF] ++
  [0xFF, 0xFF, 0x03, 0x03, 0xFF, 0xFF, 0xC0, 0xC0, 0xFF, 0xFF] ++
  [0xFF, 0xFF, 0x03, 0x03, 0xFF, 0xFF, 0x03, 0x03, 0xFF, 0xFF] ++
  [0xC3, 0xC3, 0xC3, 0xC3, 0xFF, 0xFF, 0x03, 0x03, 0x03, 0x03] ++
  [0xFF, 0xFF, 0xC0, 0xC0, 0xFF, 0xFF, 0x03, 0x03, 0xFF, 0xFF] ++
  [0xFF, 0xFF, 0xC0, 0xC0, 0xFF, 0xFF, 0xC3, 0xC3, 0xFF, 0xFF] ++
  [0xFF, 0xFF, 0x03, 0x03, 0x06, 0x0C, 0x18, 0x18, 0x18, 0x18] ++
  [0xFF, 0xFF, 0xC3, 0xC3, 0xFF, 0xFF, 0xC3, 0xC3, 0xFF, 0xFF] ++
  [0xFF, 0xFF, 0xC3, 0xC3, 0xFF, 0xFF, 0x03, 0x03, 0xFF, 0xFF] ++
  [0x7E, 0xFF, 0xC3, 0xC3, 0xC3, 0xFF, 0xFF, 0xC3, 0xC3, 0xC3] ++
  [0xFC, 0xFC, 0xC3, 0xC3, 0xFC, 0xFC, 0xC3, 0xC3, 0xFC, 0xFC] ++
  [0x3C, 0xFF, 0xC3, 0xC0, 0xC0, 0xC0, 0xC0, 0xC3, 0xFF, 0x3C] ++
  [0xFC, 0xFE, 0xC3, 0xC3, 0xC3, 0xC3, 0xC3, 0xC3, 0xFE, 0xFC] ++
  [0xFF, 0xFF, 0xC0, 0xC0, 0xFF, 0xFF, 0xC0, 0xC0, 0xFF, 0xFF] ++
  [0xFF, 0xFF, 0xC0, 0xC0, 0xFF, 0xFF, 0xC0, 0xC0, 0xC0, 0xC0]

end Sys2Proof.Machine
end

