-- ==== Sys2Proof/Machine/Memory.lean ====
section
/-! DEFINITION. Machine/Memory: the byte memory `M` (10_state.md R31, R32; 20_memory.md). It is held as the list of the
bytes that differ from what `load` leaves where there is no program: addresses strictly rising, and no entry equal to
what an unlisted address reads as, so that equal memories are equal lists. -/

namespace Sys2Proof.Machine

/-- The bytes of memory, as a list of address and byte in canonical form (`Memory.wf`). -/
abbrev Memory := List Host.Cell

/-- What an address that is not listed reads as: the reset content of R32, that is the big font, the small font, and
0 everywhere else (log 9, 15). -/
def resetByte (a : Nat) : Byte :=
  if bigFontAddr ≤ a ∧ a < bigFontAddr + 10 * bigFontGlyphs then fontBig.getD (a - bigFontAddr) 0
  else if fontAddr ≤ a ∧ a < fontAddr + 80 then fontSmall.getD (a - fontAddr) 0
  else 0

/-- `M[a]`: the byte last written at `a`, or its reset content (R68). -/
def Memory.read : Memory → Nat → Byte
  | [], a => resetByte a
  | (b, v) :: rest, a => if b = a then v else Memory.read rest a

/-- Forget what is listed at `a`. -/
def Memory.erase : Memory → Nat → Memory
  | [], _ => []
  | (b, v) :: rest, a => if b = a then Memory.erase rest a else (b, v) :: Memory.erase rest a

/-- List the byte `v` at `a`, before the first entry with a larger address. -/
def Memory.insert : Memory → Nat → Byte → Memory
  | [], a, v => [(a, v)]
  | (b, w) :: rest, a, v => if a < b then (a, v) :: (b, w) :: rest else (b, w) :: Memory.insert rest a v

/-- `M[a] <- v`, keeping the canonical form (R63, R68). -/
def Memory.write (m : Memory) (a : Nat) (v : Byte) : Memory :=
  if v = resetByte a then Memory.erase m a else Memory.insert (Memory.erase m a) a v

/-- `M[a + k] <- bytes[k]` for every `k`, in rising order (R63). -/
def Memory.writeBytes (m : Memory) (a : Nat) : List Byte → Memory
  | [] => m
  | b :: bs => Memory.writeBytes (Memory.write m a b) (a + 1) bs

/-- The bytes `M[a] .. M[a + n - 1]` (R62). -/
def Memory.readBytes (m : Memory) (a n : Nat) : List Byte :=
  (List.range n).map fun k => Memory.read m (a + k)

/-- The canonical form: strictly rising addresses, all inside the memory, and no entry equal to what an unlisted
address reads as. -/
abbrev Memory.wf (m : Memory) : Prop :=
  m.Pairwise (fun p q => p.1 < q.1) ∧ ∀ c ∈ m, c.1 < memSize ∧ c.2 ≠ resetByte c.1

end Sys2Proof.Machine
end

