-- ==== Sys2Proof/Machine/Surd.lean ====
section
/-! DEFINITION. Machine/Surd: the numbers the pattern phase runs over. Under exact reals the rate law gives
`4000 * 2 ^ ((pitch - 64) / 48)` (45_audio.md R242), so a phase is a rational combination of the powers
`2 ^ (k / 48)` with `k` below 48. The state is plain data, so it holds the 48 coefficients (log 12). -/

namespace Sys2Proof.Machine

/-- The real number `c[0] + c[1] * 2 ^ (1 / 48) + ... + c[47] * 2 ^ (47 / 48)`. -/
structure Surd where
  coeff : Vector Rat 48
  deriving DecidableEq, Repr

namespace Surd

/-- The real number a combination stands for. No operation of the machine computes it: it says what an arithmetic of
Machine/Reals.lean must give. -/
noncomputable def value (x : Surd) : ℝ := ∑ k : Fin 48, (x.coeff[k.val] : ℝ) * (2 : ℝ) ^ ((k.val : ℝ) / 48)

/-- `q * 2 ^ (k / 48)`. -/
def monomial (k : Fin 48) (q : Rat) : Surd := ⟨(Vector.replicate 48 0).set k.val q⟩

/-- A rational number. -/
def ofRat (q : Rat) : Surd := monomial 0 q

/-- `x + y`. -/
def add (x y : Surd) : Surd := ⟨Vector.ofFn fun k : Fin 48 => x.coeff[k.val] + y.coeff[k.val]⟩

/-- `q * x`. -/
def scale (q : Rat) (x : Surd) : Surd := ⟨Vector.ofFn fun k : Fin 48 => q * x.coeff[k.val]⟩

/-- `x - q`. -/
def subRat (x : Surd) (q : Rat) : Surd := x.add (ofRat (-q))

end Surd
end Sys2Proof.Machine
end

