-- ==== Sys2Proof/Machine/State.lean ====
section
/-! DEFINITION. Machine/State: all the state the spec gives the machine (10_state.md, summary R42), as plain data,
grouped as the source groups its components, and the state after reset. -/

namespace Sys2Proof.Machine

/-- The model faults of 60_exceptions.md R271, the kinds a `Faulted` status records. R272 gives a fault an effect on
the state, so a CPU step that faults answers a NEXT state whose `status` says so (log 2); no step of this machine
answers `Host.Outcome.fault`. -/
inductive Fault where
  /-- A word read at `a` with `a + 2 > MEM_SIZE`: raised by fetch, by the skip look-ahead and by the second word of
  `F000 NNNN` (R64). Safe: the implementation may read on where the model faults (D6). -/
  | fetchOutOfRange (a : Nat)
  /-- A data access of `n` bytes at `a` with `a + n > MEM_SIZE`: raised by `DXYN`, `FX02`, `FX33`, `FX55`, `FX65`,
  `5XY2`, `5XY3` (R62, R63). Safe (D5). -/
  | memOutOfRange (a : Nat)
  /-- `2NNN` with `SP = STACK_DEPTH` (R106). Safe (D8). -/
  | stackOverflow
  /-- `00EE` with `SP = 0` (R103). Safe (D8). -/
  | stackUnderflow
  /-- `EX9E` or `EXA1` with `k = V[X] > 15` (R112, R113). Safe (D9). -/
  | keyIndexOutOfRange (k : Nat)
  deriving DecidableEq, Repr

/-- Why the model has no move. No CPU step is refused: every arm of `exec` has its meaning. The others are raised by
`hostOp` on arguments the interface refuses (60_exceptions.md R284, R285; D46). All are safe: a refused operation has
no meaning, so nothing can be proved of what it leads to. -/
inductive Refusal where
  /-- An instruction without a meaning yet; raised by no arm. Safe. -/
  | notModelled (mnemonic : String)
  /-- `press` or `release` of a key above 15 (R285). Safe. -/
  | keyOutsideKeypad
  /-- `run-frame` with a negative `elapsed` (R284). Safe. -/
  | negativeElapsed
  /-- `output` with a sample rate that is not positive (R284). Safe. -/
  | sampleRateNotPositive
  /-- `set-tickrate` with a tickrate that is not positive (R284). Safe. -/
  | tickrateNotPositive
  deriving DecidableEq, Repr

/-- The run status (10_state.md R38). -/
inductive Status where
  | running
  | halted
  /-- `Faulted(kind, addr, word)`: `word` is `none` when no first word could be fetched (R272). -/
  | faulted (kind : Fault) (addr : Word) (word : Option Word)
  deriving DecidableEq, Repr

/-- The CPU (R20 to R25, R27). -/
structure Cpu where
  /-- `V0`..`VF` (R20, R21). -/
  v : Vector Byte nreg
  /-- The index register `I` (R22). -/
  i : Word
  /-- `PC` (R23). -/
  pc : Word
  /-- `SP`, the number of stack entries in use (R24). -/
  sp : Byte
  /-- `S[k]`: 256 slots, one for every value of `SP`; those below `STACK_DEPTH` exist (R24, log 3). -/
  stack : Vector Word 256
  /-- The delay timer `DT` (R25). -/
  dt : Byte
  /-- The extension flags file `F[0..15]` (R27). -/
  flags : Vector Byte flagsSize
  deriving DecidableEq, Repr

/-- One row of a plane: bit `c` is the raster cell of column `c` (R34, R218, log 21). -/
abbrev Row := BitVec rasterW

/-- One plane of 64 rows of 128 cells; row 0 is the top (R34, R200). -/
abbrev Plane := Vector Row rasterH

/-- The four planes `P[0..3]` (R34). -/
abbrev Raster := Vector Plane nplanes

/-- The display (R34). -/
structure Display where
  planes : Raster
  hires : Bool
  planeMask : BitVec 4
  dirty : Bool
  pendingVblank : Bool
  deriving DecidableEq, Repr

/-- The keypad (R35). -/
structure Keypad where
  pressed : Vector Bool 16
  prev : Vector Bool 16
  deriving DecidableEq, Repr

/-- The audio device (R26, R36). -/
structure Audio where
  /-- The sound timer `ST` (R26). -/
  st : Byte
  pattern : Vector Byte 16
  pitch : Byte
  mode : AudioMode
  /-- Position in the pattern, in bits (R36; log 12). -/
  patPhase : Surd
  /-- Phase of the beep oscillator, in periods (R36). -/
  beepPhase : Rat
  deriving DecidableEq, Repr

/-- The sequencer (R28, R37). -/
structure Sequencer where
  /-- `TICKRATE`, CPU steps per timer tick (R28). -/
  tickrate : Rat
  cycleAccum : Rat
  timerAccum : Rat
  deriving DecidableEq, Repr

/-- The model's own fields: which draw of the oracle `RAND` comes next (R39, log 11). -/
structure RandSource where
  stream : Nat
  index : Nat
  deriving DecidableEq, Repr

/-- The complete state (R42). -/
structure State where
  cpu : Cpu
  mem : Memory
  display : Display
  keypad : Keypad
  audio : Audio
  seq : Sequencer
  quirks : Quirks
  status : Status
  rand : RandSource
  deriving DecidableEq, Repr

/-- Every state of R42 at its reset value, with a preset's triple and no program in memory: what `load` makes before
it copies the image (70_reset_and_hazards.md R310). `rand` is kept, because `RAND` is not state of the block (R39). -/
def State.powerOn (p : Preset) (rand : RandSource) : State where
  cpu :=
    { v := Vector.replicate nreg 0, i := 0, pc := loadAddr, sp := 0, stack := Vector.replicate 256 0, dt := 0,
      flags := Vector.replicate flagsSize 0 }
  mem := []
  display :=
    { planes := Vector.replicate nplanes (Vector.replicate rasterH 0), hires := false, planeMask := 1, dirty := false,
      pendingVblank := false }
  keypad := { pressed := Vector.replicate 16 false, prev := Vector.replicate 16 false }
  audio :=
    { st := 0, pattern := Vector.replicate 16 0, pitch := pitchReset, mode := p.audioMode, patPhase := .ofRat 0,
      beepPhase := 0 }
  seq := { tickrate := p.tickrate, cycleAccum := 0, timerAccum := 0 }
  quirks := p.quirks
  status := .running
  rand := rand

/-- The machine right after reset: `load` of an empty image under `DEFAULT_PLATFORM`, the model's first state
(R311, R310; log 5, 10, 31). -/
def State.reset : State := State.powerOn (defaultPreset Config.defaultPlatform) { stream := 0, index := 0 }

end Sys2Proof.Machine
end

