-- ==== Sys2Proof/Machine/Ops.lean ====
section
/-! DEFINITION. Machine/Ops: the named operations over registers and memory that every meaning is written with
(00_scope.md R9), and taking a fault. -/

namespace Sys2Proof.Machine

/-! ### Registers -/

/-- `V[x]` (R20). -/
def readV (s : State) (x : Reg) : Byte := s.cpu.v[x.val]

/-- `V[x] <- b` (R20). -/
def writeV (s : State) (x : Reg) (b : Byte) : State :=
  { s with cpu := { s.cpu with v := s.cpu.v.set x.val b } }

/-- The index of `VF` (R21). -/
abbrev vf : Reg := 15

/-- `PC <- target` (R9). -/
def setPc (s : State) (target : Word) : State := { s with cpu := { s.cpu with pc := target } }

/-- The fetch advance `PC <- trunc_16(a + 2)` (40_flow.md R100). Every meaning is given the state BEFORE this advance
and makes it first, so that a fault can leave the state as it was before the step (log 1). -/
def advance (s : State) : State := setPc s (s.cpu.pc + 2)

/-- `I <- a` (R22). -/
def setI (s : State) (a : Word) : State := { s with cpu := { s.cpu with i := a } }

/-- `DT <- b` (R25). -/
def setDt (s : State) (b : Byte) : State := { s with cpu := { s.cpu with dt := b } }

/-- `ST <- b` (R26). -/
def setSt (s : State) (b : Byte) : State := { s with audio := { s.audio with st := b } }

/-- `F[x] <- b` (R27). -/
def writeFlag (s : State) (x : Reg) (b : Byte) : State :=
  { s with cpu := { s.cpu with flags := s.cpu.flags.set x.val b } }

/-- `F[x]` (R27). -/
def readFlag (s : State) (x : Reg) : Byte := s.cpu.flags[x.val]

/-- `V[r] <- b` for each register and byte in turn. -/
def writeRegs (s : State) (rbs : List (Reg × Byte)) : State := rbs.foldl (fun t rb => writeV t rb.1 rb.2) s

/-- `F[r] <- b` for each entry and byte in turn. -/
def writeFlags (s : State) (rbs : List (Reg × Byte)) : State := rbs.foldl (fun t rb => writeFlag t rb.1 rb.2) s

/-! ### The call stack (R24) -/

/-- `S[k]`. -/
def stackSlot (s : State) (k : Byte) : Word := s.cpu.stack[k.toNat]'k.isLt

/-- `S[SP] <- a; SP <- SP + 1`. -/
def pushReturn (s : State) (a : Word) : State :=
  { s with cpu := { s.cpu with stack := s.cpu.stack.set s.cpu.sp.toNat a s.cpu.sp.isLt, sp := s.cpu.sp + 1 } }

/-- `SP <- SP - 1; PC <- S[SP]`; the slot keeps its value (40_flow.md R103). -/
def popReturn (s : State) : State :=
  { s with cpu := { s.cpu with sp := s.cpu.sp - 1, pc := stackSlot s (s.cpu.sp - 1) } }

/-! ### Memory (20_memory.md) -/

/-- `Fetch(a)`: the big-endian word at `a`, or a fault when it would cross the end of memory (R64). -/
def fetchWord (s : State) (a : Word) : Except Fault Word :=
  if a.toNat + 2 > memSize then .error (.fetchOutOfRange a.toNat)
  else .ok (joinBytes (s.mem.read a.toNat) (s.mem.read (a.toNat + 1)))

/-- `MemRead(a, n)` (R62). -/
def memRead (s : State) (a n : Nat) : Except Fault (List Byte) :=
  if a + n > memSize then .error (.memOutOfRange a) else .ok (s.mem.readBytes a n)

/-- `MemWrite(a, n, bytes)` with `n` the number of bytes: the new memory (R63). The whole range is checked before the
first byte is written. -/
def memWrite (s : State) (a : Nat) (bytes : List Byte) : Except Fault Memory :=
  if a + bytes.length > memSize then .error (.memOutOfRange a) else .ok (s.mem.writeBytes a bytes)

/-- The memory with `m` in its place. -/
def setMem (s : State) (m : Memory) : State := { s with mem := m }

/-! ### Taking a fault (60_exceptions.md R271, R272, R277)

There is no trap, no vector, no saved state and no return from a fault: only `load` leaves `Faulted` (R278). -/

/-- `raise Fault(kind)`: everything is as before the step that raised it, and `status` records the kind, the address of
the faulting instruction and its first word, or `none` where that word cannot be fetched (R272; log 2, 30).
`s` is the state before the step. -/
def takeFault (kind : Fault) (s : State) : State :=
  { s with status := .faulted kind s.cpu.pc (fetchWord s s.cpu.pc).toOption }

/-- Go on with the value of a checked access, or take its fault in `s`, the state before the step. -/
def orFault {α : Type} (s : State) (r : Except Fault α) (k : α → State) : State :=
  match r with
  | .error f => takeFault f s
  | .ok a => k a

end Sys2Proof.Machine
end

