-- ==== Sys2Proof/Machine/Operands.lean ====
section
/-! DEFINITION. Machine/Operands: the operand forms of the instructions: register ranges, the quirk-selected source
registers, the index write-back, glyph addresses and the sprite shape. -/

namespace Sys2Proof.Machine

/-- The inclusive range from `x` to `y`, ascending or descending (42_index_memory.md R169). -/
def regRange (x y : Reg) : List Reg :=
  if x ≤ y then (List.range (y.val - x.val + 1)).map fun k => Fin.ofNat 16 (x.val + k)
  else (List.range (x.val - y.val + 1)).map fun k => Fin.ofNat 16 (x.val - k)

/-- `V[0], V[1], ..., V[X]` (R167, R168, R171, R172). -/
def regsUpTo (x : Reg) : List Reg := regRange 0 x

/-- The values of a list of registers, in order. -/
def readRegs (s : State) (rs : List Reg) : List Byte := rs.map (readV s)

/-- The source of `8XY6` and `8XYE`: `V[X]` under `Q.shift`, else `V[Y]` (41_alu.md R139, R141). -/
def shiftSource (s : State) (x y : Reg) : Byte := if s.quirks.shift then readV s x else readV s y

/-- The offset register of `BNNN`: `X = NNN[11:8]` under `Q.jump`, else 0 (40_flow.md R107). -/
def jumpRegister (s : State) (nnn : BitVec 12) : Reg := if s.quirks.jump then (nnn.extractLsb' 8 4).toFin else 0

/-- `WriteBack(x)`, the index write-back policy (42_index_memory.md R166). -/
def writeBack (s : State) (x : Reg) : State :=
  if s.quirks.memLeaveI then s
  else if s.quirks.memIncX then setI s (s.cpu.i + BitVec.ofNat 16 x.val)
  else setI s (s.cpu.i + BitVec.ofNat 16 (x.val + 1))

/-- `zext_16(NNN)` (R82). -/
def zext16 (nnn : BitVec 12) : Word := nnn.setWidth 16

/-- The low nibble of a byte: the digit `FX29` and `FX30` use (R163, R164, D50). -/
def lowNibble (b : Byte) : Nat := (b &&& 0x0F).toNat

/-- The address of a small-font glyph (R163). -/
def smallGlyph (b : Byte) : Word := BitVec.ofNat 16 (fontAddr + 5 * lowNibble b)

/-- The address of a big-font glyph (R164). -/
def bigGlyph (b : Byte) : Word := BitVec.ofNat 16 (bigFontAddr + 10 * lowNibble b)

/-- The three decimal digits of a byte, hundreds first (R165). -/
def decimalDigits (b : Byte) : List Byte :=
  [BitVec.ofNat 8 (b.toNat / 100), BitVec.ofNat 8 (b.toNat / 10 % 10), BitVec.ofNat 8 (b.toNat % 10)]

/-- The shape of a sprite (44_display.md R211): width, height, bytes per row. -/
structure SpriteShape where
  w : Nat
  h : Nat
  bpr : Nat
  deriving DecidableEq, Repr

/-- `N = 0` is 16 x 16 with two bytes per row, any other `N` is 8 x `N` with one (R211). -/
def spriteShape (n : Fin 16) : SpriteShape :=
  if n.val = 0 then { w := 16, h := 16, bpr := 2 } else { w := 8, h := n.val, bpr := 1 }

/-- The bytes a sprite takes on one plane (R211). -/
def SpriteShape.len (sh : SpriteShape) : Nat := sh.h * sh.bpr

end Sys2Proof.Machine
end

