-- ==== Sys2Proof/Machine/Flags.lean ====
section
/-! DEFINITION. Machine/Flags: the results and the `VF` flag of the register instructions (41_alu.md R130, R143), and
the one place where the order "result first, `VF` last" is decided. -/

namespace Sys2Proof.Machine

/-- A result with the flag that goes to `VF`. -/
structure Flagged where
  value : Byte
  flag : Bool
  deriving DecidableEq, Repr

/-- A flag as the byte `VF` gets: 1 or 0. -/
def flagByte (f : Bool) : Byte := if f then 1 else 0

/-- `a + b` with the carry out of bit 7 (R137). -/
def addCarry (a b : Byte) : Flagged := { value := a + b, flag := 0xFF < a.toNat + b.toNat }

/-- `a - b` with the flag 1 when there is no borrow (R138, R140, R143). -/
def subNoBorrow (a b : Byte) : Flagged := { value := a - b, flag := b.toNat ≤ a.toNat }

/-- `src >> 1` with the bit shifted out (R139). -/
def shiftRightOne (src : Byte) : Flagged := { value := src >>> 1, flag := src.getLsbD 0 }

/-- `trunc_8(src << 1)` with the bit shifted out (R141). -/
def shiftLeftOne (src : Byte) : Flagged := { value := src <<< 1, flag := src.getLsbD 7 }

/-- Write the result to `V[X]` first and the flag to `VF` second (R130). -/
def writeFlagged (s : State) (x : Reg) (r : Flagged) : State := writeV (writeV s x r.value) vf (flagByte r.flag)

/-- Write the result of a logic operation, then clear `VF` under `Q.vfReset` (R134 to R136, R130). -/
def writeLogic (s : State) (x : Reg) (b : Byte) : State :=
  if s.quirks.vfReset then writeV (writeV s x b) vf 0 else writeV s x b

end Sys2Proof.Machine
end

