-- ==== Sys2Proof/Machine/Alu.lean ====
section
/-! DEFINITION. Machine/Alu: register arithmetic and logic (41_alu.md). Every operand is read before anything is
written (R130, 70_reset_and_hazards.md R316). No instruction of this file touches memory or faults. -/

namespace Sys2Proof.Machine

/-- `6XNN` (R131). -/
def execLdImm (x : Reg) (nn : Byte) (s : State) : Host.Outcome State Fault Refusal :=
  .next (writeV (advance s) x nn)

/-- `7XNN`: the sum wraps, `VF` is not written as a flag (R132). -/
def execAddImm (x : Reg) (nn : Byte) (s : State) : Host.Outcome State Fault Refusal :=
  .next (writeV (advance s) x (readV s x + nn))

/-- `8XY0` (R133). -/
def execLdReg (x y : Reg) (s : State) : Host.Outcome State Fault Refusal :=
  .next (writeV (advance s) x (readV s y))

/-- `8XY1` (R134). -/
def execOrReg (x y : Reg) (s : State) : Host.Outcome State Fault Refusal :=
  .next (writeLogic (advance s) x (readV s x ||| readV s y))

/-- `8XY2` (R135). -/
def execAndReg (x y : Reg) (s : State) : Host.Outcome State Fault Refusal :=
  .next (writeLogic (advance s) x (readV s x &&& readV s y))

/-- `8XY3` (R136). -/
def execXorReg (x y : Reg) (s : State) : Host.Outcome State Fault Refusal :=
  .next (writeLogic (advance s) x (readV s x ^^^ readV s y))

/-- `8XY4` (R137). -/
def execAddReg (x y : Reg) (s : State) : Host.Outcome State Fault Refusal :=
  .next (writeFlagged (advance s) x (addCarry (readV s x) (readV s y)))

/-- `8XY5`: `Vx - Vy` (R138). -/
def execSubReg (x y : Reg) (s : State) : Host.Outcome State Fault Refusal :=
  .next (writeFlagged (advance s) x (subNoBorrow (readV s x) (readV s y)))

/-- `8XY6` (R139). -/
def execShr (x y : Reg) (s : State) : Host.Outcome State Fault Refusal :=
  .next (writeFlagged (advance s) x (shiftRightOne (shiftSource s x y)))

/-- `8XY7`: `Vy - Vx` (R140). -/
def execSubnReg (x y : Reg) (s : State) : Host.Outcome State Fault Refusal :=
  .next (writeFlagged (advance s) x (subNoBorrow (readV s y) (readV s x)))

/-- `8XYE` (R141). -/
def execShl (x y : Reg) (s : State) : Host.Outcome State Fault Refusal :=
  .next (writeFlagged (advance s) x (shiftLeftOne (shiftSource s x y)))

/-- `RAND()`: the next byte of the oracle (10_state.md R39, D28; log 11). -/
def randDraw (s : State) : Byte := Config.randByte s.rand.stream s.rand.index

/-- The oracle after one draw: the next draw is another free byte. -/
def drawn (s : State) : State := { s with rand := { s.rand with index := s.rand.index + 1 } }

/-- `CXNN` (R142). -/
def execRnd (x : Reg) (nn : Byte) (s : State) : Host.Outcome State Fault Refusal :=
  .next (writeV (drawn (advance s)) x (randDraw s &&& nn))

/-- `8XYN` with `N` in 8..D, F: only the fetch advance (R144). -/
def execNoop8 (_x _y _n : Fin 16) (s : State) : Host.Outcome State Fault Refusal := .next (advance s)

end Sys2Proof.Machine
end

