-- ==== Sys2Proof/Machine/Reals.lean ====
section
/-! DEFINITION. Machine/Reals: the parameter `REALS` (00_scope.md R6, R8, D36): how the real arithmetic of the
sequencer and of the synthesizer is rounded. It is OPEN, so it is an argument of every operation that computes with
reals, and a claim is made for every `REALS` or says which it needs (log 12). No CPU step uses it. -/

namespace Sys2Proof.Machine

/-- What an accumulator `a` holds after `n` turns of `while accum >= 1: accum <- accum - 1` (60_exceptions.md R281). -/
def afterUnits (round : Rat → Rat) : Nat → Rat → Rat
  | 0, a => a
  | n + 1, a => afterUnits round n (round (a - 1))

/-- `n` turns are what that loop takes from `a`: each is taken from at least 1 and, if the loop can end, `n` turns end
it. Where it can end, one `n` is so (`UnitTurns.unique`). -/
def UnitTurns (round : Rat → Rat) (a : Rat) (n : Nat) : Prop :=
  (∀ j, j < n → 1 ≤ afterUnits round j a) ∧ ((∃ j, afterUnits round j a < 1) → afterUnits round n a < 1)

/-- A choice of `REALS`: one rounding function on the reals, and an arithmetic that computes it. The laws fix every
result but the rounding, so that `2 ^ e` is the rounded power and nothing else.

Which operations are rounded is the model's choice (DESIGN CHOICE, log 12): every addition, subtraction, multiplication
and division of R242, R244, R245 and R281, and the power of R242, is the rounding of its exact result, once each;
comparisons, `floor`, `frac` and `mod 128` are exact.

`turns a` is how many turns the loops of R281 take from `a`. Where the rounded loop ends, that is the one number R281
states. Where it does not, as when rounding the difference gives `a` back (binary64 does so far above 1), R281 states no
number, and `turns a` is a free value of this OPEN argument (DESIGN CHOICE, log 13). -/
structure Reals where
  /-- The rounding of an exact real result. It is what is OPEN: it fixes every field below, but for `turns` from an
  accumulator whose loop has no last turn. -/
  rnd : ℝ → ℝ
  /-- The rounding of a rational result. -/
  round : Rat → Rat
  round_eq : ∀ q, ((round q : Rat) : ℝ) = rnd q
  /-- The rounding of a phase or a rate. -/
  roundSurd : Surd → Surd
  roundSurd_eq : ∀ x, (roundSurd x).value = rnd x.value
  /-- `2 ^ ((pitch - PITCH_CENTER) / PITCH_PER_OCTAVE)`, each of its three operations rounded (R242). -/
  octaves : Byte → Surd
  octaves_eq : ∀ pitch, (octaves pitch).value =
    rnd ((2 : ℝ) ^ ((round (round ((pitch.toNat : Rat) - pitchCenter) / pitchPerOctave) : Rat) : ℝ))
  /-- `floor`. -/
  floor : Surd → Int
  floor_eq : ∀ x, floor x = ⌊x.value⌋
  /-- The turns of `while accum >= 1: accum <- accum - 1` from an accumulator. -/
  turns : Rat → Nat
  turns_spec : ∀ a, UnitTurns round a (turns a)

/-- `REALS` = exact reals: nothing is rounded, as in 95_test_vectors.md. -/
def Reals.Exact (R : Reals) : Prop := ∀ x, R.rnd x = x

/-- Rounding keeps a non-negative result non-negative. -/
def Reals.KeepsNonneg (R : Reals) : Prop := ∀ x, 0 ≤ x → 0 ≤ R.rnd x

/-- `frac(v) = v - floor(v)` (45_audio.md R244). -/
def frac (v : Rat) : Rat := v - v.floor

/-- `v mod 128` on reals (R245). -/
def modPattern (R : Reals) (v : Surd) : Surd :=
  v.subRat (patternBits * R.floor (v.scale (1 / patternBits)))

end Sys2Proof.Machine
end

