-- ==== Sys2Proof/Machine/Audio.lean ====
section
/-! DEFINITION. Machine/Audio: the audio instructions and the waveform synthesizer (45_audio.md). -/

namespace Sys2Proof.Machine

/-- `FX02`: copy 16 bytes from `I` into the pattern and switch to pattern mode; `X` is not used, `patPhase` is
unchanged (R240, D23, D29). -/
def execAudio (_x : Fin 16) (s : State) : Host.Outcome State Fault Refusal :=
  .next (orFault s (memRead s s.cpu.i.toNat 16) fun b =>
    { advance s with
      audio := { s.audio with pattern := Vector.ofFn fun k : Fin 16 => b.getD k.val 0, mode := .pattern } })

/-- `FX3A`: set the pitch and switch to pattern mode; `patPhase` is unchanged (R241). -/
def execPitch (x : Reg) (s : State) : Host.Outcome State Fault Refusal :=
  .next { advance s with audio := { s.audio with pitch := readV s x, mode := .pattern } }

/-! ### Synthesizer -/

/-- One output value (00_scope.md R11, R243). -/
inductive Level where
  | silent
  | high
  | low
  deriving DecidableEq, Repr

/-- `PlaybackRate(pitch)` in bits per second (R242): the power and the product are rounded by `REALS`, and in
`R.octaves` the subtraction and the division of the exponent too (DESIGN CHOICE, log 12). -/
def playbackRate (R : Reals) (pitch : Byte) : Surd := R.roundSurd ((R.octaves pitch).scale pitchBaseRate)

/-- `BeepSample(sr)`: sample, then advance (R244, D24). Quotient and sum are rounded, `frac` is exact (DESIGN CHOICE,
log 12). -/
def beepSample (R : Reals) (sr : Rat) (a : Audio) : Audio × Level :=
  ({ a with beepPhase := frac (R.round (a.beepPhase + R.round (beepHz / sr))) },
    if a.beepPhase < 1 / 2 then .high else .low)

/-- Bit `k` of the pattern's stream: the most significant bit of byte 0 first (R245). -/
def patternBit (pattern : Vector Byte 16) (k : Nat) : Bool :=
  (pattern.toList.getD (k / 8) 0).getLsbD (7 - k % 8)

/-- `PatternSample(sr)`: sample, then advance (R245, D23). Quotient and sum are rounded, `mod 128` is exact (DESIGN
CHOICE, log 12). -/
def patternSample (R : Reals) (sr : Rat) (a : Audio) : Audio × Level :=
  ({ a with patPhase := modPattern R (R.roundSurd (a.patPhase.add
      (R.roundSurd ((playbackRate R a.pitch).scale (1 / sr))))) },
    if patternBit a.pattern (R.floor a.patPhase).toNat then .high else .low)

/-- One sample: silence while `ST = 0`, and then the phases hold still (R243, D23). -/
def sample (R : Reals) (sr : Rat) (a : Audio) : Audio × Level :=
  if a.st = 0 then (a, .silent)
  else
    match a.mode with
    | .beep => beepSample R sr a
    | .pattern => patternSample R sr a

/-- `Output(n, sr)` on the audio device (R243). -/
def synthesize (R : Reals) (sr : Rat) : Nat → Audio → Audio × List Level
  | 0, a => (a, [])
  | n + 1, a =>
    let first := sample R sr a
    let rest := synthesize R sr n first.1
    (rest.1, first.2 :: rest.2)

/-- `output(n, sr)` on the machine: only the phases change (R243, 60_exceptions.md R284). -/
def output (R : Reals) (n : Nat) (sr : Rat) (s : State) : State × List Level :=
  let r := synthesize R sr n s.audio
  ({ s with audio := r.1 }, r.2)

end Sys2Proof.Machine
end

