-- ==== Sys2Proof/Machine/Display.lean ====
section
/-! DEFINITION. Machine/Display: raster geometry, plane selection, clear, resolution, scrolls, the sprite
write-collision engine and `DXYN`, and `poll` (44_display.md). -/

namespace Sys2Proof.Machine

/-! ### Geometry and cells (R200, R201) -/

/-- The raster cell `P[p][r][c]` (R34, R200). -/
def cell (ras : Raster) (p : Fin nplanes) (r : Fin rasterH) (c : Fin rasterW) : Bool := (ras[p.val][r.val]).getLsbD c.val

/-- `P[p][r][c] <- not P[p][r][c]`. -/
def toggleCell (ras : Raster) (p : Fin nplanes) (rc : Fin rasterH × Fin rasterW) : Raster :=
  ras.set p.val ((ras[p.val]).set rc.1.val ((ras[p.val][rc.1.val]) ^^^ BitVec.twoPow rasterW rc.2.val))

/-- `LW`, the width of the logical grid (R200). -/
def logicalWidth (hires : Bool) : Nat := if hires then rasterW else loresW

/-- `LH`, the height of the logical grid (R200). -/
def logicalHeight (hires : Bool) : Nat := if hires then rasterH else loresH

/-- `Cells(lx, ly)`, as (row, column) (R200). The coordinates are always inside the logical grid where this is used, so
the reduction to the size of the raster changes nothing. -/
def cellsOf (hires : Bool) (lx ly : Nat) : List (Fin rasterH × Fin rasterW) :=
  if hires then [(Fin.ofNat rasterH ly, Fin.ofNat rasterW lx)]
  else
    [(Fin.ofNat rasterH (2 * ly), Fin.ofNat rasterW (2 * lx)), (Fin.ofNat rasterH (2 * ly), Fin.ofNat rasterW (2 * lx + 1)),
      (Fin.ofNat rasterH (2 * ly + 1), Fin.ofNat rasterW (2 * lx)), (Fin.ofNat rasterH (2 * ly + 1), Fin.ofNat rasterW (2 * lx + 1))]

/-- Plane `p` is selected (R201). -/
def selected (d : Display) (p : Fin nplanes) : Bool := d.planeMask.getLsbD p.val

/-- `Sel`, the selected planes in ascending order (R201). -/
def sel (d : Display) : List (Fin nplanes) := (List.finRange nplanes).filter (selected d)

/-- Replace each selected plane by its image under `f`, and leave the others unchanged (R201). -/
def mapSelected (d : Display) (f : Plane → Plane) : Raster :=
  Vector.ofFn fun p : Fin nplanes => if selected d p then f d.planes[p.val] else d.planes[p.val]

/-- Apply `f` to the selected planes and set `dirty` (R202, R207 to R210). -/
def redraw (s : State) (f : Plane → Plane) : State :=
  { s with display := { s.display with planes := mapSelected s.display f, dirty := true } }

/-! ### Clear, resolution, plane select -/

/-- The plane with every cell false. -/
def blankPlane : Plane := Vector.replicate rasterH 0

/-- `00E0` (R202). -/
def execCls (s : State) : Host.Outcome State Fault Refusal := .next (redraw (advance s) fun _ => blankPlane)

/-- `hires <- b`: no cell changes and `dirty` is not set (R203, R204, D20, D42). -/
def setHires (s : State) (b : Bool) : State := { s with display := { s.display with hires := b } }

/-- `00FE` (R203). -/
def execLow (s : State) : Host.Outcome State Fault Refusal := .next (setHires (advance s) false)

/-- `00FF` (R204). -/
def execHigh (s : State) : Host.Outcome State Fault Refusal := .next (setHires (advance s) true)

/-- `planeMask <- mask`. -/
def setPlaneMask (s : State) (mask : BitVec 4) : State := { s with display := { s.display with planeMask := mask } }

/-- `FX01`: the mask is the field `X` itself (R205, D29). -/
def execPlane (mask : BitVec 4) (s : State) : Host.Outcome State Fault Refusal :=
  .next (setPlaneMask (advance s) mask)

/-! ### Scroll (R206 to R210) -/

/-- `Amt(a)` (R206). -/
def scrollAmount (s : State) (a : Nat) : Nat := if !s.display.hires && s.quirks.scaleScroll then 2 * a else a

/-- Rows move toward higher row numbers, zero fill at the top (R207). -/
def scrollDown (d : Nat) (pl : Plane) : Plane :=
  Vector.ofFn fun r : Fin rasterH => if d ≤ r.val then pl[r.val - d] else 0

/-- Rows move toward lower row numbers, zero fill at the bottom (R208). -/
def scrollUp (d : Nat) (pl : Plane) : Plane :=
  Vector.ofFn fun r : Fin rasterH => if h : r.val + d < rasterH then pl[r.val + d] else 0

/-- Cells move toward higher column numbers, zero fill at the left (R209): bit `c` of a row is column `c`. -/
def scrollRight (m : Nat) (pl : Plane) : Plane := Vector.ofFn fun r : Fin rasterH => pl[r.val] <<< m

/-- Cells move toward lower column numbers, zero fill at the right (R210). -/
def scrollLeft (m : Nat) (pl : Plane) : Plane := Vector.ofFn fun r : Fin rasterH => pl[r.val] >>> m

/-- `00CN` (R207). -/
def execScd (n : Fin 16) (s : State) : Host.Outcome State Fault Refusal :=
  .next (redraw (advance s) (scrollDown (scrollAmount s n.val)))

/-- `00DN` (R208). -/
def execScu (n : Fin 16) (s : State) : Host.Outcome State Fault Refusal :=
  .next (redraw (advance s) (scrollUp (scrollAmount s n.val)))

/-- `00FB` (R209). -/
def execScr (s : State) : Host.Outcome State Fault Refusal :=
  .next (redraw (advance s) (scrollRight (scrollAmount s 4)))

/-- `00FC` (R210). -/
def execScl (s : State) : Host.Outcome State Fault Refusal :=
  .next (redraw (advance s) (scrollLeft (scrollAmount s 4)))

/-! ### The sprite write-collision engine (R211 to R214) -/

/-- `wrapEff`: the quirk, or an origin off the logical grid (R213, D17). -/
def wrapEff (hires wrap : Bool) (x y : Nat) : Bool :=
  wrap || logicalWidth hires ≤ x || logicalHeight hires ≤ y

/-- Where a sprite pixel lands: wrapped, or `none` when it is clipped (R213, R214). -/
def landing (hires wrapped : Bool) (px py : Nat) : Option (Nat × Nat) :=
  if wrapped then some (px % logicalWidth hires, py % logicalHeight hires)
  else if logicalWidth hires ≤ px || logicalHeight hires ≤ py then none
  else some (px, py)

/-- Whether sprite column `c` of row `r` of the `k`-th selected plane's block is set (R212). -/
def spriteBit (bytes : List Byte) (sh : SpriteShape) (k r c : Nat) : Bool :=
  (bytes.getD (k * sh.len + r * sh.bpr + c / 8) 0).getLsbD (7 - c % 8)

/-- The logical pixels a draw toggles, each with its plane, in the engine's order: planes, rows, columns (R214). -/
def drawnPixels (d : Display) (bytes : List Byte) (sh : SpriteShape) (wrap : Bool) (x y : Nat) :
    List (Fin nplanes × Nat × Nat) :=
  (sel d).zipIdx.flatMap fun pk =>
    (List.range sh.h).flatMap fun r =>
      (List.range sh.w).filterMap fun c =>
        if spriteBit bytes sh pk.2 r c then
          (landing d.hires (wrapEff d.hires wrap x y) (x + c) (y + r)).map fun q => (pk.1, q)
        else none

/-- Toggle one logical pixel and add 1 to the count if any of its cells was set (R214, D15). -/
def drawPixel (hires : Bool) (acc : Raster × Nat) (q : Fin nplanes × Nat × Nat) : Raster × Nat :=
  let cs := cellsOf hires q.2.1 q.2.2
  (cs.foldl (fun ras rc => toggleCell ras q.1 rc) acc.1,
    if cs.any (fun rc => cell acc.1 q.1 rc.1 rc.2) then acc.2 + 1 else acc.2)

/-- Draw a list of logical pixels in order. -/
def drawPixels (hires : Bool) (ras : Raster) (qs : List (Fin nplanes × Nat × Nat)) : Raster × Nat :=
  qs.foldl (drawPixel hires) (ras, 0)

/-- `DrawSprite` once its bytes are read: the display after it and the collision count (R214). `dirty` and
`pendingVblank` are set by every draw, also with no plane selected (D20, D43). -/
def drawSprite (d : Display) (bytes : List Byte) (sh : SpriteShape) (wrap : Bool) (x y : Nat) : Display × Nat :=
  let r := drawPixels d.hires d.planes (drawnPixels d bytes sh wrap x y)
  ({ d with planes := r.1, dirty := true, pendingVblank := true }, r.2)

/-- The sprite's bytes at `I`: the whole block, also where pixels are clipped (R214, D51); nothing is read when no
plane is selected. -/
def spriteBytes (s : State) (sh : SpriteShape) : Except Fault (List Byte) :=
  if (sel s.display).isEmpty then .ok []
  else memRead s s.cpu.i.toNat (sh.len * (sel s.display).length)

/-- `DXYN`: the coordinates are read before `VF` is written (R216). -/
def execDrw (x y : Reg) (n : Fin 16) (s : State) : Host.Outcome State Fault Refusal :=
  .next (orFault s (spriteBytes s (spriteShape n)) fun bytes =>
    let r := drawSprite s.display bytes (spriteShape n) s.quirks.wrap (readV s x).toNat (readV s y).toNat
    writeV { advance s with display := r.1 } vf (flagByte (r.2 != 0)))

/-! ### Host side (R217) -/

/-- `poll()`: the dirty flag, then `dirty` and `pendingVblank` cleared (R217, D11). -/
def poll (s : State) : State × Bool :=
  ({ s with display := { s.display with dirty := false, pendingVblank := false } }, s.display.dirty)

end Sys2Proof.Machine
end

