-- ==== Sys2Proof/Machine/Flow.lean ====
section
/-! DEFINITION. Machine/Flow: control transfer (40_flow.md): return, exit, jumps, call, skips, the key wait, and the
no-op rows of families 0, 5, 9, E and F. -/

namespace Sys2Proof.Machine

/-- `00EE` (R103). -/
def execRet (s : State) : Host.Outcome State Fault Refusal :=
  .next (if s.cpu.sp = 0 then takeFault .stackUnderflow s else popReturn (advance s))

/-- What `00FD` does under each value of `EXIT_MODE` (R104, 60_exceptions.md R273). -/
def exitUnder (mode : ExitMode) (s : State) : State :=
  match mode with
  | .halt => { s with status := .halted }
  | .noOp => s

/-- `00FD` (R104; log 4). -/
def execExit (s : State) : Host.Outcome State Fault Refusal := .next (exitUnder Config.exitMode (advance s))

/-- `1NNN` (R105). -/
def execJp (nnn : BitVec 12) (s : State) : Host.Outcome State Fault Refusal :=
  .next (setPc (advance s) (zext16 nnn))

/-- `2NNN`: the pushed address is the already advanced `PC` (R106, D45). -/
def execCall (nnn : BitVec 12) (s : State) : Host.Outcome State Fault Refusal :=
  .next (if s.cpu.sp.toNat = Config.stackDepth then takeFault .stackOverflow s
    else setPc (pushReturn (advance s) (advance s).cpu.pc) (zext16 nnn))

/-- `BNNN` (R107, D44). -/
def execJpV0 (nnn : BitVec 12) (s : State) : Host.Outcome State Fault Refusal :=
  .next (setPc (advance s) (zext16 nnn + (readV s (jumpRegister s nnn)).setWidth 16))

/-! ### Skips -/

/-- How far a skip moves past a next instruction that starts with `w` (R102, 30_encoding.md R87). -/
def skipLength (w : Word) : Word := if isLong w then 4 else 2

/-- `Skip()` made by the instruction at `PC`: the look-ahead is at the already advanced `PC` (R102). -/
def skip (s : State) : State :=
  orFault s (fetchWord s (advance s).cpu.pc) fun w => setPc s ((advance s).cpu.pc + skipLength w)

/-- Skip when the condition holds; a skip whose condition fails reads no memory (R102). -/
def skipIf (c : Bool) (s : State) : State := if c then skip s else advance s

/-- `3XNN` (R108). -/
def execSeImm (x : Reg) (nn : Byte) (s : State) : Host.Outcome State Fault Refusal :=
  .next (skipIf (readV s x == nn) s)

/-- `4XNN` (R109). -/
def execSneImm (x : Reg) (nn : Byte) (s : State) : Host.Outcome State Fault Refusal :=
  .next (skipIf (readV s x != nn) s)

/-- `5XY0` (R110). -/
def execSeReg (x y : Reg) (s : State) : Host.Outcome State Fault Refusal :=
  .next (skipIf (readV s x == readV s y) s)

/-- `9XY0` (R111). -/
def execSneReg (x y : Reg) (s : State) : Host.Outcome State Fault Refusal :=
  .next (skipIf (readV s x != readV s y) s)

/-- `pressed[k]` for a key index, or the fault of an index above 15 (R112, R113, D9). -/
def keyPressed (s : State) (k : Byte) : Except Fault Bool :=
  if h : k.toNat < 16 then .ok (s.keypad.pressed[k.toNat]) else .error (.keyIndexOutOfRange k.toNat)

/-- `EX9E` (R112). -/
def execSkp (x : Reg) (s : State) : Host.Outcome State Fault Refusal :=
  .next (orFault s (keyPressed s (readV s x)) fun p => skipIf p s)

/-- `EXA1` (R113). -/
def execSknp (x : Reg) (s : State) : Host.Outcome State Fault Refusal :=
  .next (orFault s (keyPressed s (readV s x)) fun p => skipIf (!p) s)

/-! ### Key wait -/

/-- Key `k` has a release edge (10_state.md R35). -/
def releaseEdge (s : State) (k : Fin 16) : Bool := s.keypad.prev[k.val] && !s.keypad.pressed[k.val]

/-- The keys, lowest first. -/
def allKeys : List (Fin 16) := (List.range 16).map (Fin.ofNat 16)

/-- `min(rel)`, if some key has a release edge (R114, D10). -/
def lowestReleased (s : State) : Option (Fin 16) := allKeys.find? (releaseEdge s)

/-- `FX0A`: store the released key, or go back to this word (R114, D53). The edge is not consumed. -/
def execLdVxK (x : Reg) (s : State) : Host.Outcome State Fault Refusal :=
  .next (match lowestReleased s with
    | none => setPc (advance s) ((advance s).cpu.pc - 2)
    | some k => writeV (advance s) x (BitVec.ofNat 8 k.val))

/-! ### No-op rows: only the fetch advance (R115, R116) -/

/-- `0NNN` with no listed sub-case (R115). -/
def execNoop0 (_nnn : BitVec 12) (s : State) : Host.Outcome State Fault Refusal := .next (advance s)

/-- `5XYN` with `N` not 0, 2, 3 (R116). -/
def execNoop5 (_x _y _n : Fin 16) (s : State) : Host.Outcome State Fault Refusal := .next (advance s)

/-- `9XYN` with `N` not 0 (R116). -/
def execNoop9 (_x _y _n : Fin 16) (s : State) : Host.Outcome State Fault Refusal := .next (advance s)

/-- `EXNN` with no listed sub-case (R116). -/
def execNoopE (_x : Fin 16) (_nn : Byte) (s : State) : Host.Outcome State Fault Refusal := .next (advance s)

/-- `FXNN` with no listed sub-case (R116). -/
def execNoopF (_x : Fin 16) (_nn : Byte) (s : State) : Host.Outcome State Fault Refusal := .next (advance s)

end Sys2Proof.Machine
end

