-- ==== Sys2Proof/Machine/Index.lean ====
section
/-! DEFINITION. Machine/Index: the index register, loads and stores, the flags file (42_index_memory.md). Every memory
access is at base `I`; the whole range is checked before anything is written, so a fault changes nothing (R165 to
R170, 60_exceptions.md R272). -/

namespace Sys2Proof.Machine

/-- `ANNN` (R160). -/
def execLdI (nnn : BitVec 12) (s : State) : Host.Outcome State Fault Refusal :=
  .next (setI (advance s) (zext16 nnn))

/-- `F000 NNNN`: the second word has been fetched with the first (Machine/Fetch.lean, where its fault is), so `PC`
advances past both words (R161). -/
def execLdILong (nnnn : Word) (s : State) : Host.Outcome State Fault Refusal :=
  .next (setI (advance (advance s)) nnnn)

/-- `FX1E`: wraps at 16 bits, `VF` is not written (R162). -/
def execAddI (x : Reg) (s : State) : Host.Outcome State Fault Refusal :=
  .next (setI (advance s) (s.cpu.i + (readV s x).setWidth 16))

/-- `FX29` (R163). -/
def execLdF (x : Reg) (s : State) : Host.Outcome State Fault Refusal :=
  .next (setI (advance s) (smallGlyph (readV s x)))

/-- `FX30` (R164). -/
def execLdHF (x : Reg) (s : State) : Host.Outcome State Fault Refusal :=
  .next (setI (advance s) (bigGlyph (readV s x)))

/-- Store bytes at `I` (R63). -/
def storeAtI (s : State) (bytes : List Byte) (k : State → State) : State :=
  orFault s (memWrite s s.cpu.i.toNat bytes) fun m => k (setMem (advance s) m)

/-- Load `n` bytes from `I` (R62). -/
def loadFromI (s : State) (n : Nat) (k : List Byte → State) : State :=
  orFault s (memRead s s.cpu.i.toNat n) k

/-- `FX33` (R165). -/
def execLdB (x : Reg) (s : State) : Host.Outcome State Fault Refusal :=
  .next (storeAtI s (decimalDigits (readV s x)) id)

/-- `FX55` (R167). -/
def execStoreRegs (x : Reg) (s : State) : Host.Outcome State Fault Refusal :=
  .next (storeAtI s (readRegs s (regsUpTo x)) fun t => writeBack t x)

/-- `FX65` (R168). -/
def execLoadRegs (x : Reg) (s : State) : Host.Outcome State Fault Refusal :=
  .next (loadFromI s (x.val + 1) fun b => writeBack (writeRegs (advance s) ((regsUpTo x).zip b)) x)

/-- `5XY2` (R169). -/
def execSaveRange (x y : Reg) (s : State) : Host.Outcome State Fault Refusal :=
  .next (storeAtI s (readRegs s (regRange x y)) id)

/-- `5XY3` (R170). -/
def execLoadRange (x y : Reg) (s : State) : Host.Outcome State Fault Refusal :=
  .next (loadFromI s (regRange x y).length fun b => writeRegs (advance s) ((regRange x y).zip b))

/-- `FX75` (R171). -/
def execSaveFlags (x : Reg) (s : State) : Host.Outcome State Fault Refusal :=
  .next (writeFlags (advance s) ((regsUpTo x).map fun r => (r, readV s r)))

/-- `FX85` (R172). -/
def execLoadFlags (x : Reg) (s : State) : Host.Outcome State Fault Refusal :=
  .next (writeRegs (advance s) ((regsUpTo x).map fun r => (r, readFlag s r)))

end Sys2Proof.Machine
end

