-- ==== Sys2Proof/Machine/Timers.lean ====
section
/-! DEFINITION. Machine/Timers: the delay and sound timers (43_timers.md) and the timer tick (60_exceptions.md R280). -/

namespace Sys2Proof.Machine

/-- `FX07` (R190). -/
def execLdVxDT (x : Reg) (s : State) : Host.Outcome State Fault Refusal := .next (writeV (advance s) x s.cpu.dt)

/-- `FX15` (R191). -/
def execLdDTVx (x : Reg) (s : State) : Host.Outcome State Fault Refusal := .next (setDt (advance s) (readV s x))

/-- `FX18` (R192). -/
def execLdSTVx (x : Reg) (s : State) : Host.Outcome State Fault Refusal := .next (setSt (advance s) (readV s x))

/-- `CpuTickTimer()` (R193). -/
def cpuTickTimer (s : State) : State := if 0 < s.cpu.dt.toNat then setDt s (s.cpu.dt - 1) else s

/-- `AudioTickTimer()`, with whether it decremented (R194). -/
def audioTickTimer (s : State) : State × Bool :=
  if 0 < s.audio.st.toNat then (setSt s (s.audio.st - 1), true) else (s, false)

/-- `prev <- pressed` (10_state.md R35). -/
def latchKeypad (s : State) : State := { s with keypad := { s.keypad with prev := s.keypad.pressed } }

/-- `pendingVblank <- false` (R280, D11). -/
def clearPendingVblank (s : State) : State := { s with display := { s.display with pendingVblank := false } }

/-- `TimerTick()`: `DT`, `ST`, keypad latch, `pendingVblank`, in that order (60_exceptions.md R280, R276). -/
def timerTick (s : State) : State × Bool :=
  let r := audioTickTimer (cpuTickTimer s)
  (clearPendingVblank (latchKeypad r.1), r.2)

end Sys2Proof.Machine
end

