-- ==== Sys2Proof/Machine/Fetch.lean ====
section
/-! DEFINITION. Machine/Fetch: fetching and decoding the next instruction (40_flow.md R100, 30_encoding.md R80, R87).
Memory is read at each fetch, so a store is seen by the next one (20_memory.md R73). -/

namespace Sys2Proof.Machine

/-- The bytes of the instruction at `PC`: one word, or two when the first is `0xF000`. The second word is at the
advanced, wrapped `PC` (R100, 42_index_memory.md R161). -/
def fetchBytes (s : State) : Except Fault (List Byte) :=
  match fetchWord s s.cpu.pc with
  | .error f => .error f
  | .ok w =>
    if isLong w then
      match fetchWord s (s.cpu.pc + 2) with
      | .error f => .error f
      | .ok w2 => .ok (wordBytes [w, w2])
    else .ok (wordBytes [w])

/-- The instruction at `PC`. Fetched bytes always decode (30_encoding.md R86), so the last arm is never reached
(`fetchInstr_cases` in Laws/Fetch.lean). -/
def fetchInstr (s : State) : Except Fault Instr :=
  match fetchBytes s with
  | .error f => .error f
  | .ok bs =>
    match decode bs with
    | .ok (i, _) => .ok i
    | .error _ => .error (.fetchOutOfRange s.cpu.pc.toNat)

/-- Store bytes where they all fit into the memory, and nothing where they do not. -/
def writeIfFits (m : Memory) (a : Nat) (bs : List Byte) : Memory :=
  if a + bs.length ≤ memSize then m.writeBytes a bs else m

/-- Store four bytes where the two words of the next instruction are fetched: at `PC` and the byte after it, and at
`PC + 2`, which wraps at 16 bits, and the byte after it. A word that would cross the end of memory cannot be fetched
and is not stored. -/
def storeAtPc (s : State) (bs : List Byte) : Memory :=
  writeIfFits (writeIfFits s.mem s.cpu.pc.toNat (bs.take 2)) (s.cpu.pc + 2).toNat (bs.drop 2)

end Sys2Proof.Machine
end

