-- ==== Sys2Proof/Machine/Step.lean ====
section
/-! DEFINITION. Machine/Step: one CPU step (40_flow.md R100), which is also the host's `step` (60_exceptions.md R286):
no `Q.vblank` gate, no timer tick, no `poll` (log 14). -/

namespace Sys2Proof.Machine

/-- `CpuStep()`: nothing unless `Running`; else fetch and execute, or take the fault of the fetch (R100, R272). -/
def step (s : State) : Host.Outcome State Fault Refusal :=
  if s.status = .running then
    match fetchInstr s with
    | .error f => .next (takeFault f s)
    | .ok i => exec i s
  else .next s

/-- `s` with the instruction whose bits are `w`, numbered as spec/opcode_table.json numbers them, stored where the next
step fetches, and `Running`, since only then does a step fetch (log 31). -/
def State.withFetchWord (s : State) (nbits w : Nat) : State :=
  { s with mem := storeAtPc s (tableBytes nbits w), status := .running }

end Sys2Proof.Machine
end

