-- ==== Sys2Proof/Machine/Sequencer.lean ====
section
/-! DEFINITION. Machine/Sequencer: the fixed-timestep sequencer, `run-frame` (60_exceptions.md R281 to R283). -/

namespace Sys2Proof.Machine

/-- `FrameState` (R283). -/
structure FrameState where
  dirty : Bool
  beep : Bool
  deriving DecidableEq, Repr

/-- `cycleAccum <- q`. -/
def setCycleAccum (s : State) (q : Rat) : State := { s with seq := { s.seq with cycleAccum := q } }

/-- `timerAccum <- q`. -/
def setTimerAccum (s : State) (q : Rat) : State := { s with seq := { s.seq with timerAccum := q } }

/-- The vblank stall: the CPU step of a cycle is skipped (R282). -/
def stalled (s : State) : Bool := s.quirks.vblank && s.display.pendingVblank

/-- One cycle of `run-frame` after its unit is taken: a CPU step, or nothing when stalled (R281). -/
def cycle (s : State) : Host.Outcome State Fault Refusal := if stalled s then .next s else step s

/-- `n` turns of `while cycleAccum >= 1`: each takes one unit, then runs one cycle (R281). -/
def cycleLoop (R : Reals) : Nat → State → Host.Outcome State Fault Refusal
  | 0, s => .next s
  | n + 1, s =>
    match cycle (setCycleAccum s (R.round (s.seq.cycleAccum - 1))) with
    | .next t => cycleLoop R n t
    | .fault f => .fault f
    | .refused r => .refused r

/-- `n` turns of `while timerAccum >= 1`: each takes one unit, then one timer tick; the flag is the OR of the ticks'
results (R281, R283, D12). -/
def tickLoop (R : Reals) : Nat → State → Bool → State × Bool
  | 0, s, beep => (s, beep)
  | n + 1, s, beep =>
    let r := timerTick (setTimerAccum s (R.round (s.seq.timerAccum - 1)))
    tickLoop R n r.1 (r.2 || beep)

/-- `cycleAccum + TICKRATE * TIMER_HZ * elapsed`, the product from the left, each operation rounded (R281;
`cpu_hz = TICKRATE * TIMER_HZ`, 10_state.md R28; DESIGN CHOICE, log 12). -/
def cyclesDue (R : Reals) (elapsed : Rat) (s : State) : Rat :=
  R.round (s.seq.cycleAccum + R.round (R.round (s.seq.tickrate * timerHz) * elapsed))

/-- `timerAccum + TIMER_HZ * elapsed`, each operation rounded (R281; DESIGN CHOICE, log 12). -/
def ticksDue (R : Reals) (elapsed : Rat) (s : State) : Rat :=
  R.round (s.seq.timerAccum + R.round (timerHz * elapsed))

/-- The CPU half of `run-frame`: the accumulation, then the turns of its loop, which never stops on them (R281;
`Reals.turns`, log 13). -/
def runCycles (R : Reals) (elapsed : Rat) (s : State) : Host.Outcome State Fault Refusal :=
  cycleLoop R (R.turns (cyclesDue R elapsed s)) (setCycleAccum s (cyclesDue R elapsed s))

/-- The timer half of `run-frame`, in the same way (R281). -/
def runTicks (R : Reals) (elapsed : Rat) (s : State) : State × Bool :=
  tickLoop R (R.turns (ticksDue R elapsed s)) (setTimerAccum s (ticksDue R elapsed s)) false

/-- `RunFrame(elapsed)`: all CPU steps, then all timer ticks, then one `poll` (R281, R276). -/
def runFrame (R : Reals) (elapsed : Rat) (s : State) : Host.Outcome (State × FrameState) Fault Refusal :=
  match runCycles R elapsed s with
  | .fault f => .fault f
  | .refused r => .refused r
  | .next t =>
    let r := runTicks R elapsed t
    .next ((poll r.1).1, { dirty := (poll r.1).2, beep := r.2 })

end Sys2Proof.Machine
end

