-- ==== Sys2Proof/Machine/HostOps.lean ====
section
/-! DEFINITION. Machine/HostOps: the host interface (60_exceptions.md R284): every operation is one atomic transaction on
the state, and answers the host. -/

namespace Sys2Proof.Machine

/-! ### `load` (70_reset_and_hazards.md R310, 60_exceptions.md R274) -/

/-- The `platform` argument of `load`: one of the three, none given, or an identifier that is none of them (R310, D58). -/
inductive PlatformArg where
  | named (p : Platform)
  | unspecified
  | unknown
  deriving DecidableEq, Repr

/-- The platform an argument stands for, if any (R310). -/
def PlatformArg.resolve : PlatformArg → Option Platform
  | .named p => some p
  | .unspecified => some Config.defaultPlatform
  | .unknown => none

/-- The image fits: `LOAD_ADDR + len(rom) <= MEM_SIZE` (R274, 20_memory.md R75). -/
def romFits (rom : List Byte) : Bool := loadAddr.toNat + rom.length ≤ memSize

/-- `Load(rom, platform)` with any preset table (R30, R310): the checks come first, so a failed load changes nothing
(R274). The random source is kept: it is no state of the block (10_state.md R39, log 11). -/
def load (presets : Platform → Preset) (rom : List Byte) (p : PlatformArg) (s : State) : State × Bool :=
  if romFits rom then
    match p.resolve with
    | none => (s, false)
    | some q =>
      let fresh := State.powerOn (presets q) s.rand
      ({ fresh with mem := fresh.mem.writeBytes loadAddr.toNat rom }, true)
  else (s, false)

/-! ### Keys and configuration (60_exceptions.md R285, R287) -/

/-- `pressed[k] <- b`. -/
def setPressed (s : State) (k : Fin 16) (b : Bool) : State :=
  { s with keypad := { s.keypad with pressed := s.keypad.pressed.set k.val b } }

/-- `Q <- q`, the whole bundle (R287). -/
def setQuirks (s : State) (q : Quirks) : State := { s with quirks := q }

/-- `TICKRATE <- t` (R287). -/
def setTickrate (s : State) (t : Rat) : State := { s with seq := { s.seq with tickrate := t } }

/-! ### Introspection (60_exceptions.md R288) -/

/-- One `{pc, opcode, mnemonic}` tuple. The mnemonic's text is outside the block (00_scope.md R4); the decoded
instruction stands for it (log 28). -/
structure PeekEntry where
  pc : Word
  opcode : Word
  instr : Instr
  deriving DecidableEq, Repr

/-- A copy of the whole state, whose random draws are its own (R288; log 28). -/
def peekCopy (stream : Nat) (s : State) : State := { s with rand := { stream := s.rand.stream + stream + 1, index := 0 } }

/-- The tuple for the next instruction of a state, if one can be fetched. -/
def peekEntry (s : State) : Option PeekEntry :=
  match fetchWord s s.cpu.pc, fetchInstr s with
  | .ok w, .ok i => some { pc := s.cpu.pc, opcode := w, instr := i }
  | _, _ => none

/-- Run CPU steps on a copy and list the tuples, up to `n` of them, while the copy is `Running` (R288). -/
def peekRun : Nat → State → List PeekEntry
  | 0, _ => []
  | n + 1, s =>
    if s.status = .running then
      match peekEntry s with
      | none => []
      | some e =>
        match step s with
        | .next t => e :: peekRun n t
        | _ => [e]
    else []

/-! ### The operations -/

/-- The host operations (R284). `stream` names the draws of an introspection's copy. -/
inductive HostOp where
  | load (presets : Platform → Preset) (rom : List Byte) (platform : PlatformArg)
  | runFrame (elapsed : Rat)
  | step
  | press (k : Nat)
  | release (k : Nat)
  | setQuirks (q : Quirks)
  | setTickrate (t : Rat)
  | output (n : Nat) (sr : Rat)
  | poll
  | readRaster
  | peekNext (stream : Nat)
  | peek (n stream : Nat)
  | disassembleRom (stream : Nat)

/-- What an operation returns to the host (R284). -/
inductive Reply where
  | done
  | loaded (ok : Bool)
  | frame (f : FrameState)
  | wasDirty (d : Bool)
  | levels (l : List Level)
  | raster (planes : Raster) (hires : Bool)
  | tuples (l : List PeekEntry)
  deriving DecidableEq, Repr

/-- `pressed[k] <- b`, or a refusal for a key outside the keypad (R285, D46). -/
def keyEvent (s : State) (k : Nat) (b : Bool) : Host.Outcome (State × Reply) Fault Refusal :=
  if h : k < 16 then .next (setPressed s ⟨k, h⟩ b, .done) else .refused .keyOutsideKeypad

/-- One host operation, one atomic transaction (R284, R5). Operations other than `run-frame` advance neither
accumulator and run no timer tick (70_reset_and_hazards.md R323). -/
def hostOp (R : Reals) (op : HostOp) (s : State) : Host.Outcome (State × Reply) Fault Refusal :=
  match op with
  | .load presets rom p => let r := load presets rom p s; .next (r.1, .loaded r.2)
  | .runFrame elapsed =>
    if elapsed < 0 then .refused .negativeElapsed
    else
      match runFrame R elapsed s with
      | .next (t, f) => .next (t, .frame f)
      | .fault f => .fault f
      | .refused r => .refused r
  | .step =>
    match step s with
    | .next t => .next (t, .done)
    | .fault f => .fault f
    | .refused r => .refused r
  | .press k => keyEvent s k true
  | .release k => keyEvent s k false
  | .setQuirks q => .next (setQuirks s q, .done)
  | .setTickrate t => if t ≤ 0 then .refused .tickrateNotPositive else .next (setTickrate s t, .done)
  | .output n sr =>
    if sr ≤ 0 then .refused .sampleRateNotPositive
    else let r := output R n sr s; .next (r.1, .levels r.2)
  | .poll => let r := poll s; .next (r.1, .wasDirty r.2)
  | .readRaster => .next (s, .raster s.display.planes s.display.hires)
  | .peekNext stream => .next (s, .tuples (peekRun 1 (peekCopy stream s)))
  | .peek n stream => .next (s, .tuples (peekRun n (peekCopy stream s)))
  | .disassembleRom stream =>
    .next (s, .tuples (peekRun (Config.disassembleCount s.cpu.pc) (peekCopy stream s)))

end Sys2Proof.Machine
end

