-- ==== Sys2Proof/Safety.lean ====
section
/-! DEFINITION. Safety: the terms claims are stated in: the invariant of the machine, what a safe state is, the shapes
of effects (which parts of the state a next state may differ in), and which cells a sprite covers. -/

namespace Sys2Proof.Machine

/-! ### Invariant and safe states -/

/-- What every state the machine reaches satisfies. -/
structure Inv (s : State) : Prop where
  /-- The memory is in canonical form. -/
  memWf : s.mem.wf
  /-- `SP` counts at most `STACK_DEPTH` entries (10_state.md R24). -/
  spLe : s.cpu.sp.toNat ≤ Config.stackDepth
  /-- The slots from `STACK_DEPTH` on do not exist: they hold 0 (R24, log 3). -/
  stackAbove : ∀ k : Byte, Config.stackDepth ≤ k.toNat → stackSlot s k = 0
  /-- `TICKRATE` is positive (R28). -/
  tickratePos : 0 < s.seq.tickrate
  /-- `0 <= patPhase < 128` (R36). -/
  patPhase : 0 ≤ s.audio.patPhase.value ∧ s.audio.patPhase.value < 128
  /-- `0 <= beepPhase < 1` (R36). -/
  beepPhase : 0 ≤ s.audio.beepPhase ∧ s.audio.beepPhase < 1
  /-- The accumulators are non-negative (R37). -/
  accums : 0 ≤ s.seq.cycleAccum ∧ 0 ≤ s.seq.timerAccum
  /-- A faulted machine's `PC` is the address of the faulting instruction (60_exceptions.md R272). -/
  faultAddr : ∀ k a w, s.status = .faulted k a w → a = s.cpu.pc

/-- A safe state has not faulted; a run is safe while its states are. -/
def Unfaulted (s : State) : Prop := ∀ k a w, s.status ≠ .faulted k a w

/-- The tables of `load` give only admissible tickrates (10_state.md R28). -/
def HostOp.admissible : HostOp → Prop
  | .load presets _ _ => ∀ p, 0 < (presets p).tickrate
  | _ => True

/-! ### Encodings -/

/-- `i` is the one word whose value is `n`. -/
def Encodes (i : Instr) (n : Nat) : Prop := encode i = [BitVec.ofNat 16 n]

/-! ### Shapes of effects -/

/-- Every byte of memory reads as before. -/
def SameBytes (s t : State) : Prop := ∀ a, t.mem.read a = s.mem.read a

/-- Every byte outside `base .. base + n - 1` reads as before. -/
def SameBytesOutside (s t : State) (base n : Nat) : Prop :=
  ∀ a, (a < base ∨ base + n ≤ a) → t.mem.read a = s.mem.read a

/-- `t` is `s` with other values of `PC` at most. -/
def OnlyPc (s t : State) : Prop :=
  t = { s with cpu := { s.cpu with pc := t.cpu.pc } } ∧ SameBytes s t

/-- `t` is `s` with other values of `V` and `PC` at most. -/
def OnlyVPc (s t : State) : Prop :=
  t = { s with cpu := { s.cpu with v := t.cpu.v, pc := t.cpu.pc } } ∧ SameBytes s t

/-- `t` is `s` with other values of `V`, `I` and `PC` at most. -/
def OnlyVIPc (s t : State) : Prop :=
  t = { s with cpu := { s.cpu with v := t.cpu.v, i := t.cpu.i, pc := t.cpu.pc } } ∧ SameBytes s t

/-- `t` is `s` with other values of `I` and `PC` at most. -/
def OnlyIPc (s t : State) : Prop :=
  t = { s with cpu := { s.cpu with i := t.cpu.i, pc := t.cpu.pc } } ∧ SameBytes s t

/-- `t` is `s` with other values of `PC` and of the cells and `dirty` at most. -/
def OnlyCellsDirtyPc (s t : State) : Prop :=
  t = { s with
        cpu := { s.cpu with pc := t.cpu.pc },
        display := { s.display with planes := t.display.planes, dirty := t.display.dirty } } ∧ SameBytes s t

/-- `i` completes in `s`: it advances `PC` by 2, gives each register `k` the value `f k`, and changes nothing else. -/
def SetsRegisters (i : Instr) (s : State) (f : Reg → Byte) : Prop :=
  ∃ t, exec i s = .next t ∧ OnlyVPc s t ∧ t.cpu.pc = s.cpu.pc + 2 ∧ ∀ k, readV t k = f k

/-- `i` completes in `s`: it sets `I` to `a` and `PC` to `target`, and changes nothing else. -/
def SetsIndex (i : Instr) (s : State) (a target : Word) : Prop :=
  ∃ t, exec i s = .next t ∧ OnlyIPc s t ∧ t.cpu.i = a ∧ t.cpu.pc = target

/-- `i` completes in `s`: it moves `PC` to `target` and changes nothing else. -/
def MovesPc (i : Instr) (s : State) (target : Word) : Prop :=
  ∃ t, exec i s = .next t ∧ OnlyPc s t ∧ t.cpu.pc = target

/-- The first word of the instruction at `PC`, big-endian, or `none` where memory ends inside it (R64, R272). -/
def wordAtPc (s : State) : Option Word :=
  if s.cpu.pc.toNat + 2 ≤ 65536 then
    some (BitVec.ofNat 16 (256 * (s.mem.read s.cpu.pc.toNat).toNat + (s.mem.read (s.cpu.pc.toNat + 1)).toNat))
  else none

/-- `s` after a fault of this kind: nothing changes but `status`, which records the kind, the address of the
instruction and its first word (60_exceptions.md R272). -/
def afterFault (s : State) (kind : Fault) : State := { s with status := .faulted kind s.cpu.pc (wordAtPc s) }

/-- `i` faults in `s` (R272). -/
def Faults (i : Instr) (s : State) (kind : Fault) : Prop := exec i s = .next (afterFault s kind)

/-- `i` is a skip in `s` with condition `c`: without it `PC` moves by 2; with it, past the next instruction, which is 4
bytes long if it starts with the word `0xF000` and 2 bytes otherwise, or the look-ahead at 0xFFFF faults
(40_flow.md R102). -/
def SkipsIf (i : Instr) (s : State) (c : Prop) : Prop :=
  (¬c → MovesPc i s (s.cpu.pc + 2)) ∧
  (c → s.cpu.pc + 2 ≠ 0xFFFF →
    MovesPc i s (s.cpu.pc + 2 +
      if s.mem.read (s.cpu.pc + 2).toNat = 0xF0 ∧ s.mem.read ((s.cpu.pc + 2).toNat + 1) = 0x00 then 4 else 2)) ∧
  (c → s.cpu.pc + 2 = 0xFFFF → Faults i s (.fetchOutOfRange 0xFFFF))

/-- `i` completes in `s` by storing `bytes` at `base`: `PC` advances by 2, `I` becomes `a`, every stored byte reads
back, and every other byte and everything else is unchanged. -/
def StoresBytes (i : Instr) (s : State) (base : Nat) (bytes : List Byte) (a : Word) : Prop :=
  ∃ t, exec i s = .next t ∧
    t = { s with cpu := { s.cpu with i := t.cpu.i, pc := t.cpu.pc }, mem := t.mem } ∧
    t.cpu.pc = s.cpu.pc + 2 ∧ t.cpu.i = a ∧
    (∀ k (h : k < bytes.length), t.mem.read (base + k) = bytes[k]) ∧
    SameBytesOutside s t base bytes.length

/-- `i` completes in `s` on the selected planes: the cells of an unselected plane are unchanged, those of a selected
plane `p` become `f p`; `dirty` is set, `PC` advances by 2, and nothing else changes. -/
def RedrawsSelected (i : Instr) (s : State) (f : Fin 4 → Fin 64 → Fin 128 → Bool) : Prop :=
  ∃ t, exec i s = .next t ∧ OnlyCellsDirtyPc s t ∧ t.cpu.pc = s.cpu.pc + 2 ∧ t.display.dirty = true ∧
    ∀ p r c, cell t.display.planes p r c =
      if s.display.planeMask.getLsbD p.val then f p r c else cell s.display.planes p r c

/-- The write-back of `I` after `FX55` and `FX65` (42_index_memory.md R166). -/
def indexAfterBlock (s : State) (x : Reg) : Word :=
  if s.quirks.memLeaveI then s.cpu.i
  else if s.quirks.memIncX then BitVec.ofNat 16 (s.cpu.i.toNat + x.val)
  else BitVec.ofNat 16 (s.cpu.i.toNat + x.val + 1)

/-- The inclusive register range of `5XY2` and `5XY3` has `abs(X - Y) + 1` entries (42_index_memory.md R169). -/
def rangeLength (x y : Reg) : Nat := (x.val - y.val) + (y.val - x.val) + 1

/-- Entry `k` of that range: `X + k` when `X <= Y`, else `X - k` (R169). -/
def rangeEntry (x y : Reg) (k : Nat) : Nat := if x.val ≤ y.val then x.val + k else x.val - k

/-! ### Sprites -/

/-- Cell (`r`, `c`) belongs to logical pixel (`lx`, `ly`) (44_display.md R200). -/
def CellOf (hires : Bool) (lx ly : Nat) (r : Fin 64) (c : Fin 128) : Prop :=
  if hires then r.val = ly ∧ c.val = lx else r.val / 2 = ly ∧ c.val / 2 = lx

/-- Bit `7 - i mod 8` of byte `k * h * bpr + j * bpr + i / 8` of the sprite is set: column `i` of row `j` in the block of
the `k`-th selected plane, with `bpr` 2 for the 16 x 16 sprite and 1 for the others (R211, R212). -/
def BitSet (bytes : List Byte) (n : Fin 16) (k j i : Nat) : Prop :=
  (bytes.getD (if n.val = 0 then k * 32 + j * 2 + i / 8 else k * n.val + j + i / 8) 0).toNat / 2 ^ (7 - i % 8) % 2 = 1

/-- `LW`, the width of the logical grid, is 128 in high resolution and 64 in low (R200). -/
def gridWidth (d : Display) : Nat := if d.hires = true then 128 else 64

/-- `LH`, the height of the logical grid, is 64 in high resolution and 32 in low (R200). -/
def gridHeight (d : Display) : Nat := if d.hires = true then 64 else 32

/-- The draw wraps: the switch is on, or the origin is outside the logical grid (R213). -/
def Wraps (d : Display) (wrap : Bool) (x y : Nat) : Prop := wrap = true ∨ gridWidth d ≤ x ∨ gridHeight d ≤ y

/-- The sprite pixel at (`px`, `py`) lands on logical pixel (`lx`, `ly`): each coordinate modulo the logical size where
the draw wraps, and itself where it does not; then a pixel past the right or bottom edge lands nowhere (R213). -/
def LandsOn (d : Display) (wrap : Bool) (x y px py lx ly : Nat) : Prop :=
  (Wraps d wrap x y → lx = px % gridWidth d ∧ ly = py % gridHeight d) ∧
  (¬ Wraps d wrap x y → lx = px ∧ ly = py ∧ px < gridWidth d ∧ py < gridHeight d)

/-- The rank of plane `p` among the selected planes, counted from 0 (R201, R212). -/
def planeRank (d : Display) (p : Fin 4) : Nat := (List.range p.val).countP d.planeMask.getLsbD

/-- A set bit of the sprite, in row `j` and column `i` of the block of the selected plane `p`, lands on a logical pixel
that cell (`r`, `c`) belongs to (R211 to R214). -/
def SpriteCovers (d : Display) (bytes : List Byte) (n : Fin 16) (wrap : Bool) (x y : Nat)
    (p : Fin 4) (r : Fin 64) (c : Fin 128) : Prop :=
  d.planeMask.getLsbD p.val = true ∧
  ∃ j i, j < (if n.val = 0 then 16 else n.val) ∧ i < (if n.val = 0 then 16 else 8) ∧
    BitSet bytes n (planeRank d p) j i ∧
    ∃ lx ly, LandsOn d wrap x y (x + i) (y + j) lx ly ∧ CellOf d.hires lx ly r c

/-- The set bits of a sprite, as (selected plane, row, column) (R212). -/
def SetBits (d : Display) (bytes : List Byte) (n : Fin 16) : Set (Fin 4 × Nat × Nat) :=
  { b | d.planeMask.getLsbD b.1.val = true ∧ b.2.1 < (if n.val = 0 then 16 else n.val) ∧
      b.2.2 < (if n.val = 0 then 16 else 8) ∧ BitSet bytes n (planeRank d b.1) b.2.1 b.2.2 }

/-- The set bits of a sprite that are not clipped (R213). -/
def UnclippedBits (d : Display) (bytes : List Byte) (n : Fin 16) (wrap : Bool) (x y : Nat) :
    Set (Fin 4 × Nat × Nat) :=
  { b ∈ SetBits d bytes n | Wraps d wrap x y ∨ (x + b.2.2 < gridWidth d ∧ y + b.2.1 < gridHeight d) }

end Sys2Proof.Machine
end

