-- ==== Sys2Proof/Certificates/Slice0/Obligations.lean ====
section
/-! DEFINITION. Certificates/Slice0/Obligations: the statements for the provers, from the numbered rules of spec/. Each
holds for every state unless it names a premise; the OPEN parameters have no body, so each holds for every value of
them. Where a rule is the spec's own decision, or is marked by it as general knowledge, the docstring names the
decision or the log entry; the opcodes whose whole rule the spec takes from general knowledge stand in log 26. -/

open Sys2Proof Sys2Proof.Machine

/-! ## Encoding -/

/-- Every well-formed instruction is read back from its bytes, whatever follows them (30_encoding.md R80, R81, R84). -/
def Obligations.DecodingAnEncodedInstructionGivesItBack : Prop :=
  ∀ (i : Instr) (rest : List Byte), i.wellFormed = true → decode (encodeBytes i ++ rest) = .ok (i, rest)

/-- What is decoded is well formed, and its encoding is exactly the bytes it was read from: no bit of a word is
dropped, and the no-op words are exactly those of R86. -/
def Obligations.EncodingADecodedInstructionGivesItsBytes : Prop :=
  ∀ (bs rest : List Byte) (i : Instr), decode bs = .ok (i, rest) → i.wellFormed = true ∧ bs = encodeBytes i ++ rest

/-- R85: a word selects the unique listed pattern it matches, and its family's no-op only if it matches none; two listed
patterns differ in a bit both masks cover. Decoding takes no state, so no opcode depends on the platform. -/
def Obligations.EachWordSelectsItsUniqueRow : Prop :=
  listedPatterns.Pairwise (fun p q => p.mask &&& q.mask &&& (p.value ^^^ q.value) ≠ 0) ∧
  ∀ (hi lo : Byte) (rest rest' : List Byte) (i : Instr), decode (hi :: lo :: rest) = .ok (i, rest') →
    i.pattern.holds (joinBytes hi lo) ∧
    (∀ p ∈ listedPatterns, p.holds (joinBytes hi lo) → p = i.pattern) ∧
    (i.isNoop = true ↔ ∀ p ∈ listedPatterns, ¬ p.holds (joinBytes hi lo))

/-- The first word alone tells the length: 4 bytes for `0xF000`, 2 bytes for any other word, and every word decodes
(R80, R86, R87). -/
def Obligations.FirstWordTellsTheLength : Prop :=
  ∀ (hi lo : Byte) (rest : List Byte),
    (¬(hi = 0xF0 ∧ lo = 0x00) → ∃ i, decode (hi :: lo :: rest) = .ok (i, rest)) ∧
    (hi = 0xF0 ∧ lo = 0x00 → ∀ hi2 lo2 : Byte,
      decode (hi :: lo :: hi2 :: lo2 :: rest) =
        .ok (.ldILong (BitVec.ofNat 16 (256 * hi2.toNat + lo2.toNat)), rest))

/-- A few words written out from the encodings of R84. -/
def Obligations.SampleWordsDecodeAsTheMapSays : Prop :=
  decode [0x61, 0x02] = .ok (.ldImm 1 0x02, []) ∧
  decode [0x81, 0x2E] = .ok (.shl 1 2, []) ∧
  decode [0x00, 0xD2] = .ok (.scu 2, []) ∧
  decode [0xD0, 0x11] = .ok (.drw 0 1 1, []) ∧
  decode [0xF2, 0x65] = .ok (.loadRegs 2, []) ∧
  decode [0xF0, 0x00, 0x12, 0x34] = .ok (.ldILong 0x1234, []) ∧
  decode [0x01, 0x23] = .ok (.noop0 0x123, [])

/-! ## Fetch and step -/

/-- `Fetch(a)` is the big-endian word at `a`, at any address, odd or even, and faults exactly at 0xFFFF. A step whose
first word stands at 0xFFFF, or whose second word would, takes that fault (20_memory.md R64 to R66; 60_exceptions.md
R272). That the end of memory is a fault is the spec's decision D6 (log 16). -/
def Obligations.FetchReadsABigEndianWord : Prop :=
  ∀ (s : State) (a : Word),
    (a ≠ 0xFFFF → fetchWord s a =
      .ok (BitVec.ofNat 16 (256 * (s.mem.read a.toNat).toNat + (s.mem.read (a.toNat + 1)).toNat))) ∧
    (a = 0xFFFF → fetchWord s a = .error (.fetchOutOfRange 0xFFFF)) ∧
    (s.status = .running → s.cpu.pc = 0xFFFF →
      step s = .next { s with status := .faulted (.fetchOutOfRange 0xFFFF) 0xFFFF none }) ∧
    (s.status = .running → s.cpu.pc = 0xFFFD → s.mem.read 0xFFFD = 0xF0 → s.mem.read 0xFFFE = 0x00 →
      step s = .next { s with status := .faulted (.fetchOutOfRange 0xFFFF) 0xFFFD (some 0xF000) })

/-- A step of a running machine is `exec` of the instruction whose words stand at `PC` (and at `PC + 2`, wrapped, for
the second word); nothing is added around it: the fetch advance is part of each meaning (40_flow.md R100, R101; log
1). -/
def Obligations.AStepRunsTheDecodedInstruction : Prop :=
  ∀ (s : State) (i : Instr), s.status = .running → i.wellFormed = true →
    (∀ w, encode i = [w] → fetchWord s s.cpu.pc = .ok w → step s = exec i s) ∧
    (∀ w n, encode i = [w, n] → fetchWord s s.cpu.pc = .ok w → fetchWord s (s.cpu.pc + 2) = .ok n →
      step s = exec i s)

/-- A machine that is not running takes no CPU step, however often it is stepped (R272, R273). -/
def Obligations.AStoppedMachineStaysAsItIs : Prop :=
  ∀ (n : Nat) (s : State), s.status ≠ .running → core.run n s = .next s

/-- Every CPU step of every state answers a next state: no encoding traps and no step is refused (R86, R270, R279). -/
def Obligations.EveryStepAnswersANextState : Prop := ∀ s : State, ∃ t, step s = .next t

/-- A fault is precise: when a step of a running machine ends faulted, all state is as before the step but `status`,
which holds the address of the instruction and its first word, or none (60_exceptions.md R272, with its decision D57;
log 2, 30). -/
def Obligations.AFaultVoidsTheWholeStep : Prop :=
  ∀ s t : State, s.status = .running → step s = .next t → ¬ Unfaulted t →
    ∃ kind, t = { s with status := .faulted kind s.cpu.pc (wordAtPc s) }

/-- Nothing but the conditions of R271 faults: a fault's kind tells the instruction that raised it and why
(60_exceptions.md R271). That these conditions are faults is the spec's decision D5, D6, D8, D9 (log 2, 16, 17). -/
def Obligations.OnlyTheListedConditionsFault : Prop :=
  ∀ (i : Instr) (s t : State) (kind : Fault) (a : Word) (w : Option Word), s.status = .running →
    exec i s = .next t → t.status = .faulted kind a w →
    match kind with
    | .fetchOutOfRange b => b = 0xFFFF ∧ s.cpu.pc + 2 = 0xFFFF ∧
        ((∃ x nn, i = .seImm x nn) ∨ (∃ x nn, i = .sneImm x nn) ∨ (∃ x y, i = .seReg x y) ∨
          (∃ x y, i = .sneReg x y) ∨ (∃ x, i = .skp x) ∨ (∃ x, i = .sknp x))
    | .memOutOfRange b => b = s.cpu.i.toNat ∧
        ((∃ x, i = .audio x ∧ 65536 < b + 16) ∨ (∃ x, i = .ldB x ∧ 65536 < b + 3) ∨
          (∃ x, (i = .storeRegs x ∨ i = .loadRegs x) ∧ 65536 < b + x.val + 1) ∨
          (∃ x y, (i = .saveRange x y ∨ i = .loadRange x y) ∧ 65536 < b + rangeLength x y) ∨
          (∃ x y n, i = .drw x y n ∧ s.display.planeMask ≠ 0 ∧
            65536 < b + (spriteShape n).len * (sel s.display).length))
    | .stackOverflow => (∃ nnn, i = .call nnn) ∧ s.cpu.sp.toNat = Config.stackDepth
    | .stackUnderflow => i = .ret ∧ s.cpu.sp = 0
    | .keyIndexOutOfRange k => 15 < k ∧ ∃ x, (i = .skp x ∨ i = .sknp x) ∧ k = (readV s x).toNat

/-! ## Frames over all instructions -/

/-- A general register changes only where the instruction's rule writes it: `VF` only as the listed side effects
(10_state.md R20, R21). -/
def Obligations.RegistersChangeOnlyAtDestinations : Prop :=
  ∀ (i : Instr) (s t : State) (k : Reg), exec i s = .next t →
    (match i with
      | .ldImm x _ | .addImm x _ | .ldReg x _ | .rnd x _ | .ldVxDT x | .ldVxK x => k ≠ x
      | .orReg x _ | .andReg x _ | .xorReg x _ => k ≠ x ∧ (s.quirks.vfReset = true → k ≠ vf)
      | .addReg x _ | .subReg x _ | .subnReg x _ | .shr x _ | .shl x _ => k ≠ x ∧ k ≠ vf
      | .drw _ _ _ => k ≠ vf
      | .loadRegs x | .loadFlags x => x < k
      | .loadRange x y => (k < x ∧ k < y) ∨ (x < k ∧ y < k)
      | _ => True) →
    readV t k = readV s k

/-- A byte of memory changes only where `FX33`, `FX55` or `5XY2` stores it (20_memory.md R67). -/
def Obligations.MemoryChangesOnlyWhereStored : Prop :=
  ∀ (i : Instr) (s t : State) (a : Nat), exec i s = .next t →
    (match i with
      | .ldB _ => a < s.cpu.i.toNat ∨ s.cpu.i.toNat + 3 ≤ a
      | .storeRegs x => a < s.cpu.i.toNat ∨ s.cpu.i.toNat + x.val + 1 ≤ a
      | .saveRange x y => a < s.cpu.i.toNat ∨ s.cpu.i.toNat + rangeLength x y ≤ a
      | _ => True) →
    t.mem.read a = s.mem.read a

/-- Every other register of the block is written only by the instructions whose rules write it: `I` (10_state.md R22), the
stack (R24), `DT` (R25), `ST` (R26), the flags file (R27), the raster state (44_display.md R202 to R216) and the audio
state (R36); and only `00FD` halts the machine (10_state.md R38, 40_flow.md R104). That a resolution switch and `FX01`
change no cell and not `dirty` is the spec's decisions D20 and D42 (log 22). -/
def Obligations.SpecialStateIsWrittenOnlyByItsInstructions : Prop :=
  ∀ (i : Instr) (s t : State), exec i s = .next t →
    (t.cpu.i ≠ s.cpu.i → match i with
      | .ldI _ | .ldILong _ | .addI _ | .ldF _ | .ldHF _ | .storeRegs _ | .loadRegs _ => True
      | _ => False) ∧
    (t.cpu.sp ≠ s.cpu.sp → i = .ret ∨ ∃ nnn, i = .call nnn) ∧
    (t.cpu.stack ≠ s.cpu.stack → ∃ nnn, i = .call nnn) ∧
    (t.cpu.dt ≠ s.cpu.dt → ∃ x, i = .ldDTVx x) ∧
    (t.audio.st ≠ s.audio.st → ∃ x, i = .ldSTVx x) ∧
    (t.cpu.flags ≠ s.cpu.flags → ∃ x, i = .saveFlags x) ∧
    (t.display.planes ≠ s.display.planes ∨ t.display.dirty ≠ s.display.dirty → match i with
      | .cls | .scd _ | .scu _ | .scr | .scl | .drw _ _ _ => True
      | _ => False) ∧
    (t.display.pendingVblank ≠ s.display.pendingVblank → ∃ x y n, i = .drw x y n) ∧
    (t.display.hires ≠ s.display.hires → i = .low ∨ i = .high) ∧
    (t.display.planeMask ≠ s.display.planeMask → ∃ m, i = .plane m) ∧
    (t.audio.pattern ≠ s.audio.pattern → ∃ x, i = .audio x) ∧
    (t.audio.pitch ≠ s.audio.pitch → ∃ x, i = .pitch x) ∧
    (t.audio.mode ≠ s.audio.mode → (∃ x, i = .audio x) ∨ ∃ x, i = .pitch x) ∧
    (t.status = .halted → s.status = .halted ∨ i = .exit)

/-- No CPU step writes what only the host writes: the quirk bundle (R29), the tickrate (R28), the keypad (R35), the
accumulators (R37) and the phases (R36). -/
def Obligations.NoStepWritesWhatTheHostOwns : Prop :=
  ∀ s t : State, step s = .next t →
    t.quirks = s.quirks ∧ t.seq = s.seq ∧ t.keypad = s.keypad ∧
    t.audio.patPhase = s.audio.patPhase ∧ t.audio.beepPhase = s.audio.beepPhase

/-! ## Register arithmetic and logic -/

/-- `6XNN` (41_alu.md R131): the register gets the immediate, with `X = F` too, and nothing else changes. -/
def Obligations.LoadImmediateSetsTheRegister : Prop :=
  ∀ (s : State) (x : Reg) (nn : Byte),
    Encodes (.ldImm x nn) (0x6000 + 256 * x.val + nn.toNat) ∧
    SetsRegisters (.ldImm x nn) s fun k => if k = x then nn else readV s k

/-- `7XNN` and `8XY0`: the sum modulo 256 or the other register, with no flag. `8XY1`, `8XY2`, `8XY3`: the bitwise
result, then `VF` cleared under `Q.vfReset` and untouched otherwise (41_alu.md R132 to R136). That `VF` is cleared after the
result is stored is also the spec's decision D48 (log 20). -/
def Obligations.CopyAddImmediateAndLogicSetTheRegister : Prop :=
  ∀ (s : State) (x y : Reg) (nn : Byte),
    (Encodes (.addImm x nn) (0x7000 + 256 * x.val + nn.toNat) ∧
      SetsRegisters (.addImm x nn) s fun k =>
        if k = x then BitVec.ofNat 8 (((readV s x).toNat + nn.toNat) % 256) else readV s k) ∧
    (Encodes (.ldReg x y) (0x8000 + 256 * x.val + 16 * y.val) ∧
      SetsRegisters (.ldReg x y) s fun k => if k = x then readV s y else readV s k) ∧
    (Encodes (.orReg x y) (0x8001 + 256 * x.val + 16 * y.val) ∧
      SetsRegisters (.orReg x y) s fun k =>
        if k = 15 ∧ s.quirks.vfReset = true then 0 else if k = x then readV s x ||| readV s y else readV s k) ∧
    (Encodes (.andReg x y) (0x8002 + 256 * x.val + 16 * y.val) ∧
      SetsRegisters (.andReg x y) s fun k =>
        if k = 15 ∧ s.quirks.vfReset = true then 0 else if k = x then readV s x &&& readV s y else readV s k) ∧
    (Encodes (.xorReg x y) (0x8003 + 256 * x.val + 16 * y.val) ∧
      SetsRegisters (.xorReg x y) s fun k =>
        if k = 15 ∧ s.quirks.vfReset = true then 0 else if k = x then readV s x ^^^ readV s y else readV s k)

/-- `8XY4`, `8XY5` and `8XY7`: the sum or difference modulo 256 in `V[X]`, then the carry, or 1 for no borrow, in `VF`,
which wins when `X = F`; the old `VF` is the operand when `Y = F` (41_alu.md R130, R137, R138, R140, R143). The polarity
of the flag is the spec's decision D32 (log 19). -/
def Obligations.AddAndSubtractWriteTheFlagLast : Prop :=
  ∀ (s : State) (x y : Reg),
    (Encodes (.addReg x y) (0x8004 + 256 * x.val + 16 * y.val) ∧
      SetsRegisters (.addReg x y) s fun k =>
        if k = 15 then (if 255 < (readV s x).toNat + (readV s y).toNat then 1 else 0)
        else if k = x then BitVec.ofNat 8 (((readV s x).toNat + (readV s y).toNat) % 256)
        else readV s k) ∧
    (Encodes (.subReg x y) (0x8005 + 256 * x.val + 16 * y.val) ∧
      SetsRegisters (.subReg x y) s fun k =>
        if k = 15 then (if (readV s y).toNat ≤ (readV s x).toNat then 1 else 0)
        else if k = x then BitVec.ofNat 8 (((readV s x).toNat + 256 - (readV s y).toNat) % 256)
        else readV s k) ∧
    (Encodes (.subnReg x y) (0x8007 + 256 * x.val + 16 * y.val) ∧
      SetsRegisters (.subnReg x y) s fun k =>
        if k = 15 then (if (readV s x).toNat ≤ (readV s y).toNat then 1 else 0)
        else if k = x then BitVec.ofNat 8 (((readV s y).toNat + 256 - (readV s x).toNat) % 256)
        else readV s k)

/-- `8XY6` and `8XYE`: the source is `V[X]` under `Q.shift` and `V[Y]` otherwise; the bit shifted out of the source goes
to `VF` last (41_alu.md R139, R141, R130). The order is the spec's decision D48 (log 20). -/
def Obligations.ShiftsMoveTheQuirkSourceByOne : Prop :=
  ∀ (s : State) (x y : Reg), ∀ src, src = (if s.quirks.shift = true then readV s x else readV s y) →
    (Encodes (.shr x y) (0x8006 + 256 * x.val + 16 * y.val) ∧
      SetsRegisters (.shr x y) s fun k =>
        if k = 15 then BitVec.ofNat 8 (src.toNat % 2)
        else if k = x then BitVec.ofNat 8 (src.toNat / 2) else readV s k) ∧
    (Encodes (.shl x y) (0x800E + 256 * x.val + 16 * y.val) ∧
      SetsRegisters (.shl x y) s fun k =>
        if k = 15 then BitVec.ofNat 8 (src.toNat / 128)
        else if k = x then BitVec.ofNat 8 (src.toNat * 2 % 256) else readV s k)

/-- `CXNN`: the register gets the next byte of the oracle masked by `NN`, whatever that byte is; the oracle moves to its
next draw (R142; the oracle's bytes have no value in the model, log 11). -/
def Obligations.RandomByteIsMasked : Prop :=
  ∀ (s : State) (x : Reg) (nn : Byte),
    Encodes (.rnd x nn) (0xC000 + 256 * x.val + nn.toNat) ∧
    ∃ t, exec (.rnd x nn) s = .next t ∧
      t = { s with
            cpu := { s.cpu with v := t.cpu.v, pc := t.cpu.pc },
            rand := { s.rand with index := s.rand.index + 1 } } ∧
      SameBytes s t ∧ t.cpu.pc = s.cpu.pc + 2 ∧
      (∀ k, readV t k =
        if k = x then Config.randByte s.rand.stream s.rand.index &&& nn else readV s k) ∧
      (nn = 0 → readV t x = 0)

/-- The six no-op rows change nothing but `PC`, by the fetch advance (40_flow.md R115, R116; 41_alu.md R144). -/
def Obligations.NoOpRowsOnlyAdvance : Prop :=
  ∀ (s : State) (nnn : BitVec 12) (x y n : Fin 16) (nn : Byte),
    (Encodes (.noop0 nnn) nnn.toNat ∧ MovesPc (.noop0 nnn) s (s.cpu.pc + 2)) ∧
    (Encodes (.noop5 x y n) (0x5000 + 256 * x.val + 16 * y.val + n.val) ∧
      MovesPc (.noop5 x y n) s (s.cpu.pc + 2)) ∧
    (Encodes (.noop8 x y n) (0x8000 + 256 * x.val + 16 * y.val + n.val) ∧
      MovesPc (.noop8 x y n) s (s.cpu.pc + 2)) ∧
    (Encodes (.noop9 x y n) (0x9000 + 256 * x.val + 16 * y.val + n.val) ∧
      MovesPc (.noop9 x y n) s (s.cpu.pc + 2)) ∧
    (Encodes (.noopE x nn) (0xE000 + 256 * x.val + nn.toNat) ∧ MovesPc (.noopE x nn) s (s.cpu.pc + 2)) ∧
    (Encodes (.noopF x nn) (0xF000 + 256 * x.val + nn.toNat) ∧ MovesPc (.noopF x nn) s (s.cpu.pc + 2))

/-! ## Control transfer -/

/-- `1NNN` and `BNNN`: the target, and the target plus the offset register, which is `V[X]`, `X` the top nibble of
`NNN`, under `Q.jump` and `V0` otherwise; the sum is not reduced to 12 bits (40_flow.md R105, R107). That `X` comes
from `NNN` is the spec's decision D44 (log 27). -/
def Obligations.JumpsGoToTheirTargets : Prop :=
  ∀ (s : State) (nnn : BitVec 12),
    (Encodes (.jp nnn) (0x1000 + nnn.toNat) ∧ MovesPc (.jp nnn) s (BitVec.ofNat 16 nnn.toNat)) ∧
    ∀ x : Reg, x.val = nnn.toNat / 256 →
      Encodes (.jpV0 nnn) (0xB000 + nnn.toNat) ∧
      MovesPc (.jpV0 nnn) s (BitVec.ofNat 16
        (nnn.toNat + (if s.quirks.jump = true then readV s x else readV s 0).toNat))

/-- `2NNN`: push the already advanced `PC`, then jump; with a full stack, the fault (40_flow.md R106, with its decisions
D7, D8, D45; log 3). `STACK_DEPTH` has no value in the model. -/
def Obligations.CallPushesTheReturnAddress : Prop :=
  ∀ (s : State) (nnn : BitVec 12),
    Encodes (.call nnn) (0x2000 + nnn.toNat) ∧
    (s.cpu.sp.toNat ≠ Config.stackDepth → ∃ t, exec (.call nnn) s = .next t ∧
      t = { s with cpu := { s.cpu with sp := t.cpu.sp, stack := t.cpu.stack, pc := t.cpu.pc } } ∧ SameBytes s t ∧
      t.cpu.sp = s.cpu.sp + 1 ∧ t.cpu.pc = BitVec.ofNat 16 nnn.toNat ∧
      ∀ k, stackSlot t k = if k = s.cpu.sp then s.cpu.pc + 2 else stackSlot s k) ∧
    (s.cpu.sp.toNat = Config.stackDepth → Faults (.call nnn) s .stackOverflow)

/-- `00EE`: pop into `PC`; the slot keeps its value; with an empty stack, the fault (40_flow.md R103, with its
decision D8). -/
def Obligations.ReturnPopsTheTopEntry : Prop :=
  ∀ s : State,
    Encodes .ret 0x00EE ∧
    (s.cpu.sp ≠ 0 → ∃ t, exec .ret s = .next t ∧
      t = { s with cpu := { s.cpu with sp := t.cpu.sp, pc := t.cpu.pc } } ∧ SameBytes s t ∧
      t.cpu.sp.toNat + 1 = s.cpu.sp.toNat ∧ t.cpu.pc = stackSlot s t.cpu.sp ∧
      ∀ k, stackSlot t k = stackSlot s k) ∧
    (s.cpu.sp = 0 → Faults .ret s .stackUnderflow)

/-- A return undoes a call: after a call from below a full stack and the matching return, `PC` is past the call, `SP` is
back and every register is as before (40_flow.md R103, R106, decision D45). -/
def Obligations.ReturnUndoesACall : Prop :=
  ∀ (s : State) (nnn : BitVec 12), s.cpu.sp.toNat < Config.stackDepth →
    ∃ t u, exec (.call nnn) s = .next t ∧ exec .ret t = .next u ∧
      u.cpu.pc = s.cpu.pc + 2 ∧ u.cpu.sp = s.cpu.sp ∧ u.cpu.v = s.cpu.v ∧ u.cpu.i = s.cpu.i ∧ SameBytes s u

/-- `00FD`: under `EXIT_MODE = Halt` the machine halts, under `NoOp` nothing but the advance happens (40_flow.md R104,
with its decision D26; log 4). The parameter has no value in the model. -/
def Obligations.ExitHaltsUnderHaltAndIsANoOpOtherwise : Prop :=
  ∀ s : State, Encodes .exit 0x00FD ∧
    ∃ t, exec .exit s = .next t ∧
      t = { s with cpu := { s.cpu with pc := s.cpu.pc + 2 }, status := t.status } ∧ SameBytes s t ∧
      t.status = (if Config.exitMode = .halt then .halted else s.status)

/-- `3XNN`, `4XNN`, `5XY0`, `9XY0` skip the next instruction exactly when their condition holds, four bytes if it is the
long form; a skip whose condition fails reads no memory (R102, R108 to R111). That the look-ahead faults at the end of
memory is the spec's decision D6 (log 16). -/
def Obligations.CompareSkipsFollowTheirCondition : Prop :=
  ∀ (s : State) (x y : Reg) (nn : Byte),
    (Encodes (.seImm x nn) (0x3000 + 256 * x.val + nn.toNat) ∧ SkipsIf (.seImm x nn) s (readV s x = nn)) ∧
    (Encodes (.sneImm x nn) (0x4000 + 256 * x.val + nn.toNat) ∧ SkipsIf (.sneImm x nn) s (readV s x ≠ nn)) ∧
    (Encodes (.seReg x y) (0x5000 + 256 * x.val + 16 * y.val) ∧ SkipsIf (.seReg x y) s (readV s x = readV s y)) ∧
    (Encodes (.sneReg x y) (0x9000 + 256 * x.val + 16 * y.val) ∧ SkipsIf (.sneReg x y) s (readV s x ≠ readV s y))

/-- `EX9E` and `EXA1` skip on the current level of key `V[X]`, and fault when `V[X] > 15` (40_flow.md R112, R113, with
their decision D9; log 17). -/
def Obligations.KeySkipsReadTheCurrentLevel : Prop :=
  ∀ (s : State) (x : Reg),
    Encodes (.skp x) (0xE09E + 256 * x.val) ∧ Encodes (.sknp x) (0xE0A1 + 256 * x.val) ∧
    (∀ k : Fin 16, (readV s x).toNat = k.val →
      SkipsIf (.skp x) s (s.keypad.pressed[k.val] = true) ∧
      SkipsIf (.sknp x) s (s.keypad.pressed[k.val] = false)) ∧
    (15 < (readV s x).toNat →
      Faults (.skp x) s (.keyIndexOutOfRange (readV s x).toNat) ∧
      Faults (.sknp x) s (.keyIndexOutOfRange (readV s x).toNat))

/-- `FX0A`: the lowest key with a release edge is stored and `PC` advances; with none, nothing at all changes, so the
word runs again (40_flow.md R114; 10_state.md R35). The lowest index is the spec's decision D10 (log 18). -/
def Obligations.KeyWaitStoresTheLowestReleasedKey : Prop :=
  ∀ (s : State) (x : Reg), Encodes (.ldVxK x) (0xF00A + 256 * x.val) ∧
    (∀ k : Fin 16, s.keypad.prev[k.val] = true → s.keypad.pressed[k.val] = false →
      (∀ j : Fin 16, j < k → ¬(s.keypad.prev[j.val] = true ∧ s.keypad.pressed[j.val] = false)) →
      SetsRegisters (.ldVxK x) s fun r => if r = x then BitVec.ofNat 8 k.val else readV s r) ∧
    ((∀ k : Fin 16, ¬(s.keypad.prev[k.val] = true ∧ s.keypad.pressed[k.val] = false)) →
      exec (.ldVxK x) s = .next s)

/-! ## Index register, loads and stores -/

/-- `ANNN`, `F000 NNNN`, `FX1E`, `FX29`, `FX30` (42_index_memory.md R160 to R164): `I` becomes the value the rule gives,
`FX1E` wraps at 16 bits without a flag, and a glyph uses the low nibble only. The wrap and the nibble are the spec's
decisions D33 and D50 (log 27), the font addresses D4 (log 9). -/
def Obligations.IndexInstructionsSetTheIndex : Prop :=
  ∀ (s : State) (x : Reg) (nnn : BitVec 12) (nnnn : Word),
    (Encodes (.ldI nnn) (0xA000 + nnn.toNat) ∧
      SetsIndex (.ldI nnn) s (BitVec.ofNat 16 nnn.toNat) (s.cpu.pc + 2)) ∧
    (encode (.ldILong nnnn) = [0xF000, nnnn] ∧ SetsIndex (.ldILong nnnn) s nnnn (s.cpu.pc + 4)) ∧
    (Encodes (.addI x) (0xF01E + 256 * x.val) ∧
      SetsIndex (.addI x) s (BitVec.ofNat 16 ((s.cpu.i.toNat + (readV s x).toNat) % 65536)) (s.cpu.pc + 2)) ∧
    (Encodes (.ldF x) (0xF029 + 256 * x.val) ∧
      SetsIndex (.ldF x) s (BitVec.ofNat 16 (5 * ((readV s x).toNat % 16))) (s.cpu.pc + 2)) ∧
    (Encodes (.ldHF x) (0xF030 + 256 * x.val) ∧
      SetsIndex (.ldHF x) s (BitVec.ofNat 16 (0x50 + 10 * ((readV s x).toNat % 16))) (s.cpu.pc + 2))

/-- `FX33`: the three decimal digits at `I`, `I` unchanged; past the end of memory, the fault and no byte (R165;
decision D5, log 16). -/
def Obligations.DecimalDigitsAreStoredAtTheIndex : Prop :=
  ∀ (s : State) (x : Reg), Encodes (.ldB x) (0xF033 + 256 * x.val) ∧
    (s.cpu.i.toNat + 3 ≤ 65536 →
      StoresBytes (.ldB x) s s.cpu.i.toNat
        [BitVec.ofNat 8 ((readV s x).toNat / 100), BitVec.ofNat 8 ((readV s x).toNat / 10 % 10),
          BitVec.ofNat 8 ((readV s x).toNat % 10)] s.cpu.i) ∧
    (65536 < s.cpu.i.toNat + 3 → Faults (.ldB x) s (.memOutOfRange s.cpu.i.toNat))

/-- `FX55`: `V0`..`V[X]` at `I`, then the write-back policy; past the end of memory, the fault and neither memory nor
`I` changes (R166, R167; decision D5, log 16). -/
def Obligations.BlockStoreWritesTheRegistersAndMovesTheIndex : Prop :=
  ∀ (s : State) (x : Reg), Encodes (.storeRegs x) (0xF055 + 256 * x.val) ∧
    (s.cpu.i.toNat + x.val + 1 ≤ 65536 →
      StoresBytes (.storeRegs x) s s.cpu.i.toNat
        ((List.finRange 16).filterMap fun r => if r ≤ x then some (readV s r) else none) (indexAfterBlock s x)) ∧
    (65536 < s.cpu.i.toNat + x.val + 1 → Faults (.storeRegs x) s (.memOutOfRange s.cpu.i.toNat))

/-- `FX65`: `V0`..`V[X]` from `I`, `VF` as a register, then the write-back policy; past the end of memory, the fault
(R166, R168; decision D5, log 16). -/
def Obligations.BlockLoadReadsTheRegistersAndMovesTheIndex : Prop :=
  ∀ (s : State) (x : Reg), Encodes (.loadRegs x) (0xF065 + 256 * x.val) ∧
    (s.cpu.i.toNat + x.val + 1 ≤ 65536 →
      ∃ t, exec (.loadRegs x) s = .next t ∧ OnlyVIPc s t ∧ t.cpu.pc = s.cpu.pc + 2 ∧
        t.cpu.i = indexAfterBlock s x ∧
        ∀ k : Reg, readV t k = if k ≤ x then s.mem.read (s.cpu.i.toNat + k.val) else readV s k) ∧
    (65536 < s.cpu.i.toNat + x.val + 1 → Faults (.loadRegs x) s (.memOutOfRange s.cpu.i.toNat))

/-- `5XY2` and `5XY3`: the inclusive range from `X` to `Y`, ascending or descending, to and from memory at `I`, which
does not move; past the end of memory, the fault (42_index_memory.md R169, R170; decision D5, log 16). -/
def Obligations.RangeTransfersGoEitherDirection : Prop :=
  ∀ (s : State) (x y : Reg),
    Encodes (.saveRange x y) (0x5002 + 256 * x.val + 16 * y.val) ∧
    Encodes (.loadRange x y) (0x5003 + 256 * x.val + 16 * y.val) ∧
    (s.cpu.i.toNat + rangeLength x y ≤ 65536 →
      StoresBytes (.saveRange x y) s s.cpu.i.toNat
        ((List.range (rangeLength x y)).map fun k => readV s (Fin.ofNat 16 (rangeEntry x y k))) s.cpu.i ∧
      ∃ t, exec (.loadRange x y) s = .next t ∧ OnlyVPc s t ∧ t.cpu.pc = s.cpu.pc + 2 ∧
        (∀ k, k < rangeLength x y →
          readV t (Fin.ofNat 16 (rangeEntry x y k)) = s.mem.read (s.cpu.i.toNat + k)) ∧
        (∀ r : Reg, ((r < x ∧ r < y) ∨ (x < r ∧ y < r)) → readV t r = readV s r)) ∧
    (65536 < s.cpu.i.toNat + rangeLength x y →
      Faults (.saveRange x y) s (.memOutOfRange s.cpu.i.toNat) ∧
      Faults (.loadRange x y) s (.memOutOfRange s.cpu.i.toNat))

/-- `FX75` and `FX85`: `V0`..`V[X]` to and from the flags file, with memory and `I` untouched (42_index_memory.md R171,
R172). That the file has 16 entries is the spec's decision D34 (log 27). -/
def Obligations.FlagsFileSavesAndRestores : Prop :=
  ∀ (s : State) (x : Reg),
    (Encodes (.saveFlags x) (0xF075 + 256 * x.val) ∧
      ∃ t, exec (.saveFlags x) s = .next t ∧
        t = { s with cpu := { s.cpu with flags := t.cpu.flags, pc := t.cpu.pc } } ∧ SameBytes s t ∧
        t.cpu.pc = s.cpu.pc + 2 ∧ ∀ k : Reg, readFlag t k = if k ≤ x then readV s k else readFlag s k) ∧
    (Encodes (.loadFlags x) (0xF085 + 256 * x.val) ∧
      SetsRegisters (.loadFlags x) s fun k => if k ≤ x then readFlag s k else readV s k)

/-- `FX55`, then `FX65` with the same `X` and with `I` set back, restores every register bit for bit, whatever the
write-back policy and whatever happened to the registers in between (R168, 90_conflicts.md C7). -/
def Obligations.BlockStoreThenLoadRestoresTheRegisters : Prop :=
  ∀ (s t : State) (x : Reg) (v' : Vector Byte 16), s.cpu.i.toNat + x.val + 1 ≤ 65536 →
    exec (.storeRegs x) s = .next t →
    ∃ u, exec (.loadRegs x) { t with cpu := { t.cpu with i := s.cpu.i, v := v' } } = .next u ∧
      ∀ k : Reg, k ≤ x → readV u k = readV s k

/-! ## Timers -/

/-- `FX07`, `FX15`, `FX18` (43_timers.md R190 to R192). -/
def Obligations.TimerInstructionsMoveTheTimers : Prop :=
  ∀ (s : State) (x : Reg),
    (Encodes (.ldVxDT x) (0xF007 + 256 * x.val) ∧
      SetsRegisters (.ldVxDT x) s fun k => if k = x then s.cpu.dt else readV s k) ∧
    (Encodes (.ldDTVx x) (0xF015 + 256 * x.val) ∧
      ∃ t, exec (.ldDTVx x) s = .next t ∧ t.cpu.dt = readV s x ∧ t.cpu.pc = s.cpu.pc + 2 ∧
        t = { s with cpu := { s.cpu with dt := t.cpu.dt, pc := t.cpu.pc } } ∧ SameBytes s t) ∧
    (Encodes (.ldSTVx x) (0xF018 + 256 * x.val) ∧
      ∃ t, exec (.ldSTVx x) s = .next t ∧ t.audio.st = readV s x ∧ t.cpu.pc = s.cpu.pc + 2 ∧
        t = { s with cpu := { s.cpu with pc := t.cpu.pc }, audio := { s.audio with st := t.audio.st } } ∧
        SameBytes s t)

/-- A timer tick decrements `DT` and `ST` if they are not 0, latches the keypad, clears `pendingVblank`, reports whether
`ST` was decremented, and does nothing else (60_exceptions.md R280; 43_timers.md R193, R194). The latch per
tick and the clear are the spec's decisions D52 and D11 (log 24). -/
def Obligations.ATimerTickDoesItsFourParts : Prop :=
  ∀ s : State,
    (timerTick s).1.cpu.dt.toNat = s.cpu.dt.toNat - 1 ∧
    (timerTick s).1.audio.st.toNat = s.audio.st.toNat - 1 ∧
    ((timerTick s).2 = true ↔ s.audio.st ≠ 0) ∧
    (timerTick s).1 = { s with
      cpu := { s.cpu with dt := (timerTick s).1.cpu.dt },
      audio := { s.audio with st := (timerTick s).1.audio.st },
      keypad := { s.keypad with prev := s.keypad.pressed },
      display := { s.display with pendingVblank := false } }

/-! ## Display -/

/-- `00E0`: every cell of the selected planes is cleared and `dirty` set, also with no plane selected
(44_display.md R201, R202). The last point is the spec's decision D43 (log 22). -/
def Obligations.ClearEmptiesTheSelectedPlanes : Prop :=
  ∀ s : State, Encodes .cls 0x00E0 ∧ RedrawsSelected .cls s fun _ _ _ => false

/-- `00FE`, `00FF` and `FX01` change only the resolution and only the plane mask: no cell and not `dirty`
(44_display.md R203, R204, R205). These are the spec's decisions D20, D29, D42 (log 22, 27). -/
def Obligations.ResolutionAndPlaneSelectChangeNoCell : Prop :=
  ∀ (s : State) (m : BitVec 4),
    (Encodes .low 0x00FE ∧ ∃ t, exec .low s = .next t ∧ SameBytes s t ∧
      t = { s with cpu := { s.cpu with pc := s.cpu.pc + 2 }, display := { s.display with hires := false } }) ∧
    (Encodes .high 0x00FF ∧ ∃ t, exec .high s = .next t ∧ SameBytes s t ∧
      t = { s with cpu := { s.cpu with pc := s.cpu.pc + 2 }, display := { s.display with hires := true } }) ∧
    (Encodes (.plane m) (0xF001 + 256 * m.toNat) ∧ ∃ t, exec (.plane m) s = .next t ∧ SameBytes s t ∧
      t = { s with cpu := { s.cpu with pc := s.cpu.pc + 2 }, display := { s.display with planeMask := m } })

/-- `00CN` and `00DN`: on the selected planes each cell takes the value of the cell `Amt(N)` rows above or below, and
the vacated rows are cleared; `Amt` doubles in low resolution under `Q.scaleScroll` (R206, R207, R208). The direction,
the quirk's polarity and `dirty` for `N = 0` are the spec's own (D19, D55; log 22, 23, 26). -/
def Obligations.VerticalScrollsShiftRows : Prop :=
  ∀ (s : State) (n : Fin 16), ∀ d,
    d = (if s.display.hires = false ∧ s.quirks.scaleScroll = true then 2 * n.val else n.val) →
    (Encodes (.scd n) (0x00C0 + n.val) ∧
      RedrawsSelected (.scd n) s fun p r c =>
        if h : d ≤ r.val then cell s.display.planes p (⟨r.val - d, by omega⟩ : Fin 64) c else false) ∧
    (Encodes (.scu n) (0x00D0 + n.val) ∧
      RedrawsSelected (.scu n) s fun p r c =>
        if h : r.val + d ≤ 63 then cell s.display.planes p (⟨r.val + d, by omega⟩ : Fin 64) c else false)

/-- `00FB` and `00FC`: the same for columns, by `Amt(4)` (R206, R209, R210). The quirk's polarity and that a scroll sets
`dirty` are the spec's decisions D19 and D20 (log 22, 23). -/
def Obligations.HorizontalScrollsShiftColumns : Prop :=
  ∀ s : State, ∀ m, m = (if s.display.hires = false ∧ s.quirks.scaleScroll = true then 8 else 4) →
    (Encodes .scr 0x00FB ∧
      RedrawsSelected .scr s fun p r c =>
        if h : m ≤ c.val then cell s.display.planes p r (⟨c.val - m, by omega⟩ : Fin 128) else false) ∧
    (Encodes .scl 0x00FC ∧
      RedrawsSelected .scl s fun p r c =>
        if h : c.val + m ≤ 127 then cell s.display.planes p r (⟨c.val + m, by omega⟩ : Fin 128) else false)

/-- `DXYN` completes when its block of `h * bpr` bytes per selected plane fits into memory, or when no plane is
selected; it draws at the old `V[X]`, `V[Y]`, sets `dirty` and `pendingVblank`, and then `VF` to whether the collision
count is not 0; otherwise it faults and nothing else changes (R211, R214, R216). The cells it leaves and its count are
the subject of the statements after it. The fault, the whole-block read and the marks under an empty selection are the
spec's decisions D5, D51, D43 (log 16, 21, 22). -/
def Obligations.DrawMarksTheDisplayAndSetsVf : Prop :=
  ∀ (s : State) (x y : Reg) (n : Fin 16), Encodes (.drw x y n) (0xD000 + 256 * x.val + 16 * y.val + n.val) ∧
    ∀ len, len = (if n.val = 0 then 32 else n.val) * (sel s.display).length →
    (s.display.planeMask = 0 ∨ s.cpu.i.toNat + len ≤ 65536 →
      ∃ t bytes, exec (.drw x y n) s = .next t ∧
        (∀ k, k < len → bytes[k]? = some (s.mem.read (s.cpu.i.toNat + k))) ∧
        t = { s with
              cpu := { s.cpu with v := t.cpu.v, pc := s.cpu.pc + 2 },
              display := { s.display with planes := t.display.planes, dirty := true, pendingVblank := true } } ∧
        SameBytes s t ∧
        t.display.planes = (drawSprite s.display bytes (spriteShape n) s.quirks.wrap
          (readV s x).toNat (readV s y).toNat).1.planes ∧
        (∀ k : Reg, readV t k = if k = 15 then
          (if (drawSprite s.display bytes (spriteShape n) s.quirks.wrap
            (readV s x).toNat (readV s y).toNat).2 = 0 then 0 else 1) else readV s k)) ∧
    (s.display.planeMask ≠ 0 → 65536 < s.cpu.i.toNat + len → Faults (.drw x y n) s (.memOutOfRange s.cpu.i.toNat))

/-- The draw engine XORs exactly the cells the sprite covers: a cell is inverted if a set sprite bit lands on the
logical pixel it belongs to, and unchanged otherwise, in both resolutions, wrapped or clipped (44_display.md R200,
R201, R212 to R214). `SpriteCovers` spells out R211 to R213 in numbers and calls nothing of the engine. Bit order,
coordinates and the off-screen test are the spec's decisions D15 to D18 (log 21). -/
def Obligations.ADrawInvertsExactlyTheCoveredCells : Prop :=
  ∀ (d : Display) (bytes : List Byte) (n : Fin 16) (wrap : Bool) (x y : Nat)
    (p : Fin 4) (r : Fin 64) (c : Fin 128),
    (SpriteCovers d bytes n wrap x y p r c →
      cell (drawSprite d bytes (spriteShape n) wrap x y).1.planes p r c = !cell d.planes p r c) ∧
    (¬ SpriteCovers d bytes n wrap x y p r c →
      cell (drawSprite d bytes (spriteShape n) wrap x y).1.planes p r c = cell d.planes p r c)

/-- The collision count is not 0 exactly when the sprite covers a cell that was set before the draw (44_display.md R214,
R216; decision D15, log 21). -/
def Obligations.ADrawCollidesExactlyOnSetCells : Prop :=
  ∀ (d : Display) (bytes : List Byte) (n : Fin 16) (wrap : Bool) (x y : Nat),
    (drawSprite d bytes (spriteShape n) wrap x y).2 ≠ 0 ↔
      ∃ p r c, SpriteCovers d bytes n wrap x y p r c ∧ cell d.planes p r c = true

/-- R215, which the spec derives from R214: (a) the count never exceeds the number of set sprite bits over the
selected planes; (b) two identical draws restore every cell; (c) on selected planes that were clear, the first of two
draws counts 0 and the second counts every set bit that was not clipped, which is every one where the draw wraps. -/
def Obligations.CollisionPropertiesOfADraw : Prop :=
  ∀ (d : Display) (bytes : List Byte) (n : Fin 16) (wrap : Bool) (x y : Nat),
    (drawSprite d bytes (spriteShape n) wrap x y).2 ≤ (SetBits d bytes n).ncard ∧
    (drawSprite (drawSprite d bytes (spriteShape n) wrap x y).1 bytes (spriteShape n) wrap x y).1.planes = d.planes ∧
    ((∀ p r c, d.planeMask.getLsbD p.val = true → cell d.planes p r c = false) →
      (drawSprite d bytes (spriteShape n) wrap x y).2 = 0 ∧
      (drawSprite (drawSprite d bytes (spriteShape n) wrap x y).1 bytes (spriteShape n) wrap x y).2 =
        (UnclippedBits d bytes n wrap x y).ncard ∧
      (Wraps d wrap x y → UnclippedBits d bytes n wrap x y = SetBits d bytes n))

/-! ## Audio -/

/-- `FX02`: 16 bytes from `I` become the pattern, for every `X`; past the end of memory, the fault. `FX3A`: the pitch
becomes `V[X]`. Both switch to pattern mode, and the phase and `I` stay (45_audio.md R240, R241). That the phase stays
and that `X` of `FX02` is not used are the spec's decisions D23 and D29 (log 25, 27). -/
def Obligations.AudioInstructionsSetPatternAndPitch : Prop :=
  ∀ (s : State) (x : Fin 16),
    (Encodes (.audio x) (0xF002 + 256 * x.val) ∧
      (s.cpu.i.toNat + 16 ≤ 65536 → ∃ t, exec (.audio x) s = .next t ∧ SameBytes s t ∧
        t = { s with
              cpu := { s.cpu with pc := s.cpu.pc + 2 },
              audio := { s.audio with pattern := t.audio.pattern, mode := .pattern } } ∧
        ∀ k : Fin 16, t.audio.pattern[k.val] = s.mem.read (s.cpu.i.toNat + k.val)) ∧
      (65536 < s.cpu.i.toNat + 16 → Faults (.audio x) s (.memOutOfRange s.cpu.i.toNat))) ∧
    (Encodes (.pitch x) (0xF03A + 256 * x.val) ∧
      ∃ t, exec (.pitch x) s = .next t ∧ SameBytes s t ∧
        t = { s with
              cpu := { s.cpu with pc := s.cpu.pc + 2 },
              audio := { s.audio with pitch := readV s x, mode := .pattern } })

/-- The playback rate of every pitch, with the rounding of `REALS` (R242): under exact reals it is
`4000 * 2 ^ ((pitch - 64) / 48)`, which is 2000, 4000, 8000, 16000 and 32000 at 16, 64, 112, 160 and 208. Which
operations are rounded is the model's choice (DESIGN CHOICE, log 12). -/
def Obligations.PlaybackRateDoublesPerOctave : Prop :=
  ∀ (R : Reals) (pitch : Byte),
    ((playbackRate R pitch).value =
      R.rnd (4000 * R.rnd ((2 : ℝ) ^ ((R.round (R.round ((pitch.toNat : Rat) - 64) / 48) : Rat) : ℝ)))) ∧
    (R.Exact →
      (playbackRate R pitch).value = 4000 * (2 : ℝ) ^ (((pitch.toNat : ℝ) - 64) / 48) ∧
      (pitch = 16 → (playbackRate R pitch).value = 2000) ∧ (pitch = 64 → (playbackRate R pitch).value = 4000) ∧
      (pitch = 112 → (playbackRate R pitch).value = 8000) ∧ (pitch = 160 → (playbackRate R pitch).value = 16000) ∧
      (pitch = 208 → (playbackRate R pitch).value = 32000))

/-- With the sound timer at 0 every level is silence and nothing changes (R243). While it runs no level is silence, and
only the phase of the selected mode moves. One sample is taken, then the phase moves: in beep mode `High` below half a period and `Low` from
there on, the phase by `440 / sr`, its fraction kept (R244); in pattern mode bit `7 - k mod 8` of byte `k / 8`, for `k`
the integer part of the phase, the phase by the playback rate over `sr`, modulo 128 (R245). More samples are this one
again and again (the next statement). Phases in silence, duty, order and bit order are the spec's decisions D23, D24
and its general knowledge (log 25); which operations are rounded is the model's choice (log 12). -/
def Obligations.SoundOnlyMovesItsOwnPhase : Prop :=
  ∀ (R : Reals) (n : Nat) (sr : Rat) (s : State),
    (s.audio.st = 0 → output R n sr s = (s, List.replicate n .silent)) ∧
    (s.audio.st ≠ 0 →
      Level.silent ∉ (output R n sr s).2 ∧ (output R n sr s).2.length = n ∧
      (s.audio.mode = .beep →
        (output R n sr s).1 =
          { s with audio := { s.audio with beepPhase := (output R n sr s).1.audio.beepPhase } } ∧
        output R 1 sr s =
          ({ s with audio := { s.audio with
              beepPhase := Int.fract (R.round (s.audio.beepPhase + R.round (440 / sr))) } },
            [if s.audio.beepPhase < 1 / 2 then .high else .low])) ∧
      (s.audio.mode = .pattern →
        (output R n sr s).1 =
          { s with audio := { s.audio with patPhase := (output R n sr s).1.audio.patPhase } } ∧
        (∀ k : Fin 128, ⌊s.audio.patPhase.value⌋ = (k.val : Int) →
          (output R 1 sr s).2 =
            [if (s.audio.pattern[k.val / 8]).toNat / 2 ^ (7 - k.val % 8) % 2 = 1 then .high else .low]) ∧
        ∀ v : ℝ, v = R.rnd (s.audio.patPhase.value + R.rnd ((playbackRate R s.audio.pitch).value / sr)) →
          (output R 1 sr s).1.audio.patPhase.value = v - 128 * ⌊v / 128⌋))

/-- Two pulls in a row give the same levels and the same end state as one long pull (R246). That this holds for every
rounding is the model's choice of what is rounded (DESIGN CHOICE, log 12): R246 says it up to the `REALS` rounding. -/
def Obligations.OutputIsTheSameInAnyChunks : Prop :=
  ∀ (R : Reals) (n m : Nat) (sr : Rat) (s : State),
    output R (n + m) sr s =
      ((output R m sr (output R n sr s).1).1, (output R n sr s).2 ++ (output R m sr (output R n sr s).1).2)

/-! ## Sequencer and host -/

/-- While the stall holds, the CPU half of `run-frame` skips every step: it completes, and only the accumulator moves
(60_exceptions.md R281, R282). That it completes also where the rounded loop has no last turn is the model's choice, not
R281's (DESIGN CHOICE, log 13), and so is which operations are rounded (DESIGN CHOICE, log 12). -/
def Obligations.TheVblankStallSkipsEveryStep : Prop :=
  ∀ (R : Reals) (elapsed : Rat) (s : State), s.quirks.vblank = true → s.display.pendingVblank = true →
    ∃ t, runCycles R elapsed s = .next t ∧ t = { s with seq := { s.seq with cycleAccum := t.seq.cycleAccum } }

/-- `run-frame` completes from every state, for every elapsed time and under every rounding: no accumulator stops it. In
the state it leaves, each accumulator is what the turns of its loop leave of what was due: every turn is taken from at
least 1 and, where the rounded loop can end, the accumulator is below 1 (R281; which operations are rounded, and that a
loop without a last turn takes an unspecified number of turns, are the model's choices, DESIGN CHOICE, log 12, 13).

Under exact reals it is the CPU half, then the timer half, then one `poll` (R281, R283). The CPU half executes CPU steps, as many as the cycle accumulator has whole units, or fewer if it
comes to a state that stalls: it executes the first `k` of them, no state before the `k`-th stalls, and the state after
them does if `k` is less (R282). Each accumulator keeps exactly its fraction. `dirty` is the flag before the `poll`;
`beep` says whether there was a tick and the CPU half left the sound timer not 0 (decision D12, log 24). Exact reals
are one choice of the OPEN `REALS`, and rational elapsed times and tickrates are the model's choice (log 12). -/
def Obligations.RunFrameCompletesAndKeepsTheFractions : Prop :=
  ∀ (R : Reals) (elapsed : Rat) (s : State),
  (∃ t f a b, runFrame R elapsed s = .next (t, f) ∧
    UnitTurns R.round (cyclesDue R elapsed s) a ∧
    t.seq.cycleAccum = afterUnits R.round a (cyclesDue R elapsed s) ∧
    UnitTurns R.round (ticksDue R elapsed s) b ∧
    t.seq.timerAccum = afterUnits R.round b (ticksDue R elapsed s)) ∧
  ∀ (n m : Nat), R.Exact → 0 ≤ elapsed → Inv s →
    n = ⌊s.seq.cycleAccum + s.seq.tickrate * 60 * elapsed⌋₊ → m = ⌊s.seq.timerAccum + 60 * elapsed⌋₊ →
    ∃ u t f k,
      runCycles R elapsed s = .next u ∧ runFrame R elapsed s = .next (t, f) ∧
      core.run k { s with seq := { s.seq with
        cycleAccum := Int.fract (s.seq.cycleAccum + s.seq.tickrate * 60 * elapsed) } } = .next u ∧
      (∀ j w, j < k → core.run j { s with seq := { s.seq with
        cycleAccum := Int.fract (s.seq.cycleAccum + s.seq.tickrate * 60 * elapsed) } } = .next w →
        ¬(w.quirks.vblank = true ∧ w.display.pendingVblank = true)) ∧
      (k = n ∨ (k < n ∧ u.quirks.vblank = true ∧ u.display.pendingVblank = true)) ∧
      (s.quirks.vblank = false → k = n) ∧
      t.seq.cycleAccum = Int.fract (s.seq.cycleAccum + s.seq.tickrate * 60 * elapsed) ∧
      f.dirty = u.display.dirty ∧ (f.beep = true ↔ 0 < m ∧ u.audio.st ≠ 0) ∧
      t = { u with
            cpu := { u.cpu with dt := t.cpu.dt },
            audio := { u.audio with st := t.audio.st },
            keypad := { u.keypad with prev := if m = 0 then u.keypad.prev else u.keypad.pressed },
            display := { u.display with dirty := false, pendingVblank := false },
            seq := { u.seq with timerAccum := Int.fract (s.seq.timerAccum + 60 * elapsed) } } ∧
      t.cpu.dt.toNat = u.cpu.dt.toNat - m ∧ t.audio.st.toNat = u.audio.st.toNat - m

/-- Under exact reals the timer half of `run-frame` performs `floor(timerAccum + 60 * elapsed)` ticks: both timers lose
that many, and `beep` says whether there was a tick and the sound timer was not 0 before it (R280, R281, R283; decision
D12, log 24). -/
def Obligations.RunFrameTicksTheTimersAndReportsBeep : Prop :=
  ∀ (R : Reals) (elapsed : Rat) (s : State) (n : Nat), R.Exact →
    n = ⌊s.seq.timerAccum + 60 * elapsed⌋₊ →
    ∃ t beep, runTicks R elapsed s = (t, beep) ∧
      t.cpu.dt.toNat = s.cpu.dt.toNat - n ∧ t.audio.st.toNat = s.audio.st.toNat - n ∧
      (beep = true ↔ 0 < n ∧ s.audio.st ≠ 0) ∧
      t.keypad.prev = (if n = 0 then s.keypad.prev else s.keypad.pressed)

/-- What each small host operation writes, and that it writes nothing else: `press` and `release` one key level, and
they refuse a key above 15; `set-quirks` and `set-tickrate` one field; `poll` clears `dirty` and `pendingVblank` and
returns `dirty`; `step` is one CPU step with no stall (60_exceptions.md R285 to R287; 44_display.md R217). The refusal
is the spec's decision D46, the ungated `step` D39 (log 14). -/
def Obligations.HostOperationsWriteOnlyWhatTheyName : Prop :=
  ∀ (R : Reals) (s : State),
    (∀ k (h : k < 16),
      (∃ t, hostOp R (.press k) s = .next (t, .done) ∧
        t = { s with keypad := { s.keypad with pressed := t.keypad.pressed } } ∧
        ∀ j : Fin 16, t.keypad.pressed[j.val] = if j = ⟨k, h⟩ then true else s.keypad.pressed[j.val]) ∧
      (∃ t, hostOp R (.release k) s = .next (t, .done) ∧
        t = { s with keypad := { s.keypad with pressed := t.keypad.pressed } } ∧
        ∀ j : Fin 16, t.keypad.pressed[j.val] = if j = ⟨k, h⟩ then false else s.keypad.pressed[j.val])) ∧
    (∀ k, 16 ≤ k → hostOp R (.press k) s = .refused .keyOutsideKeypad ∧
      hostOp R (.release k) s = .refused .keyOutsideKeypad) ∧
    (∀ q, hostOp R (.setQuirks q) s = .next ({ s with quirks := q }, .done)) ∧
    (∀ r, 0 < r → hostOp R (.setTickrate r) s = .next ({ s with seq := { s.seq with tickrate := r } }, .done)) ∧
    (hostOp R .poll s =
      .next ({ s with display := { s.display with dirty := false, pendingVblank := false } },
        .wasDirty s.display.dirty)) ∧
    (∀ t, step s = .next t → hostOp R .step s = .next (t, .done))

/-- A `load` that fits, of a known platform, leaves every state at its reset value, with the platform's triple, the ROM
image at 0x0200 and the reset content everywhere else; with no platform given it is the load of `DEFAULT_PLATFORM`;
otherwise it fails and nothing changes
(70_reset_and_hazards.md R310, R311; 60_exceptions.md R274). The values are the spec's decisions (log 8, 9, 10, 29). -/
def Obligations.LoadResetsOrChangesNothing : Prop :=
  ∀ (presets : Platform → Preset) (rom : List Byte) (p : Platform) (s : State),
    (0x200 + rom.length ≤ 65536 → ∃ t, load presets rom (.named p) s = (t, true) ∧
      { t with mem := [] } = State.powerOn (presets p) s.rand ∧
      (∀ k (h : k < rom.length), t.mem.read (0x200 + k) = rom[k]) ∧
      (∀ a, (a < 0x200 ∨ 0x200 + rom.length ≤ a) → t.mem.read a = resetByte a) ∧ t.mem.wf) ∧
    load presets rom .unspecified s = load presets rom (.named Config.defaultPlatform) s ∧
    (65536 < 0x200 + rom.length → ∀ q, load presets rom q s = (s, false)) ∧
    load presets rom .unknown s = (s, false)

/-- Only `run-frame` advances time: after any other operation the accumulators are as before, or 0 after a `load` that
succeeded; and introspection and raster readback change nothing at all (R288, R323; 44_display.md R218). -/
def Obligations.OnlyRunFrameAdvancesTime : Prop :=
  ∀ (R : Reals) (op : HostOp) (s t : State) (r : Reply), hostOp R op s = .next (t, r) →
    match op with
    | .runFrame _ => True
    | .load _ _ _ => t = s ∨ (t.seq.cycleAccum = 0 ∧ t.seq.timerAccum = 0)
    | .readRaster | .peekNext _ | .peek _ _ | .disassembleRom _ => t = s
    | _ => t.seq.cycleAccum = s.seq.cycleAccum ∧ t.seq.timerAccum = s.seq.timerAccum

/-! ## Reset and invariants -/

/-- The state after reset, every field, with the platform OPEN (10_state.md R42; 70_reset_and_hazards.md R312). The
numbers 0x0200, 64 and the zeros of the registers are the spec's decisions (log 8, 9, 10). That no program stands at
0x0200, so that every byte from 0xF0 on is 0, is the model's choice of the empty image as reset (DESIGN CHOICE, log
5). -/
def Obligations.ResetStateIsAsListed : Prop :=
  (∀ k : Reg, readV State.reset k = 0 ∧ readFlag State.reset k = 0) ∧
  State.reset.cpu.i = 0 ∧ State.reset.cpu.pc = 0x0200 ∧ State.reset.cpu.sp = 0 ∧ State.reset.cpu.dt = 0 ∧
  (∀ k, stackSlot State.reset k = 0) ∧
  (∀ p r c, cell State.reset.display.planes p r c = false) ∧
  State.reset.display.hires = false ∧ State.reset.display.planeMask = 0b0001 ∧
  State.reset.display.dirty = false ∧ State.reset.display.pendingVblank = false ∧
  (∀ k : Fin 16, State.reset.keypad.pressed[k.val] = false ∧ State.reset.keypad.prev[k.val] = false) ∧
  State.reset.audio.st = 0 ∧ (∀ k : Fin 16, State.reset.audio.pattern[k.val] = 0) ∧
  State.reset.audio.pitch = 64 ∧ State.reset.audio.mode = .beep ∧
  State.reset.audio.patPhase = .ofRat 0 ∧ State.reset.audio.beepPhase = 0 ∧
  State.reset.seq.cycleAccum = 0 ∧ State.reset.seq.timerAccum = 0 ∧
  State.reset.seq.tickrate = Config.tickrate Config.defaultPlatform ∧
  State.reset.quirks = presetQuirks Config.defaultPlatform ∧
  State.reset.status = .running ∧
  (∀ k, k < 80 → fontSmall[k]? = some (State.reset.mem.read k)) ∧
  (∀ k, k < 160 → fontBig[k]? = some (State.reset.mem.read (0x50 + k))) ∧
  (∀ a, 0xF0 ≤ a → State.reset.mem.read a = 0)

/-- The invariant holds after reset. -/
def Obligations.ResetSatisfiesTheInvariant : Prop := Inv State.reset

/-- Every CPU step keeps the invariant: canonical memory, `SP <= STACK_DEPTH` with nothing in the slots above it,
positive tickrate, phases and accumulators in their ranges, and a fault's address at `PC`. -/
def Obligations.EveryStepKeepsTheInvariant : Prop := ∀ s t : State, Inv s → step s = .next t → Inv t

/-- Every host operation keeps it too, under every rounding that keeps non-negative results non-negative. That the phases
stay below 1 and 128 under each of them is the model's choice of what is rounded: `frac` and `mod 128` are exact
(DESIGN CHOICE, log 12). -/
def Obligations.EveryHostOperationKeepsTheInvariant : Prop :=
  ∀ (R : Reals) (op : HostOp) (s t : State) (r : Reply), R.KeepsNonneg → op.admissible → Inv s →
    hostOp R op s = .next (t, r) → Inv t
end

