-- ==== Sys2Proof/Laws/Reals.lean ====
section
/-! SUPPORT. Laws/Reals: the real numbers that the operations on phases stand for, and that exact reals are one of the
arithmetics `Reals` admits. -/

namespace Sys2Proof.Machine

/-! ### Values -/

theorem Surd.value_monomial (k : Fin 48) (q : Rat) :
    (Surd.monomial k q).value = q * (2 : ℝ) ^ ((k.val : ℝ) / 48) := by
  unfold Surd.value Surd.monomial
  rw [Finset.sum_eq_single k]
  · rw [Vector.getElem_set_self]
  · intro j _ hj
    rw [Vector.getElem_set_ne _ _ fun h => hj (Fin.ext h).symm, Vector.getElem_replicate]
    simp
  · simp

@[simp] theorem Surd.value_ofRat (q : Rat) : (Surd.ofRat q).value = q := by
  simp [Surd.ofRat, Surd.value_monomial]

@[simp] theorem Surd.value_add (x y : Surd) : (x.add y).value = x.value + y.value := by
  simp [Surd.value, Surd.add, add_mul, Finset.sum_add_distrib]

@[simp] theorem Surd.value_scale (q : Rat) (x : Surd) : (x.scale q).value = q * x.value := by
  simp [Surd.value, Surd.scale, mul_assoc, Finset.mul_sum]

@[simp] theorem Surd.value_subRat (x : Surd) (q : Rat) : (x.subRat q).value = x.value - q := by
  simp [Surd.subRat, sub_eq_add_neg]

/-- `v mod 128` is `v` less a multiple of 128. -/
theorem value_modPattern (R : Reals) (v : Surd) :
    (modPattern R v).value = v.value - 128 * ⌊v.value / 128⌋ := by
  have h : (v.scale (1 / patternBits)).value = v.value / 128 := by
    simp [patternBits]; ring
  rw [modPattern, Surd.value_subRat, R.floor_eq, h]; simp [patternBits]

/-- `0 <= v mod 128 < 128` (45_audio.md R245). -/
theorem modPattern_range (R : Reals) (v : Surd) : 0 ≤ (modPattern R v).value ∧ (modPattern R v).value < 128 := by
  rw [value_modPattern]
  have h1 := Int.floor_le (v.value / 128)
  have h2 := Int.lt_floor_add_one (v.value / 128)
  constructor <;> linarith

/-- `0 <= frac(v) < 1` (R244). -/
theorem frac_range (v : Rat) : 0 ≤ frac v ∧ frac v < 1 := by
  have h : frac v = Int.fract v := rfl
  rw [h]; exact ⟨Int.fract_nonneg v, Int.fract_lt_one v⟩

/-! ### The rate law (R242) -/

/-- The rate is the rounded product of 4000 and the rounded power of the rounded exponent. -/
theorem value_playbackRate (R : Reals) (pitch : Byte) :
    (playbackRate R pitch).value =
      R.rnd (4000 * R.rnd ((2 : ℝ) ^ ((R.round (R.round ((pitch.toNat : Rat) - 64) / 48) : Rat) : ℝ))) := by
  rw [playbackRate, R.roundSurd_eq, Surd.value_scale, R.octaves_eq]
  norm_num [pitchBaseRate, pitchCenter, pitchPerOctave]

/-- Exact reals round no rational. -/
theorem Reals.Exact.round_eq {R : Reals} (h : R.Exact) (q : Rat) : R.round q = q := by
  have := R.round_eq q
  rw [h] at this
  exact_mod_cast this

/-! ### The turns of the accumulators' loops (60_exceptions.md R281) -/

/-- Where the loop ends, its number of turns is one. -/
theorem UnitTurns.unique {round : Rat → Rat} {a : Rat} {n m : Nat} (hn : UnitTurns round a n)
    (hm : UnitTurns round a m) (h : ∃ j, afterUnits round j a < 1) : n = m := by
  rcases Nat.lt_trichotomy n m with hlt | rfl | hlt
  · exact absurd (hm.1 n hlt) (not_le.mpr (hn.2 h))
  · rfl
  · exact absurd (hn.1 m hlt) (not_le.mpr (hm.2 h))

/-- Every rounding has such a number, so `Reals` shuts no rounding out. -/
theorem unitTurns_exists (round : Rat → Rat) (a : Rat) : ∃ n, UnitTurns round a n := by
  classical
  by_cases h : ∃ j, afterUnits round j a < 1
  · exact ⟨Nat.find h, fun j hj => not_lt.mp (Nat.find_min h hj), fun _ => Nat.find_spec h⟩
  · exact ⟨0, fun j hj => absurd hj (Nat.not_lt_zero j), fun h' => absurd h' h⟩

/-- Without rounding, `n` turns take `n` away. -/
theorem afterUnits_exact {round : Rat → Rat} (h : ∀ q, round q = q) (n : Nat) (a : Rat) :
    afterUnits round n a = a - n := by
  induction n generalizing a with
  | zero => simp [afterUnits]
  | succ n ih => rw [afterUnits, ih, h]; push_cast; ring

/-- Without rounding, the loop takes the integer part of the accumulator as its number of turns. -/
theorem unitTurns_exact {round : Rat → Rat} (h : ∀ q, round q = q) (a : Rat) :
    UnitTurns round a a.floor.toNat := by
  have hc : ∀ n : Nat, afterUnits round n a = a - n := fun n => afterUnits_exact h n a
  refine ⟨fun j hj => ?_, fun _ => ?_⟩
  · have hj' : ((j + 1 : ℕ) : ℤ) ≤ a.floor := by omega
    have := Rat.le_floor_iff.mp hj'
    push_cast at this
    rw [hc]; linarith
  · have h1 : a < a.floor + 1 := Int.lt_floor_add_one a
    have h2 : (a.floor : Rat) ≤ (a.floor.toNat : Nat) := by exact_mod_cast Int.self_le_toNat a.floor
    rw [hc]; linarith

/-- Under exact reals `turns` is the integer part. -/
theorem Reals.Exact.turns_eq {R : Reals} (h : R.Exact) (a : Rat) : R.turns a = a.floor.toNat := by
  have he := unitTurns_exact h.round_eq a
  refine (R.turns_spec a).unique he ⟨a.floor.toNat + 1, ?_⟩
  have h1 : a < a.floor + 1 := Int.lt_floor_add_one a
  have h2 : (a.floor : Rat) ≤ (a.floor.toNat : Nat) := by exact_mod_cast Int.self_le_toNat a.floor
  rw [afterUnits_exact h.round_eq]; push_cast; linarith

/-! ### Exact reals -/

/-- The exact power of the rate law: the exponent is `(pitch + 32) / 48 - 2`. -/
def exactOctaves (pitch : Byte) : Surd :=
  Surd.monomial (Fin.ofNat 48 (pitch.toNat + 32)) (2 ^ ((pitch.toNat + 32) / 48) / 4)

theorem value_exactOctaves (pitch : Byte) :
    (exactOctaves pitch).value = (2 : ℝ) ^ (((pitch.toNat : ℝ) - 64) / 48) := by
  have h2 : (0 : ℝ) < 2 := by norm_num
  have hdiv : ((pitch.toNat : ℝ) + 32) = 48 * ((pitch.toNat + 32) / 48 : ℕ) + ((pitch.toNat + 32) % 48 : ℕ) := by
    exact_mod_cast (Nat.div_add_mod (pitch.toNat + 32) 48).symm
  rw [exactOctaves, Surd.value_monomial, Fin.val_ofNat]
  have h4 : (4 : ℝ) = (2 : ℝ) ^ (2 : ℝ) := by norm_num
  push_cast
  rw [h4, ← Real.rpow_natCast, ← Real.rpow_sub h2, ← Real.rpow_add h2]
  congr 1
  linarith

/-- A combination without irrational terms. -/
def Surd.rational (x : Surd) : Bool := x.coeff.toList.tail.all (· == 0)

theorem Surd.value_of_rational {x : Surd} (h : x.rational = true) : x.value = x.coeff[0] := by
  unfold Surd.value
  rw [Finset.sum_eq_single 0]
  · simp
  · intro k _ hk
    have hk' : 0 < k.val := Nat.pos_of_ne_zero fun e => hk (Fin.ext e)
    have hz : x.coeff[k.val] = 0 := by
      rw [Surd.rational, List.all_eq_true] at h
      have hm : x.coeff[k.val] ∈ x.coeff.toList.tail := by
        rw [List.mem_iff_getElem]
        refine ⟨k.val - 1, by simp; omega, ?_⟩
        rw [List.getElem_tail]
        simp [Nat.sub_add_cancel hk']
      simpa using h _ hm
    rw [hz]; simp
  · simp

open Classical in
/-- Exact reals: `REALS` without any rounding. -/
noncomputable def exactReals : Reals where
  rnd x := x
  round q := q
  round_eq _ := rfl
  roundSurd x := x
  roundSurd_eq _ := rfl
  octaves := exactOctaves
  octaves_eq pitch := by rw [value_exactOctaves]; norm_num [pitchCenter, pitchPerOctave]
  floor x := if x.rational then x.coeff[0].floor else ⌊x.value⌋
  floor_eq x := by
    split
    · rw [Surd.value_of_rational ‹_›]; exact (Rat.floor_cast (α := ℝ) _).symm
    · rfl
  turns a := a.floor.toNat
  turns_spec := unitTurns_exact fun _ => rfl

theorem exactReals_exact : exactReals.Exact := fun _ => rfl

end Sys2Proof.Machine
end

