-- ==== Sys2Proof/Laws/Audio.lean ====
section
/-! SUPPORT. Laws/Audio: what one sample does in each case, and what a run of samples keeps. -/

namespace Sys2Proof.Machine

/-- A silent sample changes nothing (45_audio.md R243). -/
theorem sample_silent (R : Reals) (sr : Rat) {a : Audio} (h : a.st = 0) : sample R sr a = (a, .silent) := by
  rw [sample, if_pos h]

/-- A beep sample (R244). -/
theorem sample_beep (R : Reals) (sr : Rat) {a : Audio} (h : a.st ≠ 0) (hm : a.mode = .beep) :
    sample R sr a = beepSample R sr a := by
  rw [sample, if_neg h, hm]

/-- A pattern sample (R245). -/
theorem sample_pattern (R : Reals) (sr : Rat) {a : Audio} (h : a.st ≠ 0) (hm : a.mode = .pattern) :
    sample R sr a = patternSample R sr a := by
  rw [sample, if_neg h, hm]

/-- A sample moves at most one phase: nothing while silent, else the phase of the mode. -/
theorem sample_cases (R : Reals) (sr : Rat) (a : Audio) :
    (a.st = 0 ∧ sample R sr a = (a, .silent)) ∨
    (a.st ≠ 0 ∧ a.mode = .beep ∧ ∃ q l, 0 ≤ q ∧ q < 1 ∧ l ≠ .silent ∧ sample R sr a = ({ a with beepPhase := q }, l)) ∨
    (a.st ≠ 0 ∧ a.mode = .pattern ∧
      ∃ v l, 0 ≤ v.value ∧ v.value < 128 ∧ l ≠ .silent ∧ sample R sr a = ({ a with patPhase := v }, l)) := by
  have hl : ∀ c : Prop, [Decidable c] → (if c then Level.high else Level.low) ≠ .silent := by
    intro c _; split <;> simp
  by_cases h : a.st = 0
  · exact .inl ⟨h, sample_silent R sr h⟩
  · have hm : a.mode = .beep ∨ a.mode = .pattern := by cases a.mode <;> simp
    rcases hm with hm | hm
    · exact .inr (.inl ⟨h, hm, _, _, (frac_range _).1, (frac_range _).2, hl _, sample_beep R sr h hm⟩)
    · exact .inr (.inr ⟨h, hm, _, _, (modPattern_range R _).1, (modPattern_range R _).2, hl _,
        sample_pattern R sr h hm⟩)

/-- What every sample keeps, a run of samples keeps. -/
theorem synthesize_induction {P : Audio → Prop} (R : Reals) (sr : Rat) (h : ∀ a, P a → P (sample R sr a).1) (n : Nat)
    {a : Audio} (ha : P a) : P (synthesize R sr n a).1 := by
  induction n generalizing a with
  | zero => exact ha
  | succ n ih => exact ih (h a ha)

/-- Two runs of samples are one long run (R246). -/
theorem synthesize_add (R : Reals) (sr : Rat) (n m : Nat) (a : Audio) :
    synthesize R sr (n + m) a =
      ((synthesize R sr m (synthesize R sr n a).1).1,
        (synthesize R sr n a).2 ++ (synthesize R sr m (synthesize R sr n a).1).2) := by
  induction n generalizing a with
  | zero => simp [synthesize]
  | succ n ih => rw [Nat.succ_add]; simp [synthesize, ih]

end Sys2Proof.Machine
end

