-- ==== Sys2Proof/Laws/Decode.lean ====
section
/-! SUPPORT. Laws/Decode: the bit fields of a word as arithmetic on its value, the values of the encoder's words, and
the fields read back from them. -/

namespace Sys2Proof

/-! ### Fields and joins as arithmetic -/

theorem toNat_append_lt {m n : Nat} (a : BitVec m) (b : BitVec n) :
    (a ++ b).toNat = a.toNat * 2 ^ n + b.toNat := by
  rw [BitVec.toNat_append, ← Nat.shiftLeft_add_eq_or_of_lt b.isLt, Nat.shiftLeft_eq]

theorem toNat_joinBytes (hi lo : Byte) : (joinBytes hi lo).toNat = 256 * hi.toNat + lo.toNat := by
  rw [joinBytes, toNat_append_lt]; omega

theorem joinBytes_eq_ofNat (hi lo : Byte) : joinBytes hi lo = BitVec.ofNat 16 (256 * hi.toNat + lo.toNat) := by
  apply BitVec.eq_of_toNat_eq
  rw [toNat_joinBytes, BitVec.toNat_ofNat]
  have := hi.isLt; have := lo.isLt; omega

theorem toNat_highByte (w : Word) : (highByte w).toNat = w.toNat / 256 := by
  have := w.isLt
  simp [highByte, Nat.shiftRight_eq_div_pow]; omega

theorem toNat_lowByte (w : Word) : (lowByte w).toNat = w.toNat % 256 := by
  simp [lowByte]

@[simp] theorem joinBytes_high_low (w : Word) : joinBytes (highByte w) (lowByte w) = w := by
  apply BitVec.eq_of_toNat_eq
  rw [toNat_joinBytes, toNat_highByte, toNat_lowByte]; omega

@[simp] theorem highByte_joinBytes (hi lo : Byte) : highByte (joinBytes hi lo) = hi := by
  apply BitVec.eq_of_toNat_eq
  rw [toNat_highByte, toNat_joinBytes]; have := lo.isLt; omega

@[simp] theorem lowByte_joinBytes (hi lo : Byte) : lowByte (joinBytes hi lo) = lo := by
  apply BitVec.eq_of_toNat_eq
  rw [toNat_lowByte, toNat_joinBytes]; have := lo.isLt; omega

theorem family_eq (w : Word) : family w = w.toNat / 4096 := by
  have := w.isLt
  simp [family, Nat.shiftRight_eq_div_pow]; omega

theorem val_fieldX (w : Word) : (fieldX w).val = w.toNat / 256 % 16 := by
  simp [fieldX, Nat.shiftRight_eq_div_pow]

theorem val_fieldY (w : Word) : (fieldY w).val = w.toNat / 16 % 16 := by
  simp [fieldY, Nat.shiftRight_eq_div_pow]

theorem val_fieldN (w : Word) : (fieldN w).val = w.toNat % 16 := by
  simp [fieldN]

theorem toNat_fieldNN (w : Word) : (fieldNN w).toNat = w.toNat % 256 := by
  simp [fieldNN]

theorem toNat_fieldNNN (w : Word) : (fieldNNN w).toNat = w.toNat % 4096 := by
  simp [fieldNNN]

theorem toNat_fieldMask (w : Word) : (fieldMask w).toNat = w.toNat / 256 % 16 := by
  simp [fieldMask, Nat.shiftRight_eq_div_pow]

/-! ### The encoder's words -/

theorem toNat_wordXYN (f : BitVec 4) (x y n : Fin 16) :
    (wordXYN f x y n).toNat = 4096 * f.toNat + 256 * x.val + 16 * y.val + n.val := by
  simp only [wordXYN, toNat_append_lt, BitVec.toNat_ofFin]; omega

theorem toNat_wordXNN (f : BitVec 4) (x : Fin 16) (nn : Byte) :
    (wordXNN f x nn).toNat = 4096 * f.toNat + 256 * x.val + nn.toNat := by
  simp only [wordXNN, toNat_append_lt, BitVec.toNat_ofFin]; omega

theorem toNat_wordNNN (f : BitVec 4) (nnn : BitVec 12) :
    (wordNNN f nnn).toNat = 4096 * f.toNat + nnn.toNat := by
  simp only [wordNNN, toNat_append_lt]; omega

/-- A word is known by its value. -/
theorem word_eq_ofNat {w : Word} {n : Nat} (h : w.toNat = n) : w = BitVec.ofNat 16 n := by
  subst h; simp

@[simp] theorem family_wordXYN (f : BitVec 4) (x y n : Fin 16) : family (wordXYN f x y n) = f.toNat := by
  rw [family_eq, toNat_wordXYN]; omega

@[simp] theorem family_wordXNN (f : BitVec 4) (x : Fin 16) (nn : Byte) : family (wordXNN f x nn) = f.toNat := by
  rw [family_eq, toNat_wordXNN]; have := nn.isLt; omega

@[simp] theorem family_wordNNN (f : BitVec 4) (nnn : BitVec 12) : family (wordNNN f nnn) = f.toNat := by
  rw [family_eq, toNat_wordNNN]; have := nnn.isLt; omega

@[simp] theorem fieldX_wordXYN (f : BitVec 4) (x y n : Fin 16) : fieldX (wordXYN f x y n) = x := by
  apply Fin.ext; rw [val_fieldX, toNat_wordXYN]; omega

@[simp] theorem fieldY_wordXYN (f : BitVec 4) (x y n : Fin 16) : fieldY (wordXYN f x y n) = y := by
  apply Fin.ext; rw [val_fieldY, toNat_wordXYN]; omega

@[simp] theorem fieldN_wordXYN (f : BitVec 4) (x y n : Fin 16) : fieldN (wordXYN f x y n) = n := by
  apply Fin.ext; rw [val_fieldN, toNat_wordXYN]; omega

@[simp] theorem fieldX_wordXNN (f : BitVec 4) (x : Fin 16) (nn : Byte) : fieldX (wordXNN f x nn) = x := by
  apply Fin.ext; rw [val_fieldX, toNat_wordXNN]; have := nn.isLt; omega

@[simp] theorem fieldMask_wordXNN (f : BitVec 4) (x : Fin 16) (nn : Byte) :
    fieldMask (wordXNN f x nn) = BitVec.ofFin x := by
  apply BitVec.eq_of_toNat_eq
  rw [toNat_fieldMask, toNat_wordXNN]
  change _ = x.val
  have := nn.isLt; omega

@[simp] theorem fieldNN_wordXNN (f : BitVec 4) (x : Fin 16) (nn : Byte) : fieldNN (wordXNN f x nn) = nn := by
  apply BitVec.eq_of_toNat_eq; rw [toNat_fieldNN, toNat_wordXNN]; have := nn.isLt; omega

@[simp] theorem fieldNNN_wordNNN (f : BitVec 4) (nnn : BitVec 12) : fieldNNN (wordNNN f nnn) = nnn := by
  apply BitVec.eq_of_toNat_eq; rw [toNat_fieldNNN, toNat_wordNNN]; have := nnn.isLt; omega

/-! ### Masks -/

/-- The family-0 rows with a nibble operand match on the value of the word without its low nibble (R84). -/
theorem mask_FFF0 (w : Word) : (w &&& 0xFFF0).toNat = 16 * (w.toNat / 16) := by
  have h : ∀ n < 65536, n &&& 0xFFF0 = 16 * (n / 16) := fun n hn => by
    apply Nat.eq_of_testBit_eq
    intro i
    rw [Nat.testBit_and, show (16 : Nat) = 2 ^ 4 from rfl, Nat.testBit_two_pow_mul, Nat.testBit_div_two_pow]
    by_cases hi : i < 16
    · interval_cases i <;> simp (decide := true)
    · have : n.testBit i = false := Nat.testBit_lt_two_pow (lt_of_lt_of_le hn (Nat.pow_le_pow_right (by decide : 0 < 2) (by omega : 16 ≤ i)))
      simp [this]; intro _; rw [show i - 4 + 4 = i by omega]; exact this
  simpa using h w.toNat w.isLt

/-! ### Reading the encoder's bytes back -/

@[simp] theorem isLong_iff (w : Word) : isLong w = true ↔ w = longWord := by simp [isLong]

/-- A short word's bytes decode to that word's instruction. -/
theorem decode_short_bytes (w : Word) (rest : List Byte) (h : w ≠ longWord) :
    decode (wordBytes [w] ++ rest) = .ok (decodeShort w, rest) := by
  simp [wordBytes, decode, isLong, h]

/-- The long form's bytes decode to the long load. -/
theorem decode_long_bytes (n : Word) (rest : List Byte) :
    decode (wordBytes [longWord, n] ++ rest) = .ok (.ldILong n, rest) := by
  simp [wordBytes, decode, isLong]

/-- Which bytes decode to what: two bytes that are not the long word, or the long word and two bytes after it. -/
theorem decode_ok_cases {bs rest : List Byte} {i : Instr} (h : decode bs = .ok (i, rest)) :
    (∃ w, w ≠ longWord ∧ bs = wordBytes [w] ++ rest ∧ i = decodeShort w) ∨
    (∃ n, bs = wordBytes [longWord, n] ++ rest ∧ i = .ldILong n) := by
  match bs, h with
  | hi :: lo :: tl, h =>
    simp only [decode] at h
    split at h
    · rename_i hl
      rw [isLong_iff] at hl
      match tl, h with
      | hi2 :: lo2 :: tl, h =>
        injection h with h; injection h with h1 h2
        subst h1 h2
        exact .inr ⟨joinBytes hi2 lo2, by simp [wordBytes, ← hl], rfl⟩
    · rename_i hl
      injection h with h; injection h with h1 h2
      subst h1 h2
      exact .inl ⟨joinBytes hi lo, by simpa [isLong_iff] using hl, by simp [wordBytes], rfl⟩

end Sys2Proof
end

