-- ==== Sys2Proof/Laws/State.lean ====
section
/-! SUPPORT. Laws/State: what each named update of the state leaves in each field, one lemma each, true by `rfl`, so
that no proof unfolds a record update. -/

namespace Sys2Proof.Machine

variable (s : State)

/-! ### `writeV` -/

@[simp] theorem writeV_cpu_v (x : Reg) (b : Byte) : (writeV s x b).cpu.v = s.cpu.v.set x.val b := rfl
@[simp] theorem writeV_cpu_i (x : Reg) (b : Byte) : (writeV s x b).cpu.i = s.cpu.i := rfl
@[simp] theorem writeV_cpu_pc (x : Reg) (b : Byte) : (writeV s x b).cpu.pc = s.cpu.pc := rfl
@[simp] theorem writeV_cpu_sp (x : Reg) (b : Byte) : (writeV s x b).cpu.sp = s.cpu.sp := rfl
@[simp] theorem writeV_cpu_stack (x : Reg) (b : Byte) : (writeV s x b).cpu.stack = s.cpu.stack := rfl
@[simp] theorem writeV_cpu_dt (x : Reg) (b : Byte) : (writeV s x b).cpu.dt = s.cpu.dt := rfl
@[simp] theorem writeV_cpu_flags (x : Reg) (b : Byte) : (writeV s x b).cpu.flags = s.cpu.flags := rfl
@[simp] theorem writeV_mem (x : Reg) (b : Byte) : (writeV s x b).mem = s.mem := rfl
@[simp] theorem writeV_display (x : Reg) (b : Byte) : (writeV s x b).display = s.display := rfl
@[simp] theorem writeV_keypad (x : Reg) (b : Byte) : (writeV s x b).keypad = s.keypad := rfl
@[simp] theorem writeV_audio (x : Reg) (b : Byte) : (writeV s x b).audio = s.audio := rfl
@[simp] theorem writeV_seq (x : Reg) (b : Byte) : (writeV s x b).seq = s.seq := rfl
@[simp] theorem writeV_quirks (x : Reg) (b : Byte) : (writeV s x b).quirks = s.quirks := rfl
@[simp] theorem writeV_status (x : Reg) (b : Byte) : (writeV s x b).status = s.status := rfl
@[simp] theorem writeV_rand (x : Reg) (b : Byte) : (writeV s x b).rand = s.rand := rfl

/-! ### `setPc` -/

@[simp] theorem setPc_cpu_v (a : Word) : (setPc s a).cpu.v = s.cpu.v := rfl
@[simp] theorem setPc_cpu_i (a : Word) : (setPc s a).cpu.i = s.cpu.i := rfl
@[simp] theorem setPc_cpu_pc (a : Word) : (setPc s a).cpu.pc = a := rfl
@[simp] theorem setPc_cpu_sp (a : Word) : (setPc s a).cpu.sp = s.cpu.sp := rfl
@[simp] theorem setPc_cpu_stack (a : Word) : (setPc s a).cpu.stack = s.cpu.stack := rfl
@[simp] theorem setPc_cpu_dt (a : Word) : (setPc s a).cpu.dt = s.cpu.dt := rfl
@[simp] theorem setPc_cpu_flags (a : Word) : (setPc s a).cpu.flags = s.cpu.flags := rfl
@[simp] theorem setPc_mem (a : Word) : (setPc s a).mem = s.mem := rfl
@[simp] theorem setPc_display (a : Word) : (setPc s a).display = s.display := rfl
@[simp] theorem setPc_keypad (a : Word) : (setPc s a).keypad = s.keypad := rfl
@[simp] theorem setPc_audio (a : Word) : (setPc s a).audio = s.audio := rfl
@[simp] theorem setPc_seq (a : Word) : (setPc s a).seq = s.seq := rfl
@[simp] theorem setPc_quirks (a : Word) : (setPc s a).quirks = s.quirks := rfl
@[simp] theorem setPc_status (a : Word) : (setPc s a).status = s.status := rfl
@[simp] theorem setPc_rand (a : Word) : (setPc s a).rand = s.rand := rfl

/-! ### `advance` -/

@[simp] theorem advance_cpu_v : (advance s).cpu.v = s.cpu.v := rfl
@[simp] theorem advance_cpu_i : (advance s).cpu.i = s.cpu.i := rfl
@[simp] theorem advance_cpu_pc : (advance s).cpu.pc = s.cpu.pc + 2 := rfl
@[simp] theorem advance_cpu_sp : (advance s).cpu.sp = s.cpu.sp := rfl
@[simp] theorem advance_cpu_stack : (advance s).cpu.stack = s.cpu.stack := rfl
@[simp] theorem advance_cpu_dt : (advance s).cpu.dt = s.cpu.dt := rfl
@[simp] theorem advance_cpu_flags : (advance s).cpu.flags = s.cpu.flags := rfl
@[simp] theorem advance_mem : (advance s).mem = s.mem := rfl
@[simp] theorem advance_display : (advance s).display = s.display := rfl
@[simp] theorem advance_keypad : (advance s).keypad = s.keypad := rfl
@[simp] theorem advance_audio : (advance s).audio = s.audio := rfl
@[simp] theorem advance_seq : (advance s).seq = s.seq := rfl
@[simp] theorem advance_quirks : (advance s).quirks = s.quirks := rfl
@[simp] theorem advance_status : (advance s).status = s.status := rfl
@[simp] theorem advance_rand : (advance s).rand = s.rand := rfl

/-! ### `setI` -/

@[simp] theorem setI_cpu_v (a : Word) : (setI s a).cpu.v = s.cpu.v := rfl
@[simp] theorem setI_cpu_i (a : Word) : (setI s a).cpu.i = a := rfl
@[simp] theorem setI_cpu_pc (a : Word) : (setI s a).cpu.pc = s.cpu.pc := rfl
@[simp] theorem setI_cpu_sp (a : Word) : (setI s a).cpu.sp = s.cpu.sp := rfl
@[simp] theorem setI_cpu_stack (a : Word) : (setI s a).cpu.stack = s.cpu.stack := rfl
@[simp] theorem setI_cpu_dt (a : Word) : (setI s a).cpu.dt = s.cpu.dt := rfl
@[simp] theorem setI_cpu_flags (a : Word) : (setI s a).cpu.flags = s.cpu.flags := rfl
@[simp] theorem setI_mem (a : Word) : (setI s a).mem = s.mem := rfl
@[simp] theorem setI_display (a : Word) : (setI s a).display = s.display := rfl
@[simp] theorem setI_keypad (a : Word) : (setI s a).keypad = s.keypad := rfl
@[simp] theorem setI_audio (a : Word) : (setI s a).audio = s.audio := rfl
@[simp] theorem setI_seq (a : Word) : (setI s a).seq = s.seq := rfl
@[simp] theorem setI_quirks (a : Word) : (setI s a).quirks = s.quirks := rfl
@[simp] theorem setI_status (a : Word) : (setI s a).status = s.status := rfl
@[simp] theorem setI_rand (a : Word) : (setI s a).rand = s.rand := rfl

/-! ### `setDt` -/

@[simp] theorem setDt_cpu_v (b : Byte) : (setDt s b).cpu.v = s.cpu.v := rfl
@[simp] theorem setDt_cpu_i (b : Byte) : (setDt s b).cpu.i = s.cpu.i := rfl
@[simp] theorem setDt_cpu_pc (b : Byte) : (setDt s b).cpu.pc = s.cpu.pc := rfl
@[simp] theorem setDt_cpu_sp (b : Byte) : (setDt s b).cpu.sp = s.cpu.sp := rfl
@[simp] theorem setDt_cpu_stack (b : Byte) : (setDt s b).cpu.stack = s.cpu.stack := rfl
@[simp] theorem setDt_cpu_dt (b : Byte) : (setDt s b).cpu.dt = b := rfl
@[simp] theorem setDt_cpu_flags (b : Byte) : (setDt s b).cpu.flags = s.cpu.flags := rfl
@[simp] theorem setDt_mem (b : Byte) : (setDt s b).mem = s.mem := rfl
@[simp] theorem setDt_display (b : Byte) : (setDt s b).display = s.display := rfl
@[simp] theorem setDt_keypad (b : Byte) : (setDt s b).keypad = s.keypad := rfl
@[simp] theorem setDt_audio (b : Byte) : (setDt s b).audio = s.audio := rfl
@[simp] theorem setDt_seq (b : Byte) : (setDt s b).seq = s.seq := rfl
@[simp] theorem setDt_quirks (b : Byte) : (setDt s b).quirks = s.quirks := rfl
@[simp] theorem setDt_status (b : Byte) : (setDt s b).status = s.status := rfl
@[simp] theorem setDt_rand (b : Byte) : (setDt s b).rand = s.rand := rfl

/-! ### `writeFlag` -/

@[simp] theorem writeFlag_cpu_v (x : Reg) (b : Byte) : (writeFlag s x b).cpu.v = s.cpu.v := rfl
@[simp] theorem writeFlag_cpu_i (x : Reg) (b : Byte) : (writeFlag s x b).cpu.i = s.cpu.i := rfl
@[simp] theorem writeFlag_cpu_pc (x : Reg) (b : Byte) : (writeFlag s x b).cpu.pc = s.cpu.pc := rfl
@[simp] theorem writeFlag_cpu_sp (x : Reg) (b : Byte) : (writeFlag s x b).cpu.sp = s.cpu.sp := rfl
@[simp] theorem writeFlag_cpu_stack (x : Reg) (b : Byte) : (writeFlag s x b).cpu.stack = s.cpu.stack := rfl
@[simp] theorem writeFlag_cpu_dt (x : Reg) (b : Byte) : (writeFlag s x b).cpu.dt = s.cpu.dt := rfl
@[simp] theorem writeFlag_cpu_flags (x : Reg) (b : Byte) : (writeFlag s x b).cpu.flags = s.cpu.flags.set x.val b := rfl
@[simp] theorem writeFlag_mem (x : Reg) (b : Byte) : (writeFlag s x b).mem = s.mem := rfl
@[simp] theorem writeFlag_display (x : Reg) (b : Byte) : (writeFlag s x b).display = s.display := rfl
@[simp] theorem writeFlag_keypad (x : Reg) (b : Byte) : (writeFlag s x b).keypad = s.keypad := rfl
@[simp] theorem writeFlag_audio (x : Reg) (b : Byte) : (writeFlag s x b).audio = s.audio := rfl
@[simp] theorem writeFlag_seq (x : Reg) (b : Byte) : (writeFlag s x b).seq = s.seq := rfl
@[simp] theorem writeFlag_quirks (x : Reg) (b : Byte) : (writeFlag s x b).quirks = s.quirks := rfl
@[simp] theorem writeFlag_status (x : Reg) (b : Byte) : (writeFlag s x b).status = s.status := rfl
@[simp] theorem writeFlag_rand (x : Reg) (b : Byte) : (writeFlag s x b).rand = s.rand := rfl

/-! ### `pushReturn` -/

@[simp] theorem pushReturn_cpu_v (a : Word) : (pushReturn s a).cpu.v = s.cpu.v := rfl
@[simp] theorem pushReturn_cpu_i (a : Word) : (pushReturn s a).cpu.i = s.cpu.i := rfl
@[simp] theorem pushReturn_cpu_pc (a : Word) : (pushReturn s a).cpu.pc = s.cpu.pc := rfl
@[simp] theorem pushReturn_cpu_sp (a : Word) : (pushReturn s a).cpu.sp = s.cpu.sp + 1 := rfl
@[simp] theorem pushReturn_cpu_stack (a : Word) : (pushReturn s a).cpu.stack = s.cpu.stack.set s.cpu.sp.toNat a s.cpu.sp.isLt := rfl
@[simp] theorem pushReturn_cpu_dt (a : Word) : (pushReturn s a).cpu.dt = s.cpu.dt := rfl
@[simp] theorem pushReturn_cpu_flags (a : Word) : (pushReturn s a).cpu.flags = s.cpu.flags := rfl
@[simp] theorem pushReturn_mem (a : Word) : (pushReturn s a).mem = s.mem := rfl
@[simp] theorem pushReturn_display (a : Word) : (pushReturn s a).display = s.display := rfl
@[simp] theorem pushReturn_keypad (a : Word) : (pushReturn s a).keypad = s.keypad := rfl
@[simp] theorem pushReturn_audio (a : Word) : (pushReturn s a).audio = s.audio := rfl
@[simp] theorem pushReturn_seq (a : Word) : (pushReturn s a).seq = s.seq := rfl
@[simp] theorem pushReturn_quirks (a : Word) : (pushReturn s a).quirks = s.quirks := rfl
@[simp] theorem pushReturn_status (a : Word) : (pushReturn s a).status = s.status := rfl
@[simp] theorem pushReturn_rand (a : Word) : (pushReturn s a).rand = s.rand := rfl

/-! ### `popReturn` -/

@[simp] theorem popReturn_cpu_v : (popReturn s).cpu.v = s.cpu.v := rfl
@[simp] theorem popReturn_cpu_i : (popReturn s).cpu.i = s.cpu.i := rfl
@[simp] theorem popReturn_cpu_pc : (popReturn s).cpu.pc = stackSlot s (s.cpu.sp - 1) := rfl
@[simp] theorem popReturn_cpu_sp : (popReturn s).cpu.sp = s.cpu.sp - 1 := rfl
@[simp] theorem popReturn_cpu_stack : (popReturn s).cpu.stack = s.cpu.stack := rfl
@[simp] theorem popReturn_cpu_dt : (popReturn s).cpu.dt = s.cpu.dt := rfl
@[simp] theorem popReturn_cpu_flags : (popReturn s).cpu.flags = s.cpu.flags := rfl
@[simp] theorem popReturn_mem : (popReturn s).mem = s.mem := rfl
@[simp] theorem popReturn_display : (popReturn s).display = s.display := rfl
@[simp] theorem popReturn_keypad : (popReturn s).keypad = s.keypad := rfl
@[simp] theorem popReturn_audio : (popReturn s).audio = s.audio := rfl
@[simp] theorem popReturn_seq : (popReturn s).seq = s.seq := rfl
@[simp] theorem popReturn_quirks : (popReturn s).quirks = s.quirks := rfl
@[simp] theorem popReturn_status : (popReturn s).status = s.status := rfl
@[simp] theorem popReturn_rand : (popReturn s).rand = s.rand := rfl

/-! ### `setSt` -/

@[simp] theorem setSt_cpu (b : Byte) : (setSt s b).cpu = s.cpu := rfl
@[simp] theorem setSt_mem (b : Byte) : (setSt s b).mem = s.mem := rfl
@[simp] theorem setSt_display (b : Byte) : (setSt s b).display = s.display := rfl
@[simp] theorem setSt_keypad (b : Byte) : (setSt s b).keypad = s.keypad := rfl
@[simp] theorem setSt_audio_st (b : Byte) : (setSt s b).audio.st = b := rfl
@[simp] theorem setSt_audio_pattern (b : Byte) : (setSt s b).audio.pattern = s.audio.pattern := rfl
@[simp] theorem setSt_audio_pitch (b : Byte) : (setSt s b).audio.pitch = s.audio.pitch := rfl
@[simp] theorem setSt_audio_mode (b : Byte) : (setSt s b).audio.mode = s.audio.mode := rfl
@[simp] theorem setSt_audio_patPhase (b : Byte) : (setSt s b).audio.patPhase = s.audio.patPhase := rfl
@[simp] theorem setSt_audio_beepPhase (b : Byte) : (setSt s b).audio.beepPhase = s.audio.beepPhase := rfl
@[simp] theorem setSt_seq (b : Byte) : (setSt s b).seq = s.seq := rfl
@[simp] theorem setSt_quirks (b : Byte) : (setSt s b).quirks = s.quirks := rfl
@[simp] theorem setSt_status (b : Byte) : (setSt s b).status = s.status := rfl
@[simp] theorem setSt_rand (b : Byte) : (setSt s b).rand = s.rand := rfl

/-! ### `setMem` -/

@[simp] theorem setMem_cpu (m : Memory) : (setMem s m).cpu = s.cpu := rfl
@[simp] theorem setMem_mem (m : Memory) : (setMem s m).mem = m := rfl
@[simp] theorem setMem_display (m : Memory) : (setMem s m).display = s.display := rfl
@[simp] theorem setMem_keypad (m : Memory) : (setMem s m).keypad = s.keypad := rfl
@[simp] theorem setMem_audio (m : Memory) : (setMem s m).audio = s.audio := rfl
@[simp] theorem setMem_seq (m : Memory) : (setMem s m).seq = s.seq := rfl
@[simp] theorem setMem_quirks (m : Memory) : (setMem s m).quirks = s.quirks := rfl
@[simp] theorem setMem_status (m : Memory) : (setMem s m).status = s.status := rfl
@[simp] theorem setMem_rand (m : Memory) : (setMem s m).rand = s.rand := rfl

/-! ### `takeFault` -/

@[simp] theorem takeFault_cpu (k : Fault) : (takeFault k s).cpu = s.cpu := rfl
@[simp] theorem takeFault_mem (k : Fault) : (takeFault k s).mem = s.mem := rfl
@[simp] theorem takeFault_display (k : Fault) : (takeFault k s).display = s.display := rfl
@[simp] theorem takeFault_keypad (k : Fault) : (takeFault k s).keypad = s.keypad := rfl
@[simp] theorem takeFault_audio (k : Fault) : (takeFault k s).audio = s.audio := rfl
@[simp] theorem takeFault_seq (k : Fault) : (takeFault k s).seq = s.seq := rfl
@[simp] theorem takeFault_quirks (k : Fault) : (takeFault k s).quirks = s.quirks := rfl
@[simp] theorem takeFault_status (k : Fault) : (takeFault k s).status = .faulted k s.cpu.pc (fetchWord s s.cpu.pc).toOption := rfl
@[simp] theorem takeFault_rand (k : Fault) : (takeFault k s).rand = s.rand := rfl

/-! ### `drawn` -/

@[simp] theorem drawn_cpu : (drawn s).cpu = s.cpu := rfl
@[simp] theorem drawn_mem : (drawn s).mem = s.mem := rfl
@[simp] theorem drawn_display : (drawn s).display = s.display := rfl
@[simp] theorem drawn_keypad : (drawn s).keypad = s.keypad := rfl
@[simp] theorem drawn_audio : (drawn s).audio = s.audio := rfl
@[simp] theorem drawn_seq : (drawn s).seq = s.seq := rfl
@[simp] theorem drawn_quirks : (drawn s).quirks = s.quirks := rfl
@[simp] theorem drawn_status : (drawn s).status = s.status := rfl
@[simp] theorem drawn_rand : (drawn s).rand = { s.rand with index := s.rand.index + 1 } := rfl

/-! ### `redraw` -/

@[simp] theorem redraw_cpu (f : Plane → Plane) : (redraw s f).cpu = s.cpu := rfl
@[simp] theorem redraw_mem (f : Plane → Plane) : (redraw s f).mem = s.mem := rfl
@[simp] theorem redraw_display_planes (f : Plane → Plane) : (redraw s f).display.planes = mapSelected s.display f := rfl
@[simp] theorem redraw_display_hires (f : Plane → Plane) : (redraw s f).display.hires = s.display.hires := rfl
@[simp] theorem redraw_display_planeMask (f : Plane → Plane) : (redraw s f).display.planeMask = s.display.planeMask := rfl
@[simp] theorem redraw_display_dirty (f : Plane → Plane) : (redraw s f).display.dirty = true := rfl
@[simp] theorem redraw_display_pendingVblank (f : Plane → Plane) : (redraw s f).display.pendingVblank = s.display.pendingVblank := rfl
@[simp] theorem redraw_keypad (f : Plane → Plane) : (redraw s f).keypad = s.keypad := rfl
@[simp] theorem redraw_audio (f : Plane → Plane) : (redraw s f).audio = s.audio := rfl
@[simp] theorem redraw_seq (f : Plane → Plane) : (redraw s f).seq = s.seq := rfl
@[simp] theorem redraw_quirks (f : Plane → Plane) : (redraw s f).quirks = s.quirks := rfl
@[simp] theorem redraw_status (f : Plane → Plane) : (redraw s f).status = s.status := rfl
@[simp] theorem redraw_rand (f : Plane → Plane) : (redraw s f).rand = s.rand := rfl

/-! ### `setHires` -/

@[simp] theorem setHires_cpu (b : Bool) : (setHires s b).cpu = s.cpu := rfl
@[simp] theorem setHires_mem (b : Bool) : (setHires s b).mem = s.mem := rfl
@[simp] theorem setHires_display_planes (b : Bool) : (setHires s b).display.planes = s.display.planes := rfl
@[simp] theorem setHires_display_hires (b : Bool) : (setHires s b).display.hires = b := rfl
@[simp] theorem setHires_display_planeMask (b : Bool) : (setHires s b).display.planeMask = s.display.planeMask := rfl
@[simp] theorem setHires_display_dirty (b : Bool) : (setHires s b).display.dirty = s.display.dirty := rfl
@[simp] theorem setHires_display_pendingVblank (b : Bool) : (setHires s b).display.pendingVblank = s.display.pendingVblank := rfl
@[simp] theorem setHires_keypad (b : Bool) : (setHires s b).keypad = s.keypad := rfl
@[simp] theorem setHires_audio (b : Bool) : (setHires s b).audio = s.audio := rfl
@[simp] theorem setHires_seq (b : Bool) : (setHires s b).seq = s.seq := rfl
@[simp] theorem setHires_quirks (b : Bool) : (setHires s b).quirks = s.quirks := rfl
@[simp] theorem setHires_status (b : Bool) : (setHires s b).status = s.status := rfl
@[simp] theorem setHires_rand (b : Bool) : (setHires s b).rand = s.rand := rfl

/-! ### `setPlaneMask` -/

@[simp] theorem setPlaneMask_cpu (m : BitVec 4) : (setPlaneMask s m).cpu = s.cpu := rfl
@[simp] theorem setPlaneMask_mem (m : BitVec 4) : (setPlaneMask s m).mem = s.mem := rfl
@[simp] theorem setPlaneMask_display_planes (m : BitVec 4) : (setPlaneMask s m).display.planes = s.display.planes := rfl
@[simp] theorem setPlaneMask_display_hires (m : BitVec 4) : (setPlaneMask s m).display.hires = s.display.hires := rfl
@[simp] theorem setPlaneMask_display_planeMask (m : BitVec 4) : (setPlaneMask s m).display.planeMask = m := rfl
@[simp] theorem setPlaneMask_display_dirty (m : BitVec 4) : (setPlaneMask s m).display.dirty = s.display.dirty := rfl
@[simp] theorem setPlaneMask_display_pendingVblank (m : BitVec 4) : (setPlaneMask s m).display.pendingVblank = s.display.pendingVblank := rfl
@[simp] theorem setPlaneMask_keypad (m : BitVec 4) : (setPlaneMask s m).keypad = s.keypad := rfl
@[simp] theorem setPlaneMask_audio (m : BitVec 4) : (setPlaneMask s m).audio = s.audio := rfl
@[simp] theorem setPlaneMask_seq (m : BitVec 4) : (setPlaneMask s m).seq = s.seq := rfl
@[simp] theorem setPlaneMask_quirks (m : BitVec 4) : (setPlaneMask s m).quirks = s.quirks := rfl
@[simp] theorem setPlaneMask_status (m : BitVec 4) : (setPlaneMask s m).status = s.status := rfl
@[simp] theorem setPlaneMask_rand (m : BitVec 4) : (setPlaneMask s m).rand = s.rand := rfl

/-! ### `clearPendingVblank` -/

@[simp] theorem clearPendingVblank_cpu : (clearPendingVblank s).cpu = s.cpu := rfl
@[simp] theorem clearPendingVblank_mem : (clearPendingVblank s).mem = s.mem := rfl
@[simp] theorem clearPendingVblank_display_planes : (clearPendingVblank s).display.planes = s.display.planes := rfl
@[simp] theorem clearPendingVblank_display_hires : (clearPendingVblank s).display.hires = s.display.hires := rfl
@[simp] theorem clearPendingVblank_display_planeMask : (clearPendingVblank s).display.planeMask = s.display.planeMask := rfl
@[simp] theorem clearPendingVblank_display_dirty : (clearPendingVblank s).display.dirty = s.display.dirty := rfl
@[simp] theorem clearPendingVblank_display_pendingVblank : (clearPendingVblank s).display.pendingVblank = false := rfl
@[simp] theorem clearPendingVblank_keypad : (clearPendingVblank s).keypad = s.keypad := rfl
@[simp] theorem clearPendingVblank_audio : (clearPendingVblank s).audio = s.audio := rfl
@[simp] theorem clearPendingVblank_seq : (clearPendingVblank s).seq = s.seq := rfl
@[simp] theorem clearPendingVblank_quirks : (clearPendingVblank s).quirks = s.quirks := rfl
@[simp] theorem clearPendingVblank_status : (clearPendingVblank s).status = s.status := rfl
@[simp] theorem clearPendingVblank_rand : (clearPendingVblank s).rand = s.rand := rfl

/-! ### `latchKeypad` -/

@[simp] theorem latchKeypad_cpu : (latchKeypad s).cpu = s.cpu := rfl
@[simp] theorem latchKeypad_mem : (latchKeypad s).mem = s.mem := rfl
@[simp] theorem latchKeypad_display : (latchKeypad s).display = s.display := rfl
@[simp] theorem latchKeypad_keypad_pressed : (latchKeypad s).keypad.pressed = s.keypad.pressed := rfl
@[simp] theorem latchKeypad_keypad_prev : (latchKeypad s).keypad.prev = s.keypad.pressed := rfl
@[simp] theorem latchKeypad_audio : (latchKeypad s).audio = s.audio := rfl
@[simp] theorem latchKeypad_seq : (latchKeypad s).seq = s.seq := rfl
@[simp] theorem latchKeypad_quirks : (latchKeypad s).quirks = s.quirks := rfl
@[simp] theorem latchKeypad_status : (latchKeypad s).status = s.status := rfl
@[simp] theorem latchKeypad_rand : (latchKeypad s).rand = s.rand := rfl

/-! ### `setCycleAccum` -/

@[simp] theorem setCycleAccum_cpu (q : Rat) : (setCycleAccum s q).cpu = s.cpu := rfl
@[simp] theorem setCycleAccum_mem (q : Rat) : (setCycleAccum s q).mem = s.mem := rfl
@[simp] theorem setCycleAccum_display (q : Rat) : (setCycleAccum s q).display = s.display := rfl
@[simp] theorem setCycleAccum_keypad (q : Rat) : (setCycleAccum s q).keypad = s.keypad := rfl
@[simp] theorem setCycleAccum_audio (q : Rat) : (setCycleAccum s q).audio = s.audio := rfl
@[simp] theorem setCycleAccum_seq_tickrate (q : Rat) : (setCycleAccum s q).seq.tickrate = s.seq.tickrate := rfl
@[simp] theorem setCycleAccum_seq_cycleAccum (q : Rat) : (setCycleAccum s q).seq.cycleAccum = q := rfl
@[simp] theorem setCycleAccum_seq_timerAccum (q : Rat) : (setCycleAccum s q).seq.timerAccum = s.seq.timerAccum := rfl
@[simp] theorem setCycleAccum_quirks (q : Rat) : (setCycleAccum s q).quirks = s.quirks := rfl
@[simp] theorem setCycleAccum_status (q : Rat) : (setCycleAccum s q).status = s.status := rfl
@[simp] theorem setCycleAccum_rand (q : Rat) : (setCycleAccum s q).rand = s.rand := rfl

/-! ### `setTimerAccum` -/

@[simp] theorem setTimerAccum_cpu (q : Rat) : (setTimerAccum s q).cpu = s.cpu := rfl
@[simp] theorem setTimerAccum_mem (q : Rat) : (setTimerAccum s q).mem = s.mem := rfl
@[simp] theorem setTimerAccum_display (q : Rat) : (setTimerAccum s q).display = s.display := rfl
@[simp] theorem setTimerAccum_keypad (q : Rat) : (setTimerAccum s q).keypad = s.keypad := rfl
@[simp] theorem setTimerAccum_audio (q : Rat) : (setTimerAccum s q).audio = s.audio := rfl
@[simp] theorem setTimerAccum_seq_tickrate (q : Rat) : (setTimerAccum s q).seq.tickrate = s.seq.tickrate := rfl
@[simp] theorem setTimerAccum_seq_cycleAccum (q : Rat) : (setTimerAccum s q).seq.cycleAccum = s.seq.cycleAccum := rfl
@[simp] theorem setTimerAccum_seq_timerAccum (q : Rat) : (setTimerAccum s q).seq.timerAccum = q := rfl
@[simp] theorem setTimerAccum_quirks (q : Rat) : (setTimerAccum s q).quirks = s.quirks := rfl
@[simp] theorem setTimerAccum_status (q : Rat) : (setTimerAccum s q).status = s.status := rfl
@[simp] theorem setTimerAccum_rand (q : Rat) : (setTimerAccum s q).rand = s.rand := rfl

/-! ### `setPressed` -/

@[simp] theorem setPressed_cpu (k : Fin 16) (b : Bool) : (setPressed s k b).cpu = s.cpu := rfl
@[simp] theorem setPressed_mem (k : Fin 16) (b : Bool) : (setPressed s k b).mem = s.mem := rfl
@[simp] theorem setPressed_display (k : Fin 16) (b : Bool) : (setPressed s k b).display = s.display := rfl
@[simp] theorem setPressed_keypad_pressed (k : Fin 16) (b : Bool) : (setPressed s k b).keypad.pressed = s.keypad.pressed.set k.val b := rfl
@[simp] theorem setPressed_keypad_prev (k : Fin 16) (b : Bool) : (setPressed s k b).keypad.prev = s.keypad.prev := rfl
@[simp] theorem setPressed_audio (k : Fin 16) (b : Bool) : (setPressed s k b).audio = s.audio := rfl
@[simp] theorem setPressed_seq (k : Fin 16) (b : Bool) : (setPressed s k b).seq = s.seq := rfl
@[simp] theorem setPressed_quirks (k : Fin 16) (b : Bool) : (setPressed s k b).quirks = s.quirks := rfl
@[simp] theorem setPressed_status (k : Fin 16) (b : Bool) : (setPressed s k b).status = s.status := rfl
@[simp] theorem setPressed_rand (k : Fin 16) (b : Bool) : (setPressed s k b).rand = s.rand := rfl

/-! ### `setQuirks` -/

@[simp] theorem setQuirks_cpu (q : Quirks) : (setQuirks s q).cpu = s.cpu := rfl
@[simp] theorem setQuirks_mem (q : Quirks) : (setQuirks s q).mem = s.mem := rfl
@[simp] theorem setQuirks_display (q : Quirks) : (setQuirks s q).display = s.display := rfl
@[simp] theorem setQuirks_keypad (q : Quirks) : (setQuirks s q).keypad = s.keypad := rfl
@[simp] theorem setQuirks_audio (q : Quirks) : (setQuirks s q).audio = s.audio := rfl
@[simp] theorem setQuirks_seq (q : Quirks) : (setQuirks s q).seq = s.seq := rfl
@[simp] theorem setQuirks_quirks (q : Quirks) : (setQuirks s q).quirks = q := rfl
@[simp] theorem setQuirks_status (q : Quirks) : (setQuirks s q).status = s.status := rfl
@[simp] theorem setQuirks_rand (q : Quirks) : (setQuirks s q).rand = s.rand := rfl

/-! ### `setTickrate` -/

@[simp] theorem setTickrate_cpu (q : Rat) : (setTickrate s q).cpu = s.cpu := rfl
@[simp] theorem setTickrate_mem (q : Rat) : (setTickrate s q).mem = s.mem := rfl
@[simp] theorem setTickrate_display (q : Rat) : (setTickrate s q).display = s.display := rfl
@[simp] theorem setTickrate_keypad (q : Rat) : (setTickrate s q).keypad = s.keypad := rfl
@[simp] theorem setTickrate_audio (q : Rat) : (setTickrate s q).audio = s.audio := rfl
@[simp] theorem setTickrate_seq_tickrate (q : Rat) : (setTickrate s q).seq.tickrate = q := rfl
@[simp] theorem setTickrate_seq_cycleAccum (q : Rat) : (setTickrate s q).seq.cycleAccum = s.seq.cycleAccum := rfl
@[simp] theorem setTickrate_seq_timerAccum (q : Rat) : (setTickrate s q).seq.timerAccum = s.seq.timerAccum := rfl
@[simp] theorem setTickrate_quirks (q : Rat) : (setTickrate s q).quirks = s.quirks := rfl
@[simp] theorem setTickrate_status (q : Rat) : (setTickrate s q).status = s.status := rfl
@[simp] theorem setTickrate_rand (q : Rat) : (setTickrate s q).rand = s.rand := rfl

end Sys2Proof.Machine
end

