-- ==== Sys2Proof/Laws/Ops.lean ====
section
/-! SUPPORT. Laws/Ops: one lemma per shared operation that says once what it can do; later proofs cite these and do not
unfold the operations. -/

namespace Sys2Proof.Machine

/-! ### Registers -/

theorem readV_eq (s : State) (k : Reg) : readV s k = s.cpu.v[k.val] := rfl

@[simp] theorem readV_writeV (s : State) (x k : Reg) (b : Byte) :
    readV (writeV s x b) k = if k = x then b else readV s k := by
  simp only [readV, writeV_cpu_v, Vector.getElem_set, Fin.ext_iff, eq_comm (a := x.val)]

@[simp] theorem readV_advance (s : State) (k : Reg) : readV (advance s) k = readV s k := rfl
@[simp] theorem readV_setPc (s : State) (a : Word) (k : Reg) : readV (setPc s a) k = readV s k := rfl
@[simp] theorem readV_setI (s : State) (a : Word) (k : Reg) : readV (setI s a) k = readV s k := rfl
@[simp] theorem readV_setMem (s : State) (m : Memory) (k : Reg) : readV (setMem s m) k = readV s k := rfl
@[simp] theorem readV_drawn (s : State) (k : Reg) : readV (drawn s) k = readV s k := rfl

@[simp] theorem readFlag_writeFlag (s : State) (x k : Reg) (b : Byte) :
    readFlag (writeFlag s x b) k = if k = x then b else readFlag s k := by
  simp only [readFlag, writeFlag_cpu_flags, Vector.getElem_set, Fin.ext_iff, eq_comm (a := x.val)]

@[simp] theorem readFlag_advance (s : State) (k : Reg) : readFlag (advance s) k = readFlag s k := rfl

theorem vf_eq : vf = 15 := rfl

/-- The result goes first and the flag last, so the flag wins where they meet (41_alu.md R130). -/
@[simp] theorem readV_writeFlagged (s : State) (x k : Reg) (r : Flagged) :
    readV (writeFlagged s x r) k = if k = vf then flagByte r.flag else if k = x then r.value else readV s k := by
  simp [writeFlagged]

@[simp] theorem readV_writeLogic (s : State) (x k : Reg) (b : Byte) :
    readV (writeLogic s x b) k =
      if k = vf ∧ s.quirks.vfReset = true then 0 else if k = x then b else readV s k := by
  unfold writeLogic; split <;> simp_all

/-- A block write of registers changes only `V`. -/
theorem writeRegs_eq (rbs : List (Reg × Byte)) (s : State) :
    writeRegs s rbs = { s with cpu := { s.cpu with v := (writeRegs s rbs).cpu.v } } := by
  induction rbs generalizing s with
  | nil => rfl
  | cons rb rbs ih => exact (ih (writeV s rb.1 rb.2)).trans rfl

/-- A register that a block write does not name keeps its value. -/
theorem readV_writeRegs_of_notMem (rbs : List (Reg × Byte)) (s : State) (k : Reg) (h : ∀ rb ∈ rbs, rb.1 ≠ k) :
    readV (writeRegs s rbs) k = readV s k := by
  induction rbs generalizing s with
  | nil => rfl
  | cons rb rbs ih =>
    have h1 := ih (writeV s rb.1 rb.2) fun r hr => h r (by simp [hr])
    rw [show writeRegs s (rb :: rbs) = writeRegs (writeV s rb.1 rb.2) rbs from rfl, h1, readV_writeV,
      if_neg (h rb (by simp)).symm]

/-- A register that a block write names once gets its byte. -/
theorem readV_writeRegs_of_mem (rbs : List (Reg × Byte)) (s : State) (k : Reg) (b : Byte)
    (hn : (rbs.map Prod.fst).Nodup) (h : (k, b) ∈ rbs) : readV (writeRegs s rbs) k = b := by
  induction rbs generalizing s with
  | nil => simp at h
  | cons rb rbs ih =>
    rw [List.map_cons, List.nodup_cons] at hn
    change readV (writeRegs (writeV s rb.1 rb.2) rbs) k = b
    rcases List.mem_cons.mp h with rfl | h
    · rw [readV_writeRegs_of_notMem _ _ _ fun r hr he =>
        hn.1 (List.mem_map.mpr ⟨r, hr, he⟩)]
      simp
    · exact ih _ hn.2 h

/-- A block write of the flags file changes only `F`. -/
theorem writeFlags_eq (rbs : List (Reg × Byte)) (s : State) :
    writeFlags s rbs = { s with cpu := { s.cpu with flags := (writeFlags s rbs).cpu.flags } } := by
  induction rbs generalizing s with
  | nil => rfl
  | cons rb rbs ih => exact (ih (writeFlag s rb.1 rb.2)).trans rfl

theorem readFlag_writeFlags_of_notMem (rbs : List (Reg × Byte)) (s : State) (k : Reg) (h : ∀ rb ∈ rbs, rb.1 ≠ k) :
    readFlag (writeFlags s rbs) k = readFlag s k := by
  induction rbs generalizing s with
  | nil => rfl
  | cons rb rbs ih =>
    have h1 := ih (writeFlag s rb.1 rb.2) fun r hr => h r (by simp [hr])
    rw [show writeFlags s (rb :: rbs) = writeFlags (writeFlag s rb.1 rb.2) rbs from rfl, h1, readFlag_writeFlag,
      if_neg (h rb (by simp)).symm]

theorem readFlag_writeFlags_of_mem (rbs : List (Reg × Byte)) (s : State) (k : Reg) (b : Byte)
    (hn : (rbs.map Prod.fst).Nodup) (h : (k, b) ∈ rbs) : readFlag (writeFlags s rbs) k = b := by
  induction rbs generalizing s with
  | nil => simp at h
  | cons rb rbs ih =>
    rw [List.map_cons, List.nodup_cons] at hn
    change readFlag (writeFlags (writeFlag s rb.1 rb.2) rbs) k = b
    rcases List.mem_cons.mp h with rfl | h
    · rw [readFlag_writeFlags_of_notMem _ _ _ fun r hr he =>
        hn.1 (List.mem_map.mpr ⟨r, hr, he⟩)]
      simp
    · exact ih _ hn.2 h

/-! ### Register ranges -/

theorem length_regRange (x y : Reg) : (regRange x y).length = rangeLength x y := by
  unfold regRange rangeLength
  split <;> rename_i h <;> simp only [List.length_map, List.length_range] <;>
    simp only [Fin.le_def] at h <;> omega

theorem getElem?_regRange (x y : Reg) (k : Nat) (h : k < rangeLength x y) :
    (regRange x y)[k]? = some (Fin.ofNat 16 (rangeEntry x y k)) := by
  unfold rangeLength at h
  unfold regRange rangeEntry
  split <;> rename_i hxy <;> simp only [Fin.le_def] at hxy
  · rw [if_pos hxy, List.getElem?_map, List.getElem?_range (by omega)]; rfl
  · rw [if_neg hxy, List.getElem?_map, List.getElem?_range (by omega)]; rfl

theorem regRange_eq_map (x y : Reg) :
    regRange x y = (List.range (rangeLength x y)).map fun k => Fin.ofNat 16 (rangeEntry x y k) := by
  apply List.ext_getElem?
  intro k
  by_cases h : k < rangeLength x y
  · rw [getElem?_regRange x y k h]; simp [h]
  · rw [List.getElem?_eq_none (by rw [length_regRange]; omega), List.getElem?_eq_none (by simp; omega)]

theorem mem_regRange {x y r : Reg} : r ∈ regRange x y ↔ (x ≤ r ∧ r ≤ y) ∨ (y ≤ r ∧ r ≤ x) := by
  have := x.isLt; have := y.isLt; have := r.isLt
  unfold regRange
  split <;> rename_i hxy <;>
    simp only [List.mem_map, List.mem_range, Fin.ext_iff, Fin.val_ofNat, Fin.le_def] at hxy ⊢
  · constructor
    · rintro ⟨k, hk, he⟩; omega
    · intro h; exact ⟨r.val - x.val, by omega, by omega⟩
  · constructor
    · rintro ⟨k, hk, he⟩; omega
    · intro h; exact ⟨x.val - r.val, by omega, by omega⟩

theorem nodup_regRange (x y : Reg) : (regRange x y).Nodup := by
  have := x.isLt; have := y.isLt
  unfold regRange
  split <;> rename_i hxy <;> simp only [Fin.le_def] at hxy <;>
    refine List.Nodup.map_on (fun a ha b hb h => ?_) List.nodup_range <;>
    simp only [List.mem_range, Fin.ext_iff, Fin.val_ofNat] at ha hb h <;> omega

theorem length_regsUpTo (x : Reg) : (regsUpTo x).length = x.val + 1 := by
  simp [regsUpTo, length_regRange, rangeLength]

theorem getElem?_regsUpTo (x : Reg) (k : Nat) (h : k < x.val + 1) : (regsUpTo x)[k]? = some (Fin.ofNat 16 k) := by
  rw [regsUpTo, getElem?_regRange _ _ _ (by simp [rangeLength]; omega)]; simp [rangeEntry]

theorem mem_regsUpTo {x r : Reg} : r ∈ regsUpTo x ↔ r ≤ x := by
  simp only [regsUpTo, mem_regRange, Fin.le_def]
  change (0 ≤ r.val ∧ _) ∨ (_ ∧ r.val ≤ 0) ↔ _
  omega

theorem nodup_regsUpTo (x : Reg) : (regsUpTo x).Nodup := nodup_regRange 0 x

theorem regsUpTo_eq (x : Reg) : regsUpTo x = (List.finRange 16).filter (· ≤ x) := by
  revert x; decide

@[simp] theorem length_readRegs (s : State) (rs : List Reg) : (readRegs s rs).length = rs.length := by
  simp [readRegs]

/-! ### The stack -/

theorem stackSlot_pushReturn (s : State) (a : Word) (k : Byte) :
    stackSlot (pushReturn s a) k = if k = s.cpu.sp then a else stackSlot s k := by
  simp only [stackSlot, pushReturn_cpu_stack, Vector.getElem_set]
  simp only [← BitVec.toNat_inj, eq_comm (a := s.cpu.sp.toNat)]

/-! ### Checked accesses -/

/-- A word fetch is the big-endian word, or the fault, exactly as its address says (20_memory.md R64). -/
theorem fetchWord_eq (s : State) (a : Word) :
    fetchWord s a = if a.toNat = 65535 then .error (.fetchOutOfRange 65535)
      else .ok (joinBytes (s.mem.read a.toNat) (s.mem.read (a.toNat + 1))) := by
  have := a.isLt
  unfold fetchWord memSize
  by_cases h : a.toNat = 65535
  · rw [if_pos (by omega), if_pos h, h]
  · rw [if_neg (by omega), if_neg h]

@[simp] theorem fetchWord_advance (s : State) (a : Word) : fetchWord (advance s) a = fetchWord s a := rfl

/-- The word a fault records is the first word of the instruction, where there is one (60_exceptions.md R272). -/
theorem toOption_fetchWord_pc (s : State) : (fetchWord s s.cpu.pc).toOption = wordAtPc s := by
  have := s.cpu.pc.isLt
  rw [fetchWord_eq, wordAtPc]
  split_ifs with h1 h2 h2
  · omega
  · rfl
  · rw [← joinBytes_eq_ofNat]; rfl
  · omega

/-- Taking a fault changes only `status` (R272). -/
theorem takeFault_eq (k : Fault) (s : State) : takeFault k s = afterFault s k := by
  rw [takeFault, toOption_fetchWord_pc, afterFault]

theorem memRead_ok {s : State} {a n : Nat} (h : a + n ≤ 65536) : memRead s a n = .ok (s.mem.readBytes a n) := by
  rw [memRead, memSize, if_neg (by omega)]

theorem memRead_error {s : State} {a n : Nat} (h : 65536 < a + n) : memRead s a n = .error (.memOutOfRange a) := by
  rw [memRead, memSize, if_pos h]

theorem memWrite_ok {s : State} {a : Nat} {bs : List Byte} (h : a + bs.length ≤ 65536) :
    memWrite s a bs = .ok (s.mem.writeBytes a bs) := by
  rw [memWrite, memSize, if_neg (by omega)]

theorem memWrite_error {s : State} {a : Nat} {bs : List Byte} (h : 65536 < a + bs.length) :
    memWrite s a bs = .error (.memOutOfRange a) := by
  rw [memWrite, memSize, if_pos h]

@[simp] theorem orFault_ok {α : Type} (s : State) (a : α) (k : α → State) : orFault s (.ok a) k = k a := rfl

@[simp] theorem orFault_error {α : Type} (s : State) (f : Fault) (k : α → State) :
    orFault s (.error f) k = takeFault f s := rfl

/-- What a checked access and its continuation can do: go on, or take the fault. -/
theorem orFault_cases {α : Type} (s : State) (r : Except Fault α) (k : α → State) :
    (∃ a, r = .ok a ∧ orFault s r k = k a) ∨ (∃ f, r = .error f ∧ orFault s r k = takeFault f s) := by
  cases r with
  | ok a => exact .inl ⟨a, rfl, rfl⟩
  | error f => exact .inr ⟨f, rfl, rfl⟩

/-- A checked store that goes through keeps the memory's canonical form. -/
theorem wf_memWrite {s : State} {a : Nat} {bs : List Byte} {m : Memory} (h : s.mem.wf) (hm : memWrite s a bs = .ok m) :
    m.wf := by
  unfold memWrite at hm
  split at hm
  · cases hm
  · injection hm with hm
    subst hm
    exact Memory.wf_writeBytes h _ _ (by omega)

/-- Memory is in canonical form after reset. -/
theorem wf_reset : State.reset.mem.wf := Memory.wf_nil

/-! ### Skips -/

/-- What a skip can do: fault on its look-ahead, or move `PC` (40_flow.md R102). -/
theorem skip_cases (s : State) :
    (s.cpu.pc + 2 = 0xFFFF ∧ skip s = takeFault (.fetchOutOfRange 0xFFFF) s) ∨
      (s.cpu.pc + 2 ≠ 0xFFFF ∧ skip s = setPc s (s.cpu.pc + 2 + skipLength
        (joinBytes (s.mem.read (s.cpu.pc + 2).toNat) (s.mem.read ((s.cpu.pc + 2).toNat + 1))))) := by
  unfold skip
  rw [fetchWord_eq]
  split
  · rename_i h
    exact .inl ⟨BitVec.eq_of_toNat_eq h, rfl⟩
  · rename_i h
    exact .inr ⟨fun hh => h (by rw [show (advance s).cpu.pc = s.cpu.pc + 2 from rfl, hh]; rfl), rfl⟩

/-- What a conditional skip can do. -/
theorem skipIf_cases (s : State) (c : Bool) : (∃ f, skipIf c s = takeFault f s) ∨ ∃ a, skipIf c s = setPc s a := by
  unfold skipIf
  split
  · rcases skip_cases s with ⟨_, h⟩ | ⟨_, h⟩ <;> rw [h]
    · exact .inl ⟨_, rfl⟩
    · exact .inr ⟨_, rfl⟩
  · exact .inr ⟨_, rfl⟩

/-! ### Write-back -/

/-- The write-back changes only `I`, to the value the policy gives (42_index_memory.md R166). -/
theorem writeBack_eq (s : State) (x : Reg) : writeBack s x = setI s (indexAfterBlock s x) := by
  have key : ∀ n : Nat, s.cpu.i + BitVec.ofNat 16 n = BitVec.ofNat 16 (s.cpu.i.toNat + n) := fun n => by
    apply BitVec.eq_of_toNat_eq; simp
  unfold writeBack indexAfterBlock
  split_ifs
  · rfl
  · rw [key]
  · rw [key, Nat.add_assoc]

end Sys2Proof.Machine
end

