-- ==== Sys2Proof/Laws/Display.lean ====
section
/-! SUPPORT. Laws/Display: what the raster operations do to one cell, and which logical pixels a draw toggles. -/

namespace Sys2Proof.Machine

/-! ### Plane selection -/

theorem mem_sel {d : Display} {p : Fin 4} : p ∈ sel d ↔ d.planeMask.getLsbD p.val = true := by
  unfold sel selected
  rw [List.mem_filter]
  have all : ∀ p : Fin 4, p ∈ ([0, 1, 2, 3] : List (Fin 4)) := by decide
  exact ⟨fun h => h.2, fun h => ⟨all p, h⟩⟩

theorem nodup_sel (d : Display) : (sel d).Nodup := List.Nodup.filter _ (by decide)

theorem sel_eq_nil {d : Display} : sel d = [] ↔ d.planeMask = 0 := by
  unfold sel selected
  generalize d.planeMask = m
  revert m; decide

theorem isEmpty_sel {d : Display} : (sel d).isEmpty = true ↔ d.planeMask = 0 := by
  rw [List.isEmpty_iff, sel_eq_nil]

/-- A cell after a function of whole planes (44_display.md R201). -/
theorem cell_mapSelected (d : Display) (f : Plane → Plane) (p : Fin 4) (r : Fin 64) (c : Fin 128) :
    cell (mapSelected d f) p r c =
      if d.planeMask.getLsbD p.val then (f d.planes[p.val])[r.val].getLsbD c.val else cell d.planes p r c := by
  unfold cell mapSelected selected
  rw [Vector.getElem_ofFn]
  split <;> rfl

theorem scrollAmount_eq (s : State) (a : Nat) :
    scrollAmount s a = if s.display.hires = false ∧ s.quirks.scaleScroll = true then 2 * a else a := by
  unfold scrollAmount
  cases s.display.hires <;> cases s.quirks.scaleScroll <;> rfl

/-- Two rasters with the same cells are equal. -/
theorem raster_ext {a b : Raster} (h : ∀ p r c, cell a p r c = cell b p r c) : a = b := by
  apply Vector.ext; intro p hp
  apply Vector.ext; intro r hr
  apply BitVec.eq_of_getLsbD_eq; intro c hc
  exact h ⟨p, hp⟩ ⟨r, hr⟩ ⟨c, hc⟩

/-! ### Toggling cells -/

/-- A toggle inverts its own cell and no other. -/
theorem cell_toggleCell (ras : Raster) (p q : Fin 4) (rc : Fin 64 × Fin 128) (r : Fin 64) (c : Fin 128) :
    cell (toggleCell ras p rc) q r c = (cell ras q r c ^^ decide (p = q ∧ rc = (r, c))) := by
  obtain ⟨a, b⟩ := rc
  unfold cell toggleCell
  by_cases hp : p = q
  · subst hp
    rw [Vector.getElem_set_self]
    by_cases hr : a = r
    · subst hr
      rw [Vector.getElem_set_self, BitVec.getLsbD_xor, BitVec.getLsbD_twoPow]
      congr 1
      by_cases hc : b = c
      · subst hc; simp
      · have : b.val ≠ c.val := fun h => hc (Fin.ext h)
        simp [hc, this]
    · rw [Vector.getElem_set_ne _ _ (fun h => hr (Fin.ext h))]
      simp [hr]
  · rw [Vector.getElem_set_ne _ _ (fun h => hp (Fin.ext h))]
    simp [hp]

/-- Toggling a list of different cells inverts exactly those. -/
theorem cell_foldl_toggleCell (cs : List (Fin 64 × Fin 128)) (hn : cs.Nodup) (ras : Raster) (p q : Fin 4)
    (r : Fin 64) (c : Fin 128) :
    cell (cs.foldl (fun ras rc => toggleCell ras p rc) ras) q r c =
      (cell ras q r c ^^ decide (p = q ∧ (r, c) ∈ cs)) := by
  induction cs generalizing ras with
  | nil => simp
  | cons rc cs ih =>
    rw [List.nodup_cons] at hn
    rw [List.foldl_cons, ih hn.2, cell_toggleCell]
    by_cases hp : p = q
    · subst hp
      by_cases h : rc = (r, c)
      · subst h; simp [hn.1]
      · have : (r, c) ≠ rc := fun e => h e.symm
        simp [h, this]
    · simp [hp]

/-! ### Cells of a logical pixel (44_display.md R200) -/

theorem nodup_cellsOf (hires : Bool) (lx ly : Nat) : (cellsOf hires lx ly).Nodup := by
  unfold cellsOf
  split
  · simp
  · simp only [List.nodup_cons, List.mem_cons, Prod.mk.injEq, Fin.ext_iff, Fin.val_ofNat, List.not_mem_nil, or_false,
      rasterW, rasterH, not_false_eq_true, List.nodup_nil, and_true]
    omega

/-- Inside the logical grid the cells of a pixel are those that `CellOf` says. -/
theorem mem_cellsOf {hires : Bool} {lx ly : Nat} (hx : lx < logicalWidth hires) (hy : ly < logicalHeight hires)
    (r : Fin 64) (c : Fin 128) : (r, c) ∈ cellsOf hires lx ly ↔ CellOf hires lx ly r c := by
  unfold cellsOf CellOf
  cases hires
  · simp only [logicalWidth, logicalHeight, rasterW, rasterH, loresW, loresH, Bool.false_eq_true, if_false] at *
    simp only [List.mem_cons, Prod.mk.injEq, Fin.ext_iff, Fin.val_ofNat, List.not_mem_nil, or_false]
    omega
  · simp only [logicalWidth, logicalHeight, rasterW, rasterH, loresW, loresH, if_true] at *
    simp only [List.mem_cons, Prod.mk.injEq, Fin.ext_iff, Fin.val_ofNat, List.not_mem_nil, or_false]
    omega

/-- A cell belongs to one logical pixel only. -/
theorem cellOf_unique {hires : Bool} {lx ly lx' ly' : Nat} {r : Fin 64} {c : Fin 128} (h : CellOf hires lx ly r c)
    (h' : CellOf hires lx' ly' r c) : lx = lx' ∧ ly = ly' := by
  unfold CellOf at h h'
  cases hires <;> simp only [Bool.false_eq_true, if_false, if_true] at h h' <;> omega

/-! ### Which pixels a draw toggles (R212 to R214) -/

/-- A pixel lands inside the logical grid. -/
theorem landing_lt {hires wrapped : Bool} {px py lx ly : Nat} (h : landing hires wrapped px py = some (lx, ly)) :
    lx < logicalWidth hires ∧ ly < logicalHeight hires := by
  have hw : 0 < logicalWidth hires := by unfold logicalWidth; split <;> decide
  have hh : 0 < logicalHeight hires := by unfold logicalHeight; split <;> decide
  unfold landing at h
  split at h
  · injection h with h; injection h with h1 h2
    subst h1 h2; exact ⟨Nat.mod_lt _ hw, Nat.mod_lt _ hh⟩
  · split at h
    · cases h
    · rename_i hn
      injection h with h; injection h with h1 h2
      subst h1 h2
      simpa using hn

/-- Two pixels of one sprite that land on the same logical pixel are the same. -/
theorem landing_inj {hires wrapped : Bool} {x y i j i' j' lx ly : Nat} (hi : i < 16) (hj : j < 16) (hi' : i' < 16)
    (hj' : j' < 16) (h : landing hires wrapped (x + i) (y + j) = some (lx, ly))
    (h' : landing hires wrapped (x + i') (y + j') = some (lx, ly)) : i = i' ∧ j = j' := by
  unfold landing at h h'
  cases hires <;> simp only [logicalWidth, logicalHeight, rasterW, rasterH, loresW, loresH, Bool.false_eq_true, if_false, if_true] at h h' <;>
    · split at h
      · injection h with h; injection h with h1 h2
        rw [if_pos ‹_›] at h'
        injection h' with h'; injection h' with h3 h4; omega
      · rw [if_neg ‹_›] at h'
        split at h <;> split at h' <;> try contradiction
        injection h with h; injection h with h1 h2
        injection h' with h'; injection h' with h3 h4; omega

theorem spriteShape_le (n : Fin 16) : (spriteShape n).w ≤ 16 ∧ (spriteShape n).h ≤ 16 := by
  revert n; decide

theorem len_spriteShape (n : Fin 16) : (spriteShape n).len = if n.val = 0 then 32 else n.val := by
  revert n; decide

/-- A drawn pixel is a set bit that lands. -/
theorem mem_drawnPixels {d : Display} {bytes : List Byte} {sh : SpriteShape} {wrap : Bool} {x y : Nat}
    {q : Fin 4 × Nat × Nat} :
    q ∈ drawnPixels d bytes sh wrap x y ↔
      ∃ k j i, (sel d)[k]? = some q.1 ∧ j < sh.h ∧ i < sh.w ∧ spriteBit bytes sh k j i = true ∧
        landing d.hires (wrapEff d.hires wrap x y) (x + i) (y + j) = some q.2 := by
  unfold drawnPixels
  simp only [List.mem_flatMap, List.mem_filterMap, List.mem_range, Option.ite_none_right_eq_some,
    Option.map_eq_some_iff, Prod.exists, List.mk_mem_zipIdx_iff_getElem?]
  constructor
  · rintro ⟨p, k, hk, j, hj, i, hi, hb, u, v, hl, rfl⟩
    exact ⟨k, j, i, hk, hj, hi, hb, hl⟩
  · rintro ⟨k, j, i, hk, hj, hi, hb, hl⟩
    exact ⟨q.1, k, hk, j, hj, i, hi, hb, q.2.1, q.2.2, hl, rfl⟩

/-- A draw toggles no logical pixel twice. -/
theorem nodup_drawnPixels (d : Display) (bytes : List Byte) {sh : SpriteShape} (hw : sh.w ≤ 16) (hh : sh.h ≤ 16)
    (wrap : Bool) (x y : Nat) : (drawnPixels d bytes sh wrap x y).Nodup := by
  unfold drawnPixels
  rw [List.nodup_flatMap]
  refine ⟨fun pk _ => ?_, ?_⟩
  · rw [List.nodup_flatMap]
    refine ⟨fun j hj => ?_, ?_⟩
    · rw [List.Nodup, List.pairwise_filterMap]
      refine List.Pairwise.imp_of_mem (fun {i i'} hi hi' hne => ?_) List.nodup_range
      rw [List.mem_range] at hi hi' hj
      intro b hb b' hb' hbb
      subst hbb
      rw [Option.ite_none_right_eq_some, Option.map_eq_some_iff] at hb hb'
      obtain ⟨-, q, hq, rfl⟩ := hb
      obtain ⟨-, q', hq', he⟩ := hb'
      injection he with _ he; subst he
      exact hne (landing_inj (by omega) (by omega) (by omega) (by omega) hq hq').1
    · refine List.Pairwise.imp_of_mem (fun {j j'} hj hj' hne => ?_) List.nodup_range
      rw [List.mem_range] at hj hj'
      rw [Function.onFun, List.disjoint_left]
      intro b hb hb'
      simp only [List.mem_filterMap, List.mem_range, Option.ite_none_right_eq_some, Option.map_eq_some_iff] at hb hb'
      obtain ⟨i, hi, -, q, hq, rfl⟩ := hb
      obtain ⟨i', hi', -, q', hq', he⟩ := hb'
      injection he with _ he; subst he
      exact hne (landing_inj (by omega) (by omega) (by omega) (by omega) hq hq').2
  · have hz : ((sel d).zipIdx.map Prod.fst).Nodup := by rw [List.zipIdx_map_fst]; exact nodup_sel d
    rw [List.Nodup, List.pairwise_map] at hz
    refine hz.imp fun {a b} hne => ?_
    rw [Function.onFun, List.disjoint_left]
    intro q hq hq'
    simp only [List.mem_flatMap, List.mem_filterMap, Option.ite_none_right_eq_some, Option.map_eq_some_iff] at hq hq'
    obtain ⟨_, _, _, _, _, _, _, rfl⟩ := hq
    obtain ⟨_, _, _, _, _, _, _, he⟩ := hq'
    injection he with he _
    exact hne he.symm

/-! ### Drawing a list of pixels -/

open Classical in
/-- Drawing different logical pixels of the grid inverts exactly the cells that belong to one of them. -/
theorem cell_drawPixels (hires : Bool) (qs : List (Fin 4 × Nat × Nat)) (hn : qs.Nodup)
    (hin : ∀ q ∈ qs, q.2.1 < logicalWidth hires ∧ q.2.2 < logicalHeight hires) (acc : Raster × Nat)
    (p : Fin 4) (r : Fin 64) (c : Fin 128) :
    cell (qs.foldl (drawPixel hires) acc).1 p r c =
      (cell acc.1 p r c ^^ decide (∃ lx ly, (p, lx, ly) ∈ qs ∧ CellOf hires lx ly r c)) := by
  induction qs generalizing acc with
  | nil => simp
  | cons q qs ih =>
    obtain ⟨p', lx, ly⟩ := q
    rw [List.nodup_cons] at hn
    have hq := hin _ List.mem_cons_self
    rw [List.foldl_cons, ih hn.2 fun q hq => hin q (List.mem_cons_of_mem _ hq)]
    have h1 : cell (drawPixel hires acc (p', lx, ly)).1 p r c =
        (cell acc.1 p r c ^^ decide (p' = p ∧ CellOf hires lx ly r c)) := by
      rw [drawPixel, cell_foldl_toggleCell _ (nodup_cellsOf _ _ _)]
      simp only [mem_cellsOf hq.1 hq.2]
    rw [h1, Bool.xor_assoc]
    congr 1
    by_cases hp : p' = p ∧ CellOf hires lx ly r c
    · obtain ⟨rfl, hc⟩ := hp
      have hno : ¬∃ lx ly, (p', lx, ly) ∈ qs ∧ CellOf hires lx ly r c := by
        rintro ⟨lx', ly', hm, hc'⟩
        obtain ⟨rfl, rfl⟩ := cellOf_unique hc hc'
        exact hn.1 hm
      have hyes : ∃ lx' ly', (p', lx', ly') ∈ (p', lx, ly) :: qs ∧ CellOf hires lx' ly' r c :=
        ⟨lx, ly, List.mem_cons_self, hc⟩
      simp only [hno, hyes, hc, and_self, decide_true, decide_false, Bool.xor_false]
    · have hiff : (∃ lx' ly', (p, lx', ly') ∈ (p', lx, ly) :: qs ∧ CellOf hires lx' ly' r c) ↔
          ∃ lx ly, (p, lx, ly) ∈ qs ∧ CellOf hires lx ly r c := by
        constructor
        · rintro ⟨lx', ly', hm, hc⟩
          rcases List.mem_cons.mp hm with he | hm
          · injection he with h1 h2; injection h2 with h2 h3; subst h1 h2 h3; exact absurd ⟨rfl, hc⟩ hp
          · exact ⟨lx', ly', hm, hc⟩
        · rintro ⟨lx', ly', hm, hc⟩; exact ⟨lx', ly', List.mem_cons_of_mem _ hm, hc⟩
      simp only [hp, hiff, decide_false, Bool.false_xor]

/-- Every pixel of a draw lies in the logical grid. -/
theorem drawnPixels_lt {d : Display} {bytes : List Byte} {sh : SpriteShape} {wrap : Bool} {x y : Nat} :
    ∀ q ∈ drawnPixels d bytes sh wrap x y, q.2.1 < logicalWidth d.hires ∧ q.2.2 < logicalHeight d.hires := by
  intro q hq
  obtain ⟨_, _, _, _, _, _, _, hl⟩ := mem_drawnPixels.mp hq
  exact landing_lt hl

/-! ### The covered cells, in the numbers of R211 to R213 -/

theorem logicalWidth_eq (d : Display) : logicalWidth d.hires = gridWidth d := rfl

theorem logicalHeight_eq (d : Display) : logicalHeight d.hires = gridHeight d := rfl

/-- The `k`-th selected plane is the selected plane of rank `k`. -/
theorem getElem?_sel {d : Display} {k : Nat} {p : Fin 4} :
    (sel d)[k]? = some p ↔ d.planeMask.getLsbD p.val = true ∧ k = planeRank d p := by
  have all : ∀ (m : BitVec 4) (p : Fin 4) (k : Fin 4),
      ((List.finRange 4).filter fun p => m.getLsbD p.val)[k.val]? = some p ↔
        m.getLsbD p.val = true ∧ k.val = (List.range p.val).countP m.getLsbD := by decide
  by_cases hk : k < 4
  · exact all d.planeMask p ⟨k, hk⟩
  · have hl : (sel d).length ≤ 4 := (List.length_filter_le _ _).trans (by simp)
    have hr : planeRank d p ≤ p.val := List.countP_le_length.trans (by simp)
    rw [List.getElem?_eq_none (by omega)]
    have := p.isLt
    simp; omega

/-- The bit test of the engine, as a bit of a number. -/
theorem spriteBit_iff {bytes : List Byte} {n : Fin 16} {k j i : Nat} (hi : i < (spriteShape n).w) :
    spriteBit bytes (spriteShape n) k j i = true ↔ BitSet bytes n k j i := by
  have hb : ∀ (b : Byte) (e : Nat), b.getLsbD e = true ↔ b.toNat / 2 ^ e % 2 = 1 := by
    intro b e
    rw [BitVec.getLsbD, Nat.testBit_eq_decide_div_mod_eq, decide_eq_true_eq]
  unfold spriteBit BitSet
  rw [hb, len_spriteShape]
  by_cases h : n.val = 0
  · simp [spriteShape, h]
  · have : i / 8 = 0 := by simp only [spriteShape, h, if_false] at hi; omega
    simp [spriteShape, h, this]

theorem wrapEff_iff {d : Display} {wrap : Bool} {x y : Nat} : wrapEff d.hires wrap x y = true ↔ Wraps d wrap x y := by
  simp only [wrapEff, Wraps, Bool.or_eq_true, decide_eq_true_eq, or_assoc]
  rfl

/-- Where the engine puts a sprite pixel, as R213 says it. -/
theorem landing_iff {d : Display} {wrap : Bool} {x y px py lx ly : Nat} :
    landing d.hires (wrapEff d.hires wrap x y) px py = some (lx, ly) ↔ LandsOn d wrap x y px py lx ly := by
  unfold landing LandsOn
  rw [logicalWidth_eq, logicalHeight_eq, ← wrapEff_iff]
  by_cases h : wrapEff d.hires wrap x y = true
  · simp [h, eq_comm]
  · simp only [h, Bool.false_eq_true, if_false, false_implies, not_false_eq_true, true_implies, true_and]
    by_cases hc : gridWidth d ≤ px ∨ gridHeight d ≤ py
    · simp [hc]; omega
    · simp [hc]; omega

/-- The drawn pixels, by the set bits they come from. -/
theorem mem_drawnPixels_iff {d : Display} {bytes : List Byte} {n : Fin 16} {wrap : Bool} {x y : Nat} {p : Fin 4}
    {lx ly : Nat} :
    (p, lx, ly) ∈ drawnPixels d bytes (spriteShape n) wrap x y ↔
      ∃ j i, (p, j, i) ∈ SetBits d bytes n ∧ LandsOn d wrap x y (x + i) (y + j) lx ly := by
  have hh : (spriteShape n).h = if n.val = 0 then 16 else n.val := by unfold spriteShape; split <;> rfl
  have hw : (spriteShape n).w = if n.val = 0 then 16 else 8 := by unfold spriteShape; split <;> rfl
  rw [mem_drawnPixels]
  simp only [getElem?_sel, landing_iff, SetBits, Set.mem_ofPred_eq]
  constructor
  · rintro ⟨k, j, i, ⟨hp, rfl⟩, hj, hi, hb, hl⟩
    exact ⟨j, i, ⟨hp, hh ▸ hj, hw ▸ hi, (spriteBit_iff hi).mp hb⟩, hl⟩
  · rintro ⟨j, i, ⟨hp, hj, hi, hb⟩, hl⟩
    exact ⟨_, j, i, ⟨hp, rfl⟩, hh ▸ hj, hw ▸ hi, (spriteBit_iff (hw ▸ hi)).mpr hb, hl⟩

/-- The cells of the drawn pixels are the covered cells. -/
theorem spriteCovers_iff {d : Display} {bytes : List Byte} {n : Fin 16} {wrap : Bool} {x y : Nat} {p : Fin 4}
    {r : Fin 64} {c : Fin 128} :
    SpriteCovers d bytes n wrap x y p r c ↔
      ∃ lx ly, (p, lx, ly) ∈ drawnPixels d bytes (spriteShape n) wrap x y ∧ CellOf d.hires lx ly r c := by
  simp only [mem_drawnPixels_iff, SetBits, Set.mem_ofPred_eq, SpriteCovers]
  constructor
  · rintro ⟨hp, j, i, hj, hi, hb, lx, ly, hl, hc⟩
    exact ⟨lx, ly, ⟨j, i, ⟨hp, hj, hi, hb⟩, hl⟩, hc⟩
  · rintro ⟨lx, ly, ⟨j, i, ⟨hp, hj, hi, hb⟩, hl⟩, hc⟩
    exact ⟨hp, j, i, hj, hi, hb, lx, ly, hl, hc⟩

/-! ### What a draw leaves -/

open Classical in
/-- A draw inverts exactly the covered cells. -/
theorem cell_drawSprite (d : Display) (bytes : List Byte) (n : Fin 16) (wrap : Bool) (x y : Nat) (p : Fin 4)
    (r : Fin 64) (c : Fin 128) :
    cell (drawSprite d bytes (spriteShape n) wrap x y).1.planes p r c =
      (cell d.planes p r c ^^ decide (SpriteCovers d bytes n wrap x y p r c)) := by
  rw [spriteCovers_iff]
  exact cell_drawPixels _ _ (nodup_drawnPixels _ _ (spriteShape_le n).1 (spriteShape_le n).2 _ _ _) drawnPixels_lt _ _ _ _

/-- Some cell of the logical pixel is set. -/
def pixelSet (hires : Bool) (ras : Raster) (q : Fin 4 × Nat × Nat) : Bool :=
  (cellsOf hires q.2.1 q.2.2).any fun rc => cell ras q.1 rc.1 rc.2

/-- Drawing one logical pixel leaves the cells of another. -/
theorem pixelSet_drawPixel {hires : Bool} {acc : Raster × Nat} {q q' : Fin 4 × Nat × Nat}
    (hq : q.2.1 < logicalWidth hires ∧ q.2.2 < logicalHeight hires)
    (hq' : q'.2.1 < logicalWidth hires ∧ q'.2.2 < logicalHeight hires) (hne : q ≠ q') :
    pixelSet hires (drawPixel hires acc q).1 q' = pixelSet hires acc.1 q' := by
  have h : ∀ rc ∈ cellsOf hires q'.2.1 q'.2.2,
      cell (drawPixel hires acc q).1 q'.1 rc.1 rc.2 = cell acc.1 q'.1 rc.1 rc.2 := by
    rintro ⟨r, c⟩ hrc
    rw [drawPixel, cell_foldl_toggleCell _ (nodup_cellsOf _ _ _)]
    have hno : ¬(q.1 = q'.1 ∧ (r, c) ∈ cellsOf hires q.2.1 q.2.2) := by
      rintro ⟨h1, h2⟩
      rw [mem_cellsOf hq.1 hq.2] at h2
      rw [mem_cellsOf hq'.1 hq'.2] at hrc
      obtain ⟨h3, h4⟩ := cellOf_unique h2 hrc
      exact hne (Prod.ext h1 (Prod.ext h3 h4))
    simp [hno]
  rw [Bool.eq_iff_iff, pixelSet, pixelSet, List.any_eq_true, List.any_eq_true]
  exact exists_congr fun rc => and_congr_right fun hrc => by rw [h rc hrc]

/-- The count of different logical pixels of the grid is the number of those with a set cell. -/
theorem count_drawPixels (hires : Bool) (qs : List (Fin 4 × Nat × Nat)) (hn : qs.Nodup)
    (hin : ∀ q ∈ qs, q.2.1 < logicalWidth hires ∧ q.2.2 < logicalHeight hires) (acc : Raster × Nat) :
    (qs.foldl (drawPixel hires) acc).2 = acc.2 + qs.countP (pixelSet hires acc.1) := by
  induction qs generalizing acc with
  | nil => simp
  | cons q qs ih =>
    rw [List.nodup_cons] at hn
    rw [List.foldl_cons, ih hn.2 fun q hq => hin q (List.mem_cons_of_mem _ hq), List.countP_cons]
    have h : qs.countP (pixelSet hires (drawPixel hires acc q).1) = qs.countP (pixelSet hires acc.1) :=
      List.countP_congr fun q' hq' => by
        rw [pixelSet_drawPixel (hin _ List.mem_cons_self) (hin _ (List.mem_cons_of_mem _ hq')) fun e => hn.1 (e ▸ hq')]
    rw [h]
    have hc : (drawPixel hires acc q).2 = if pixelSet hires acc.1 q then acc.2 + 1 else acc.2 := rfl
    rw [hc]
    split <;> omega

/-- The collision count of a draw (44_display.md R214, D15). -/
theorem count_drawSprite (d : Display) (bytes : List Byte) (n : Fin 16) (wrap : Bool) (x y : Nat) :
    (drawSprite d bytes (spriteShape n) wrap x y).2 =
      (drawnPixels d bytes (spriteShape n) wrap x y).countP (pixelSet d.hires d.planes) := by
  have h := count_drawPixels d.hires _ (nodup_drawnPixels d bytes (spriteShape_le n).1 (spriteShape_le n).2 wrap x y)
    drawnPixels_lt (d.planes, 0)
  rwa [Nat.zero_add] at h

end Sys2Proof.Machine
end

