-- ==== Sys2Proof/Laws/Fetch.lean ====
section
/-! SUPPORT. Laws/Fetch: what a fetch of the next instruction can give, in terms of the words at `PC`. -/

namespace Sys2Proof.Machine

/-- A short word at `PC` is the whole instruction (30_encoding.md R87). -/
theorem fetchInstr_short {s : State} {w : Word} (h : fetchWord s s.cpu.pc = .ok w) (hw : w ≠ longWord) :
    fetchInstr s = .ok (decodeShort w) := by
  have hl : isLong w = false := by simpa [isLong] using hw
  have hb : fetchBytes s = .ok (wordBytes [w]) := by rw [fetchBytes, h]; simp [hl]
  rw [fetchInstr, hb]
  have := decode_short_bytes w [] hw
  rw [List.append_nil] at this
  simp only [this]

/-- The long word at `PC` takes its operand from the word at the wrapped `PC + 2` (R100, R161). -/
theorem fetchInstr_long {s : State} {n : Word} (h : fetchWord s s.cpu.pc = .ok longWord)
    (h2 : fetchWord s (s.cpu.pc + 2) = .ok n) : fetchInstr s = .ok (.ldILong n) := by
  have hb : fetchBytes s = .ok (wordBytes [longWord, n]) := by
    simp only [fetchBytes, h, h2, isLong_iff, if_true]
  rw [fetchInstr, hb]
  have := decode_long_bytes n []
  rw [List.append_nil] at this
  simp only [this]

theorem fetchInstr_error {s : State} {f : Fault} (h : fetchWord s s.cpu.pc = .error f) :
    fetchInstr s = .error f := by
  rw [fetchInstr, fetchBytes, h]

theorem fetchInstr_long_error {s : State} {f : Fault} (h : fetchWord s s.cpu.pc = .ok longWord)
    (h2 : fetchWord s (s.cpu.pc + 2) = .error f) : fetchInstr s = .error f := by
  have hb : fetchBytes s = .error f := by
    simp only [fetchBytes, h, h2, isLong_iff, if_true]
  rw [fetchInstr, hb]

/-- Everything a fetch can do. In particular fetched bytes always decode, so the decoder's refusal is never reached. -/
theorem fetchInstr_cases (s : State) :
    (∃ w, w ≠ longWord ∧ fetchWord s s.cpu.pc = .ok w ∧ fetchInstr s = .ok (decodeShort w)) ∨
    (∃ n, fetchWord s s.cpu.pc = .ok longWord ∧ fetchWord s (s.cpu.pc + 2) = .ok n ∧
      fetchInstr s = .ok (.ldILong n)) ∨
    (fetchInstr s = .error (.fetchOutOfRange 65535)) := by
  have key : ∀ a : Word, (∃ w, fetchWord s a = .ok w) ∨ fetchWord s a = .error (.fetchOutOfRange 65535) := by
    intro a; rw [fetchWord_eq]; split <;> simp
  rcases key s.cpu.pc with ⟨w, hw⟩ | h
  · by_cases hl : w = longWord
    · subst hl
      rcases key (s.cpu.pc + 2) with ⟨n, hn⟩ | h2
      · exact .inr (.inl ⟨n, hw, hn, fetchInstr_long hw hn⟩)
      · exact .inr (.inr (fetchInstr_long_error hw h2))
    · exact .inl ⟨w, hl, hw, fetchInstr_short hw hl⟩
  · exact .inr (.inr (fetchInstr_error h))

/-- What one CPU step can do: nothing, the instruction at `PC`, or the fault of its fetch (40_flow.md R100). -/
theorem step_cases (s : State) :
    (s.status ≠ .running ∧ step s = .next s) ∨
    (s.status = .running ∧ ∃ i, fetchInstr s = .ok i ∧ step s = exec i s) ∨
    (s.status = .running ∧ ∃ f, fetchInstr s = .error f ∧ step s = .next (takeFault f s)) := by
  unfold step
  by_cases h : s.status = .running
  · rw [if_pos h]
    cases hf : fetchInstr s with
    | ok i => exact .inr (.inl ⟨h, i, rfl, rfl⟩)
    | error f => exact .inr (.inr ⟨h, f, rfl, rfl⟩)
  · rw [if_neg h]; exact .inl ⟨h, rfl⟩

/-- Placing an instruction at `PC` keeps the memory's canonical form. -/
theorem wf_storeAtPc {s : State} (h : s.mem.wf) (bs : List Byte) : (storeAtPc s bs).wf := by
  have key : ∀ (m : Memory) (a : Nat) (b : List Byte), m.wf → (writeIfFits m a b).wf := by
    intro m a b hm
    unfold writeIfFits
    split
    · exact Memory.wf_writeBytes hm _ _ ‹_›
    · exact hm
  exact key _ _ _ (key _ _ _ h)

end Sys2Proof.Machine
end

