-- ==== Sys2Proof/Laws/PerInstr.lean ====
section
/-! SUPPORT. Laws/PerInstr: statements made of every instruction as syntax, one lemma per constructor. -/

namespace Sys2Proof.Laws

/-- The length in words of an instruction is 2 for `F000 NNNN` and 1 for every other (30_encoding.md R80). -/
def EncodedLength.Statement (i : Instr) : Prop :=
  (encode i).length = if i.pattern = (Instr.ldILong 0).pattern then 2 else 1

theorem EncodedLength.scd (n : Fin 16) : EncodedLength.Statement (.scd n) := rfl
theorem EncodedLength.scu (n : Fin 16) : EncodedLength.Statement (.scu n) := rfl
theorem EncodedLength.cls : EncodedLength.Statement (.cls) := rfl
theorem EncodedLength.ret : EncodedLength.Statement (.ret) := rfl
theorem EncodedLength.scr : EncodedLength.Statement (.scr) := rfl
theorem EncodedLength.scl : EncodedLength.Statement (.scl) := rfl
theorem EncodedLength.exit : EncodedLength.Statement (.exit) := rfl
theorem EncodedLength.low : EncodedLength.Statement (.low) := rfl
theorem EncodedLength.high : EncodedLength.Statement (.high) := rfl
theorem EncodedLength.jp (nnn : BitVec 12) : EncodedLength.Statement (.jp nnn) := rfl
theorem EncodedLength.call (nnn : BitVec 12) : EncodedLength.Statement (.call nnn) := rfl
theorem EncodedLength.seImm (x : Reg) (nn : Byte) : EncodedLength.Statement (.seImm x nn) := rfl
theorem EncodedLength.sneImm (x : Reg) (nn : Byte) : EncodedLength.Statement (.sneImm x nn) := rfl
theorem EncodedLength.seReg (x y : Reg) : EncodedLength.Statement (.seReg x y) := rfl
theorem EncodedLength.saveRange (x y : Reg) : EncodedLength.Statement (.saveRange x y) := rfl
theorem EncodedLength.loadRange (x y : Reg) : EncodedLength.Statement (.loadRange x y) := rfl
theorem EncodedLength.ldImm (x : Reg) (nn : Byte) : EncodedLength.Statement (.ldImm x nn) := rfl
theorem EncodedLength.addImm (x : Reg) (nn : Byte) : EncodedLength.Statement (.addImm x nn) := rfl
theorem EncodedLength.ldReg (x y : Reg) : EncodedLength.Statement (.ldReg x y) := rfl
theorem EncodedLength.orReg (x y : Reg) : EncodedLength.Statement (.orReg x y) := rfl
theorem EncodedLength.andReg (x y : Reg) : EncodedLength.Statement (.andReg x y) := rfl
theorem EncodedLength.xorReg (x y : Reg) : EncodedLength.Statement (.xorReg x y) := rfl
theorem EncodedLength.addReg (x y : Reg) : EncodedLength.Statement (.addReg x y) := rfl
theorem EncodedLength.subReg (x y : Reg) : EncodedLength.Statement (.subReg x y) := rfl
theorem EncodedLength.shr (x y : Reg) : EncodedLength.Statement (.shr x y) := rfl
theorem EncodedLength.subnReg (x y : Reg) : EncodedLength.Statement (.subnReg x y) := rfl
theorem EncodedLength.shl (x y : Reg) : EncodedLength.Statement (.shl x y) := rfl
theorem EncodedLength.sneReg (x y : Reg) : EncodedLength.Statement (.sneReg x y) := rfl
theorem EncodedLength.ldI (nnn : BitVec 12) : EncodedLength.Statement (.ldI nnn) := rfl
theorem EncodedLength.jpV0 (nnn : BitVec 12) : EncodedLength.Statement (.jpV0 nnn) := rfl
theorem EncodedLength.rnd (x : Reg) (nn : Byte) : EncodedLength.Statement (.rnd x nn) := rfl
theorem EncodedLength.drw (x y : Reg) (n : Fin 16) : EncodedLength.Statement (.drw x y n) := rfl
theorem EncodedLength.skp (x : Reg) : EncodedLength.Statement (.skp x) := rfl
theorem EncodedLength.sknp (x : Reg) : EncodedLength.Statement (.sknp x) := rfl
theorem EncodedLength.ldILong (nnnn : Word) : EncodedLength.Statement (.ldILong nnnn) := rfl
theorem EncodedLength.plane (mask : BitVec 4) : EncodedLength.Statement (.plane mask) := rfl
theorem EncodedLength.audio (x : Fin 16) : EncodedLength.Statement (.audio x) := rfl
theorem EncodedLength.ldVxDT (x : Reg) : EncodedLength.Statement (.ldVxDT x) := rfl
theorem EncodedLength.ldVxK (x : Reg) : EncodedLength.Statement (.ldVxK x) := rfl
theorem EncodedLength.ldDTVx (x : Reg) : EncodedLength.Statement (.ldDTVx x) := rfl
theorem EncodedLength.ldSTVx (x : Reg) : EncodedLength.Statement (.ldSTVx x) := rfl
theorem EncodedLength.addI (x : Reg) : EncodedLength.Statement (.addI x) := rfl
theorem EncodedLength.ldF (x : Reg) : EncodedLength.Statement (.ldF x) := rfl
theorem EncodedLength.ldHF (x : Reg) : EncodedLength.Statement (.ldHF x) := rfl
theorem EncodedLength.ldB (x : Reg) : EncodedLength.Statement (.ldB x) := rfl
theorem EncodedLength.pitch (x : Reg) : EncodedLength.Statement (.pitch x) := rfl
theorem EncodedLength.storeRegs (x : Reg) : EncodedLength.Statement (.storeRegs x) := rfl
theorem EncodedLength.loadRegs (x : Reg) : EncodedLength.Statement (.loadRegs x) := rfl
theorem EncodedLength.saveFlags (x : Reg) : EncodedLength.Statement (.saveFlags x) := rfl
theorem EncodedLength.loadFlags (x : Reg) : EncodedLength.Statement (.loadFlags x) := rfl
theorem EncodedLength.noop0 (nnn : BitVec 12) : EncodedLength.Statement (.noop0 nnn) := rfl
theorem EncodedLength.noop5 (x y n : Fin 16) : EncodedLength.Statement (.noop5 x y n) := rfl
theorem EncodedLength.noop8 (x y n : Fin 16) : EncodedLength.Statement (.noop8 x y n) := rfl
theorem EncodedLength.noop9 (x y n : Fin 16) : EncodedLength.Statement (.noop9 x y n) := rfl
theorem EncodedLength.noopE (x : Fin 16) (nn : Byte) : EncodedLength.Statement (.noopE x nn) := rfl
theorem EncodedLength.noopF (x : Fin 16) (nn : Byte) : EncodedLength.Statement (.noopF x nn) := rfl

end Sys2Proof.Laws
end

