-- ==== Sys2Proof/Laws/Sequencer.lean ====
section
/-! SUPPORT. Laws/Sequencer: a CPU step neither reads nor writes the sequencer (10_state.md R28, R37), so the steps of a
`run-frame` are the machine's own steps, and what the turns of its two loops do to the accumulators (60_exceptions.md
R281). -/

namespace Sys2Proof.Machine

/-- Apply `f` to the next state of an outcome. -/
def mapNext (f : State → State) : Host.Outcome State Fault Refusal → Host.Outcome State Fault Refusal
  | .next t => .next (f t)
  | .fault r => .fault r
  | .refused r => .refused r

theorem writeRegs_seq (s : State) (q : Sequencer) (rbs : List (Reg × Byte)) :
    writeRegs { s with seq := q } rbs = { writeRegs s rbs with seq := q } := by
  rw [writeRegs_eq rbs s]
  induction rbs generalizing s with
  | nil => rfl
  | cons rb rbs ih => exact ih (writeV s rb.1 rb.2)

theorem writeFlags_seq (s : State) (q : Sequencer) (rbs : List (Reg × Byte)) :
    writeFlags { s with seq := q } rbs = { writeFlags s rbs with seq := q } := by
  rw [writeFlags_eq rbs s]
  induction rbs generalizing s with
  | nil => rfl
  | cons rb rbs ih => exact ih (writeFlag s rb.1 rb.2)

theorem writeBack_seq (s : State) (q : Sequencer) (x : Reg) :
    writeBack { s with seq := q } x = { writeBack s x with seq := q } := by
  rw [writeBack_eq, writeBack_eq]; rfl

theorem orFault_seq {α : Type} (s : State) (q : Sequencer) (r : Except Fault α) {k k' : α → State}
    (h : ∀ a, k' a = { k a with seq := q }) : orFault { s with seq := q } r k' = { orFault s r k with seq := q } := by
  cases r with
  | error f => rfl
  | ok a => exact h a

theorem skipIf_seq (s : State) (q : Sequencer) (c : Bool) :
    skipIf c { s with seq := q } = { skipIf c s with seq := q } := by
  cases c
  · rfl
  · exact orFault_seq s q _ fun _ => rfl

theorem writeLogic_seq (s : State) (q : Sequencer) (x : Reg) (b : Byte) :
    writeLogic { s with seq := q } x b = { writeLogic s x b with seq := q } := by
  unfold writeLogic
  cases s.quirks.vfReset <;> rfl

/-- No instruction reads or writes the sequencer. -/
theorem exec_seq (i : Instr) (s : State) (q : Sequencer) :
    exec i { s with seq := q } = mapNext (fun t => { t with seq := q }) (exec i s) := by
  have next : ∀ {u t : State}, u = { t with seq := q } →
      Host.Outcome.next u = mapNext (fun t => { t with seq := q }) (Host.Outcome.next t) := fun h => h ▸ rfl
  cases i
  case ret => exact next (by show ite _ _ _ = _; split <;> rfl)
  case call => exact next (by show ite _ _ _ = _; split <;> rfl)
  case exit => exact next (by unfold exitUnder; split <;> rfl)
  case ldVxK => exact next (by
    show (match lowestReleased s with | none => _ | some k => _) = _; cases lowestReleased s <;> rfl)
  case seImm => exact next (skipIf_seq s q _)
  case sneImm => exact next (skipIf_seq s q _)
  case seReg => exact next (skipIf_seq s q _)
  case sneReg => exact next (skipIf_seq s q _)
  case skp => exact next (orFault_seq s q _ fun _ => skipIf_seq s q _)
  case sknp => exact next (orFault_seq s q _ fun _ => skipIf_seq s q _)
  case orReg => exact next (writeLogic_seq (advance s) q _ _)
  case andReg => exact next (writeLogic_seq (advance s) q _ _)
  case xorReg => exact next (writeLogic_seq (advance s) q _ _)
  case ldB => exact next (orFault_seq s q (memWrite s _ _) fun _ => rfl)
  case saveRange => exact next (orFault_seq s q (memWrite s _ _) fun _ => rfl)
  case storeRegs => exact next (orFault_seq s q (memWrite s _ _) fun m => writeBack_seq (setMem (advance s) m) q _)
  case loadRegs x => exact next (orFault_seq s q (memRead s _ _) fun b => by
    exact (congrArg (writeBack · x) (writeRegs_seq (advance s) q _)).trans (writeBack_seq _ q x))
  case loadRange => exact next (orFault_seq s q (memRead s _ _) fun _ => writeRegs_seq (advance s) q _)
  case saveFlags => exact next (writeFlags_seq (advance s) q _)
  case loadFlags => exact next (writeRegs_seq (advance s) q _)
  case audio => exact next (orFault_seq s q (memRead s _ _) fun _ => rfl)
  case drw => exact next (orFault_seq s q (spriteBytes s _) fun _ => rfl)
  all_goals rfl

/-- No CPU step reads or writes the sequencer. -/
theorem step_seq (s : State) (q : Sequencer) :
    step { s with seq := q } = mapNext (fun t => { t with seq := q }) (step s) := by
  have hf : fetchInstr { s with seq := q } = fetchInstr s := rfl
  unfold step
  rw [hf]
  split
  · cases fetchInstr s with
    | error f => rfl
    | ok i => exact exec_seq i s q
  · rfl

/-- One more step of a run. -/
theorem run_succ (k : Nat) {s t : core.State} (h : core.step s = .next t) : core.run (k + 1) s = core.run k t := by
  conv_lhs => unfold Host.Core.run
  rw [h]

/-- A CPU step keeps the sequencer. -/
theorem step_keeps_seq {s t : State} (h : step s = .next t) : t.seq = s.seq := by
  have hq : step s = mapNext (fun t => { t with seq := s.seq }) (step s) := step_seq s s.seq
  rw [h] at hq
  injection hq with ht
  rw [ht]

theorem cycle_keeps_seq {s t : State} (h : cycle s = .next t) : t.seq = s.seq := by
  unfold cycle at h
  split at h
  · rw [Host.Outcome.next.inj h]
  · exact step_keeps_seq h

/-- The turns of the CPU half move the cycle accumulator, by their units, and nothing else of the sequencer. -/
theorem cycleLoop_seq (R : Reals) (n : Nat) {s t : State} (h : cycleLoop R n s = .next t) :
    t.seq = { s.seq with cycleAccum := afterUnits R.round n s.seq.cycleAccum } := by
  induction n generalizing s with
  | zero => rw [← Host.Outcome.next.inj h]; rfl
  | succ n ih =>
    unfold cycleLoop at h
    split at h
    · next hc => rw [ih h, cycle_keeps_seq hc]; rfl
    · cases h
    · cases h

/-- A timer tick keeps the sequencer. -/
@[simp] theorem timerTick_seq (s : State) : (timerTick s).1.seq = s.seq := by
  unfold timerTick audioTickTimer cpuTickTimer
  split <;> split <;> rfl

/-- The turns of the timer half move the timer accumulator, by their units, and nothing else of the sequencer. -/
theorem tickLoop_seq (R : Reals) (n : Nat) (s : State) (beep : Bool) :
    (tickLoop R n s beep).1.seq = { s.seq with timerAccum := afterUnits R.round n s.seq.timerAccum } := by
  induction n generalizing s beep with
  | zero => rfl
  | succ n ih => rw [tickLoop, ih, timerTick_seq]; rfl

end Sys2Proof.Machine
end

