-- ==== Sys2Proof/Tests/Slice0.lean ====
section
/-! SUPPORT. Tests/Slice0: what `WellFormed` refuses, one word per constructor written out from the encodings of
30_encoding.md R81 and R84, one step per instruction with the result of spec/95_test_vectors.md (its vector named), and
for every statement with hypotheses a state and operands that meet them. -/

namespace Sys2Proof.Tests

open Sys2Proof Sys2Proof.Machine

/-! ### `WellFormed` refuses -/

theorem test_wf_noop0_scd : (Instr.noop0 0x0C3).wellFormed = false := by decide
theorem test_wf_noop0_scu : (Instr.noop0 0x0DF).wellFormed = false := by decide
theorem test_wf_noop0_cls : (Instr.noop0 0x0E0).wellFormed = false := by decide
theorem test_wf_noop0_ret : (Instr.noop0 0x0EE).wellFormed = false := by decide
theorem test_wf_noop0_high : (Instr.noop0 0x0FB).wellFormed = false ∧ (Instr.noop0 0x0FF).wellFormed = false := by
  decide
theorem test_wf_noop5 :
    (Instr.noop5 1 2 0).wellFormed = false ∧ (Instr.noop5 1 2 2).wellFormed = false ∧
      (Instr.noop5 1 2 3).wellFormed = false := by decide
theorem test_wf_noop8 : (Instr.noop8 1 2 7).wellFormed = false ∧ (Instr.noop8 1 2 0xE).wellFormed = false := by decide
theorem test_wf_noop9 : (Instr.noop9 1 2 0).wellFormed = false := by decide
theorem test_wf_noopE : (Instr.noopE 1 0x9E).wellFormed = false ∧ (Instr.noopE 1 0xA1).wellFormed = false := by decide
theorem test_wf_noopF_listed : (Instr.noopF 1 0x1E).wellFormed = false ∧ (Instr.noopF 0 0x85).wellFormed = false := by
  decide
theorem test_wf_noopF_long : (Instr.noopF 0 0x00).wellFormed = false := by decide
/-- The ends of the ranges of R86 are well formed. -/
theorem test_wf_noop_bounds :
    (Instr.noop0 0x0BF).wellFormed ∧ (Instr.noop0 0x0E1).wellFormed ∧ (Instr.noop0 0x0ED).wellFormed ∧
      (Instr.noop0 0x0EF).wellFormed ∧ (Instr.noop0 0x0FA).wellFormed ∧ (Instr.noop0 0x100).wellFormed ∧
      (Instr.noopF 1 0x00).wellFormed := by decide

/-! ### Decoding: words from the formats of R81 and the patterns of R84 -/

theorem test_decode_family0 :
    decode [0x00, 0xC3] = .ok (.scd 3, []) ∧ decode [0x00, 0xDF] = .ok (.scu 15, []) ∧
    decode [0x00, 0xE0] = .ok (.cls, []) ∧ decode [0x00, 0xEE] = .ok (.ret, []) ∧
    decode [0x00, 0xFB] = .ok (.scr, []) ∧ decode [0x00, 0xFC] = .ok (.scl, []) ∧
    decode [0x00, 0xFD] = .ok (.exit, []) ∧ decode [0x00, 0xFE] = .ok (.low, []) ∧
    decode [0x00, 0xFF] = .ok (.high, []) ∧ decode [0x0A, 0xEE] = .ok (.noop0 0xAEE, []) := by decide
theorem test_decode_family1 : decode [0x12, 0x34] = .ok (.jp 0x234, []) := by decide
theorem test_decode_family2 : decode [0x2F, 0x10] = .ok (.call 0xF10, []) := by decide
theorem test_decode_family3 : decode [0x33, 0x42] = .ok (.seImm 3 0x42, []) := by decide
theorem test_decode_family4 : decode [0x43, 0x42] = .ok (.sneImm 3 0x42, []) := by decide
theorem test_decode_family5 :
    decode [0x51, 0x20] = .ok (.seReg 1 2, []) ∧ decode [0x51, 0x32] = .ok (.saveRange 1 3, []) ∧
    decode [0x52, 0x03] = .ok (.loadRange 2 0, []) ∧ decode [0x51, 0x21] = .ok (.noop5 1 2 1, []) := by decide
theorem test_decode_family6 : decode [0x61, 0x02] = .ok (.ldImm 1 0x02, []) := by decide
theorem test_decode_family7 : decode [0x74, 0x03] = .ok (.addImm 4 0x03, []) := by decide
theorem test_decode_family8 :
    decode [0x81, 0x20] = .ok (.ldReg 1 2, []) ∧ decode [0x81, 0x21] = .ok (.orReg 1 2, []) ∧
    decode [0x81, 0x22] = .ok (.andReg 1 2, []) ∧ decode [0x81, 0x23] = .ok (.xorReg 1 2, []) ∧
    decode [0x80, 0x14] = .ok (.addReg 0 1, []) ∧ decode [0x80, 0x15] = .ok (.subReg 0 1, []) ∧
    decode [0x81, 0x26] = .ok (.shr 1 2, []) ∧ decode [0x80, 0x17] = .ok (.subnReg 0 1, []) ∧
    decode [0x81, 0x2E] = .ok (.shl 1 2, []) ∧ decode [0x81, 0x2F] = .ok (.noop8 1 2 15, []) := by decide
theorem test_decode_family9 :
    decode [0x91, 0x20] = .ok (.sneReg 1 2, []) ∧ decode [0x91, 0x21] = .ok (.noop9 1 2 1, []) := by decide
theorem test_decode_familyA : decode [0xA3, 0x00] = .ok (.ldI 0x300, []) := by decide
theorem test_decode_familyB : decode [0xB2, 0x34] = .ok (.jpV0 0x234, []) := by decide
theorem test_decode_familyC : decode [0xC3, 0x0F] = .ok (.rnd 3 0x0F, []) := by decide
theorem test_decode_familyD : decode [0xD0, 0x1F] = .ok (.drw 0 1 15, []) := by decide
theorem test_decode_familyE :
    decode [0xE5, 0x9E] = .ok (.skp 5, []) ∧ decode [0xE5, 0xA1] = .ok (.sknp 5, []) ∧
    decode [0xE1, 0xFF] = .ok (.noopE 1 0xFF, []) := by decide
theorem test_decode_familyF_index :
    decode [0xF0, 0x00, 0x12, 0x34] = .ok (.ldILong 0x1234, []) ∧ decode [0xF2, 0x1E] = .ok (.addI 2, []) ∧
    decode [0xF1, 0x29] = .ok (.ldF 1, []) ∧ decode [0xF1, 0x30] = .ok (.ldHF 1, []) ∧
    decode [0xF5, 0x33] = .ok (.ldB 5, []) ∧ decode [0xF2, 0x55] = .ok (.storeRegs 2, []) ∧
    decode [0xF2, 0x65] = .ok (.loadRegs 2, []) ∧ decode [0xF1, 0x75] = .ok (.saveFlags 1, []) ∧
    decode [0xF1, 0x85] = .ok (.loadFlags 1, []) := by decide
theorem test_decode_familyF_devices :
    decode [0xF3, 0x01] = .ok (.plane 3, []) ∧ decode [0xF7, 0x02] = .ok (.audio 7, []) ∧
    decode [0xF3, 0x07] = .ok (.ldVxDT 3, []) ∧ decode [0xF3, 0x0A] = .ok (.ldVxK 3, []) ∧
    decode [0xF3, 0x15] = .ok (.ldDTVx 3, []) ∧ decode [0xF0, 0x18] = .ok (.ldSTVx 0, []) ∧
    decode [0xF1, 0x3A] = .ok (.pitch 1, []) ∧ decode [0xF1, 0x00] = .ok (.noopF 1 0x00, []) := by decide
/-- A list that ends too early is refused by name (R80). -/
theorem test_decode_short_lists :
    decode [0x12] = .error .truncatedWord ∧ decode [0xF0, 0x00, 0x12] = .error .truncatedLong := by decide
/-- Bit 0 of a table word is bit 0 of the first word; a second word counts on from bit 16. -/
theorem test_table_word :
    decodeTableWord 16 0x812E = some (.shl 1 2) ∧ decodeTableWord 32 0x1234F000 = some (.ldILong 0x1234) ∧
    decodeTableWord 16 0xF000 = some (.ldILong 0) := by decide

/-! ### A small state (the conventions of 95_test_vectors.md) -/

/-- All eight switches false. -/
def noQuirks : Quirks :=
  { shift := false, memIncX := false, memLeaveI := false, wrap := false, jump := false, vblank := false,
    vfReset := false, scaleScroll := false }

/-- The state after `load` of nothing, `set-quirks` with all switches false and `set-tickrate(10)`. -/
def base : State := State.powerOn { quirks := noQuirks, tickrate := 10, audioMode := .beep } { stream := 0, index := 0 }

/-- `base` with these registers. -/
def withV (rs : List (Reg × Byte)) : State := writeRegs base rs

/-- `s` with these bytes at `a`. -/
def poke (s : State) (a : Nat) (bs : List Byte) : State := setMem s (s.mem.writeBytes a bs)

/-- `s` with this `I`. -/
def atI (s : State) (a : Word) : State := setI s a

/-- `s` with this quirk bundle. -/
def quirky (s : State) (f : Quirks → Quirks) : State := setQuirks s (f s.quirks)

/-- The state after one step of the word `w` at `PC`. -/
def after (w : Nat) (s : State) : State :=
  match step (s.withFetchWord 16 w) with
  | .next t => t
  | _ => s

/-- The state after one step of the word `w`, with the word `next` after it in memory. -/
def afterTwo (w next : Nat) (s : State) : State :=
  match step (s.withFetchWord 32 (next * 65536 + w)) with
  | .next t => t
  | _ => s

/-- `base` with one cell set, in high resolution or not. -/
def oneCell (hires : Bool) (p : Fin 4) (r : Fin 64) (c : Fin 128) : State :=
  { base with display := { base.display with hires := hires, planes := toggleCell base.display.planes p (r, c) } }

/-- A cell of a state. -/
def on (s : State) (p : Fin 4) (r : Fin 64) (c : Fin 128) : Bool := cell s.display.planes p r c

/-! ### Control transfer: vectors F -/

theorem test_jp : (after 0x1234 (setPc base 0x300)).cpu.pc = 0x0234 := by decide
/-- F.2 -/
theorem test_call :
    (after 0x2210 (setPc base 0x204)).cpu.pc = 0x0210 ∧ stackSlot (after 0x2210 (setPc base 0x204)) 0 = 0x0206 ∧
      (after 0x2210 (setPc base 0x204)).cpu.sp = 1 := by decide
/-- F.3 -/
theorem test_ret :
    (after 0x00EE (setPc (pushReturn base 0x206) 0x212)).cpu.pc = 0x0206 ∧
      (after 0x00EE (setPc (pushReturn base 0x206) 0x212)).cpu.sp = 0 := by decide
/-- F.4 -/
theorem test_ret_empty :
    (after 0x00EE base).status = .faulted .stackUnderflow 0x0200 (some 0x00EE) ∧
      (after 0x00EE base).cpu.pc = 0x0200 := by decide
/-- F.6, F.7 -/
theorem test_jpV0 :
    (after 0xB234 (withV [(0, 0x10), (2, 0x20)])).cpu.pc = 0x0244 ∧
      (after 0xB234 (quirky (withV [(0, 0x10), (2, 0x20)]) fun q => { q with jump := true })).cpu.pc = 0x0254 := by
  decide
/-- F.8 -/
theorem test_jpV0_above_12_bits : (after 0xBFFF (withV [(0, 0xFF)])).cpu.pc = 0x10FE := by decide
/-- F.9, F.10, F.11 -/
theorem test_seImm :
    (afterTwo 0x3342 0x6001 (withV [(3, 0x42)])).cpu.pc = 0x0204 ∧
      (afterTwo 0x3342 0xF000 (withV [(3, 0x42)])).cpu.pc = 0x0206 ∧
      (afterTwo 0x3342 0xF000 (withV [(3, 0x41)])).cpu.pc = 0x0202 := by decide
/-- F.31 -/
theorem test_skip_past_the_end :
    (after 0x3000 (setPc base 0xFFFD)).status = .faulted (.fetchOutOfRange 0xFFFF) 0xFFFD (some 0x3000) ∧
      (after 0x3000 (setPc base 0xFFFD)).cpu.pc = 0xFFFD := by decide
/-- F.12 -/
theorem test_sneImm : (afterTwo 0x4342 0xF000 (withV [(3, 0x41)])).cpu.pc = 0x0206 := by decide
/-- F.13 -/
theorem test_seReg : (after 0x5120 (withV [(1, 7), (2, 7)])).cpu.pc = 0x0204 := by decide
/-- F.15 -/
theorem test_sneReg : (after 0x9120 (withV [(1, 7), (2, 8)])).cpu.pc = 0x0204 := by decide
/-- F.17 -/
theorem test_skp : (after 0xE09E (setPressed (withV [(0, 5)]) 5 true)).cpu.pc = 0x0204 := by decide
/-- F.19 -/
theorem test_skp_no_such_key :
    (after 0xE09E (withV [(0, 0x10)])).status = .faulted (.keyIndexOutOfRange 16) 0x0200 (some 0xE09E) := by decide
/-- F.18 -/
theorem test_sknp : (after 0xE0A1 (withV [(0, 5)])).cpu.pc = 0x0204 := by decide
/-- F.21: keys 2 and 9 were pressed at the last tick and are released. -/
theorem test_key_wait :
    let s := setPressed (setPressed (latchKeypad (setPressed (setPressed base 2 true) 9 true)) 2 false) 9 false
    readV (after 0xF30A s) 3 = 2 ∧ (after 0xF30A s).cpu.pc = 0x0202 := by decide
/-- F.23 -/
theorem test_key_wait_held : (after 0xF30A (latchKeypad (setPressed base 4 true))).cpu.pc = 0x0200 := by decide
/-- F.24, F.25 -/
theorem test_exit :
    (exitUnder .halt (advance (setPc base 0x300))).status = .halted ∧
      (exitUnder .halt (advance (setPc base 0x300))).cpu.pc = 0x0302 ∧
      (exitUnder .noOp (advance (setPc base 0x300))).status = .running := by decide
/-- F.26 -/
theorem test_noop0 : (after 0x0123 base).cpu.pc = 0x0202 ∧ (after 0x00E1 base).cpu.pc = 0x0202 := by decide
/-- F.14 -/
theorem test_noop5 : (after 0x5121 (withV [(1, 7), (2, 7)])).cpu.pc = 0x0202 := by decide
/-- F.27 -/
theorem test_noop8 : (after 0x812F base).cpu.pc = 0x0202 := by decide
/-- F.16 -/
theorem test_noop9 : (after 0x9121 (withV [(1, 7), (2, 8)])).cpu.pc = 0x0202 := by decide
/-- F.27 -/
theorem test_noopE : (after 0xE0FF base).cpu.pc = 0x0202 := by decide
/-- F.27 -/
theorem test_noopF : (after 0xF100 base).cpu.pc = 0x0202 := by decide
/-- F.28 -/
theorem test_advance_wraps :
    (after 0x6001 (setPc base 0xFFFE)).cpu.pc = 0x0000 ∧ readV (after 0x6001 (setPc base 0xFFFE)) 0 = 1 := by decide
/-- F.29 -/
theorem test_fetch_at_the_end :
    (after 0x6001 (setPc base 0xFFFF)).status = .faulted (.fetchOutOfRange 0xFFFF) 0xFFFF none := by decide

/-! ### Arithmetic and logic: vectors A -/

/-- A.1 -/
theorem test_ldImm : readV (after 0x6102 base) 1 = 2 ∧ (after 0x6102 base).cpu.pc = 0x0202 := by decide
/-- A.2, A.3 -/
theorem test_addImm :
    readV (after 0x7403 (withV [(4, 0xFE)])) 4 = 0x01 ∧ readV (after 0x7403 (withV [(4, 0xFE)])) 15 = 0 ∧
      readV (after 0x7FF5 (withV [(15, 0x10)])) 15 = 0x05 := by decide
/-- A.4 -/
theorem test_ldReg : readV (after 0x8120 (withV [(2, 0x33)])) 1 = 0x33 := by decide
/-- A.5, A.6 -/
theorem test_orReg :
    let s := withV [(1, 0x0F), (2, 0xF0), (15, 1)]
    readV (after 0x8121 s) 1 = 0xFF ∧ readV (after 0x8121 s) 15 = 1 ∧
      readV (after 0x8121 (quirky s fun q => { q with vfReset := true })) 15 = 0 := by decide
/-- A.7 -/
theorem test_andReg : readV (after 0x8122 (withV [(1, 0x3C), (2, 0x0F)])) 1 = 0x0C := by decide
/-- A.7 -/
theorem test_xorReg : readV (after 0x8123 (withV [(1, 0x3C), (2, 0x0F)])) 1 = 0x33 := by decide
/-- A.8, A.9 -/
theorem test_addReg :
    readV (after 0x8014 (withV [(0, 0xFF), (1, 1)])) 0 = 0 ∧ readV (after 0x8014 (withV [(0, 0xFF), (1, 1)])) 15 = 1 ∧
      readV (after 0x8014 (withV [(0, 0x7F), (1, 1)])) 15 = 0 := by decide
/-- A.10, A.19 -/
theorem test_addReg_vf :
    readV (after 0x8F14 (withV [(15, 0xFF), (1, 1)])) 15 = 1 ∧
      readV (after 0x85F4 (withV [(5, 0x0F), (15, 2)])) 5 = 0x11 := by decide
/-- A.11, A.14 -/
theorem test_subReg :
    readV (after 0x8015 (withV [(0, 5), (1, 7)])) 0 = 0xFE ∧ readV (after 0x8015 (withV [(0, 5), (1, 7)])) 15 = 0 ∧
      readV (after 0x8015 (withV [(0, 0x42), (1, 0x42)])) 15 = 1 := by decide
/-- A.16 -/
theorem test_subReg_vf : readV (after 0x8F15 (withV [(15, 5), (1, 7)])) 15 = 0 := by decide
/-- A.11 -/
theorem test_subnReg :
    readV (after 0x8017 (withV [(0, 5), (1, 7)])) 0 = 2 ∧ readV (after 0x8017 (withV [(0, 5), (1, 7)])) 15 = 1 := by
  decide
/-- A.12 -/
theorem test_shr :
    let s := withV [(1, 0x10), (2, 0x03)]
    readV (after 0x8126 s) 1 = 1 ∧ readV (after 0x8126 s) 15 = 1 ∧
      readV (after 0x8126 (quirky s fun q => { q with shift := true })) 1 = 8 := by decide
/-- A.17 -/
theorem test_shr_vf : readV (after 0x8F06 (quirky (withV [(15, 3)]) fun q => { q with shift := true })) 15 = 1 := by
  decide
/-- A.13 -/
theorem test_shl :
    let s := withV [(1, 0x01), (2, 0x81)]
    readV (after 0x812E s) 1 = 2 ∧ readV (after 0x812E s) 15 = 1 ∧
      readV (after 0x812E (quirky s fun q => { q with shift := true })) 15 = 0 := by decide
/-- A.20: whatever the draw is, it is masked. -/
theorem test_rnd : readV (after 0xC30F base) 3 = Config.randByte 0 0 &&& 0x0F := by rfl
/-- A.21 -/
theorem test_rnd_zero : readV (after 0xC300 base) 3 = 0 := by
  have h : readV (after 0xC300 base) 3 = Config.randByte 0 0 &&& 0x00 := by rfl
  rw [h]; simp

/-! ### Index, loads and stores: vectors M -/

/-- M.1 -/
theorem test_ldI : (after 0xA300 base).cpu.i = 0x0300 := by decide
/-- M.2 -/
theorem test_ldILong : (afterTwo 0xF000 0x1234 base).cpu.i = 0x1234 ∧ (afterTwo 0xF000 0x1234 base).cpu.pc = 0x0204 := by
  decide
/-- M.3: the second word is at 0x0000. -/
theorem test_ldILong_wraps :
    (afterTwo 0xF000 0xABCD (setPc base 0xFFFE)).cpu.i = 0xABCD ∧
      (afterTwo 0xF000 0xABCD (setPc base 0xFFFE)).cpu.pc = 0x0002 := by decide
/-- M.5, M.6 -/
theorem test_addI :
    (after 0xF21E (atI (withV [(2, 0x10)]) 0x0300)).cpu.i = 0x0310 ∧
      (after 0xF21E (atI (withV [(2, 0x01)]) 0xFFFF)).cpu.i = 0x0000 := by decide
/-- M.7 -/
theorem test_ldF : (after 0xF129 (withV [(1, 0x1A)])).cpu.i = 0x0032 := by decide
/-- M.8 -/
theorem test_ldHF :
    (after 0xF130 (withV [(1, 0x03)])).cpu.i = 0x006E ∧ (after 0xF130 (withV [(1, 0x0F)])).cpu.i = 0x00E6 := by decide
/-- M.9 -/
theorem test_ldB : (after 0xF533 (atI (withV [(5, 123)]) 0x0300)).mem.readBytes 0x300 3 = [1, 2, 3] := by decide
/-- M.10 -/
theorem test_ldB_past_the_end :
    (after 0xF533 (atI (withV [(5, 1)]) 0xFFFE)).status = .faulted (.memOutOfRange 0xFFFE) 0x0200 (some 0xF533) := by
  decide
/-- M.11 -/
theorem test_storeRegs :
    let s := atI (withV [(0, 1), (1, 2), (2, 3)]) 0x0300
    (after 0xF255 s).mem.readBytes 0x300 3 = [1, 2, 3] ∧ (after 0xF255 s).cpu.i = 0x0303 ∧
      (after 0xF255 (quirky s fun q => { q with memIncX := true })).cpu.i = 0x0302 := by decide
/-- M.11: leaving `I` wins. -/
theorem test_storeRegs_leave :
    (after 0xF255 (quirky (atI base 0x0300) fun q => { q with memIncX := true, memLeaveI := true })).cpu.i = 0x0300 := by
  decide
/-- M.12 -/
theorem test_loadRegs :
    let s := poke (atI base 0x0300) 0x300 [1, 2, 3]
    readV (after 0xF265 s) 0 = 1 ∧ readV (after 0xF265 s) 2 = 3 ∧ readV (after 0xF265 s) 3 = 0 ∧
      (after 0xF265 s).cpu.i = 0x0303 := by decide
/-- M.13: `VF` is loaded as a register. -/
theorem test_loadRegs_vf :
    readV (after 0xFF65 (poke (atI base 0x0400) 0x40F [0x77])) 15 = 0x77 := by decide
/-- M.17 -/
theorem test_saveRange :
    let s := atI (withV [(1, 0xAA), (2, 0xBB), (3, 0xCC)]) 0x0400
    (after 0x5132 s).mem.readBytes 0x400 3 = [0xAA, 0xBB, 0xCC] ∧
      (after 0x5312 s).mem.readBytes 0x400 3 = [0xCC, 0xBB, 0xAA] ∧ (after 0x5312 s).cpu.i = 0x0400 := by decide
/-- M.18: one byte only. -/
theorem test_saveRange_one :
    (after 0x5442 (atI (withV [(4, 0x55), (5, 0x66)]) 0x0400)).mem.readBytes 0x400 2 = [0x55, 0] := by decide
/-- M.19 -/
theorem test_loadRange :
    let t := after 0x5203 (poke (atI base 0x0400) 0x400 [1, 2, 3])
    readV t 2 = 1 ∧ readV t 1 = 2 ∧ readV t 0 = 3 ∧ t.cpu.i = 0x0400 := by decide
/-- M.20 -/
theorem test_saveFlags :
    let t := after 0xF175 (withV [(0, 9), (1, 8), (2, 7)])
    readFlag t 0 = 9 ∧ readFlag t 1 = 8 ∧ readFlag t 2 = 0 := by decide
/-- M.20 -/
theorem test_loadFlags :
    let t := after 0xF185 (writeFlag (writeFlag base 0 9) 1 8)
    readV t 0 = 9 ∧ readV t 1 = 8 := by decide

/-! ### Timers: vectors T -/

/-- T.1 -/
theorem test_ldVxDT : readV (after 0xF307 (setDt base 0x20)) 3 = 0x20 := by decide
/-- T.2 -/
theorem test_ldDTVx : (after 0xF315 (withV [(3, 0x3C)])).cpu.dt = 0x3C := by decide
/-- T.3 -/
theorem test_ldSTVx :
    (after 0xF018 (withV [(0, 2)])).audio.st = 2 ∧ (after 0xF018 (withV [(0, 2)])).audio.mode = .beep := by decide
/-- T.4 -/
theorem test_tick : (timerTick (setDt base 1)).1.cpu.dt = 0 ∧ (timerTick base).1.cpu.dt = 0 ∧
    (timerTick base).2 = false ∧ (timerTick (setSt base 2)).2 = true := by decide

/-! ### Display: vectors D -/

/-- D.17 -/
theorem test_cls :
    let s := setPlaneMask (oneCell false 0 3 3) 0b0010
    on (after 0x00E0 s) 0 3 3 = true ∧ on (after 0x00E0 (setPlaneMask s 0b0011)) 0 3 3 = false ∧
      (after 0x00E0 s).display.dirty = true := by decide
/-- D.12, first part -/
theorem test_low :
    (after 0x00FE (oneCell true 0 0 1)).display.hires = false ∧ on (after 0x00FE (oneCell true 0 0 1)) 0 0 1 = true := by
  decide
/-- D.19 -/
theorem test_high :
    (after 0x00FF (oneCell false 0 0 1)).display.hires = true ∧ (after 0x00FF base).display.dirty = false := by decide
/-- D.28 -/
theorem test_plane : (after 0xF301 base).display.planeMask = 0b0011 := by decide
/-- D.20, D.27 -/
theorem test_scd :
    on (after 0x00C3 (oneCell true 0 0 5)) 0 3 5 = true ∧ on (after 0x00C3 (oneCell true 0 0 5)) 0 0 5 = false ∧
      on (after 0x00C0 (oneCell true 0 0 5)) 0 0 5 = true := by decide
/-- D.21, D.22 -/
theorem test_scu :
    on (after 0x00D2 (quirky (oneCell false 0 10 0) fun q => { q with scaleScroll := true })) 0 6 0 = true ∧
      on (after 0x00D2 (oneCell false 0 10 0)) 0 8 0 = true := by decide
/-- D.23, D.26 -/
theorem test_scr :
    on (after 0x00FB (oneCell true 0 0 0)) 0 0 4 = true ∧ on (after 0x00FB (oneCell true 0 0 0)) 0 0 0 = false ∧
      (after 0x00FB (oneCell true 0 0 125)).display.planes = base.display.planes := by decide
/-- D.25 -/
theorem test_scl :
    let s := quirky (oneCell false 0 0 8) fun q => { q with scaleScroll := true }
    on (after 0x00FC s) 0 0 0 = true ∧ on (after 0x00FC s) 0 0 8 = false := by decide
/-- D.3: two logical pixels on, six clipped. -/
theorem test_drw_clips :
    let t := after 0xD011 (poke (atI (withV [(0, 62)]) 0x500) 0x500 [0xFF])
    on t 0 0 124 = true ∧ on t 0 1 127 = true ∧ on t 0 0 0 = false ∧ readV t 15 = 0 := by decide +kernel
/-- D.8: the first byte of a 16-wide row is its left half. -/
theorem test_drw_wide :
    let s := poke (atI base 0x500) 0x500 [0x80, 0x01]
    let t := after 0xD010 { s with display := { s.display with hires := true } }
    on t 0 0 0 = true ∧ on t 0 0 15 = true ∧ on t 0 0 7 = false ∧ on t 0 0 8 = false := by decide +kernel
/-- D.6: an origin off the grid wraps; D.12: a part of a block that was set is a collision. -/
theorem test_drw_wraps_and_collides :
    on (after 0xD011 (poke (atI (withV [(1, 40)]) 0x500) 0x500 [0x80])) 0 16 1 = true ∧
      readV (after 0xD011 (poke (atI (oneCell false 0 0 1) 0x500) 0x500 [0x80])) 15 = 1 ∧
      on (after 0xD011 (poke (atI (oneCell false 0 0 1) 0x500) 0x500 [0x80])) 0 0 1 = false := by decide +kernel
/-- D.14, D.15 -/
theorem test_drw_past_the_end :
    (after 0xD012 (atI base 0xFFFF)).status = .faulted (.memOutOfRange 0xFFFF) 0x0200 (some 0xD012) ∧
      (after 0xD012 (setPlaneMask (atI base 0xFFFF) 0)).display.pendingVblank = true := by decide +kernel

/-! ### Audio: vectors S -/

/-- S.1 -/
theorem test_audio :
    let t := after 0xF702 (poke (atI base 0x500) 0x500 [0xFF, 0x00, 0xFE])
    t.audio.pattern[0] = 0xFF ∧ t.audio.pattern[2] = 0xFE ∧ t.audio.mode = .pattern := by decide
/-- S.2 -/
theorem test_audio_past_the_end :
    (after 0xF002 (atI base 0xFFF8)).status = .faulted (.memOutOfRange 0xFFF8) 0x0200 (some 0xF002) := by decide
/-- S.3 -/
theorem test_pitch :
    (after 0xF13A (withV [(1, 0x70)])).audio.pitch = 112 ∧ (after 0xF13A base).audio.mode = .pattern := by decide

/-- S.6: the four set bits are the high half of byte 0, read first. -/
theorem test_pattern_sample :
    let s := { setSt base 1 with audio := { base.audio with
      st := 1, mode := .pattern, pitch := 64, pattern := base.audio.pattern.set 0 0xF0 } }
    (output exactReals 16 8000 s).2 = List.replicate 8 .high ++ List.replicate 8 .low ∧
      (output exactReals 16 8000 s).1.audio.patPhase = .ofRat 8 := by decide +kernel
/-- S.5, the first samples at a quarter of a period each: `sr` is 1760. -/
theorem test_beep_sample :
    (output exactReals 5 1760 (setSt base 1)).2 = [.high, .high, .low, .low, .high] := by decide +kernel

/-! ### Host: vectors H, T.6, T.8 -/

/-- H.3, H.5 -/
theorem test_load :
    let r := load defaultPreset [0x12, 0x00] (.named .chip8) (takeFault .stackUnderflow (setPressed base 3 true))
    r.2 = true ∧ r.1.status = .running ∧ r.1.mem.readBytes 0x200 3 = [0x12, 0x00, 0x00] ∧
      r.1.keypad.pressed[3] = false := by decide
/-- H.7 -/
theorem test_press_16 : hostOp exactReals (.press 16) base = .refused .keyOutsideKeypad := by rfl
/-- T.8, one call: 6 cycles and no tick. -/
theorem test_accumulators :
    cyclesDue exactReals (1 / 100) base = 6 ∧ ticksDue exactReals (1 / 100) base = 3 / 5 := by decide +kernel

/-! ### Witnesses: a state and operands that meet the hypotheses of each statement, at the bounds of its clauses -/

/-- `base` stopped by `00FD`. -/
def stopped : State := { base with status := .halted }

/-- `base` with a full call stack. -/
def fullStack : State := { base with cpu := { base.cpu with sp := BitVec.ofNat 8 Config.stackDepth } }

/-- The invariant holds in `base`. -/
theorem witness_inv : Inv base :=
  ⟨Memory.wf_nil, Nat.zero_le _, fun k _ => by simp [stackSlot, base, State.powerOn], by decide +kernel,
    by simp [base, State.powerOn], by decide +kernel, by decide +kernel, fun k a w h => by cases h⟩

theorem witness_DecodingAnEncodedInstructionGivesItBack : (Instr.noopF 15 0xFF).wellFormed = true := by decide
theorem witness_EncodingADecodedInstructionGivesItsBytes :
    decode [0x00, 0xE1, 0x77] = .ok (.noop0 0x0E1, [0x77]) := by decide
theorem witness_EachWordSelectsItsUniqueRow : decode [0xF0, 0x00, 0x12, 0x34] = .ok (.ldILong 0x1234, []) := by decide
theorem witness_FirstWordTellsTheLength :
    ¬((0xF0 : Byte) = 0xF0 ∧ (0x01 : Byte) = 0x00) ∧ ((0xF0 : Byte) = 0xF0 ∧ (0x00 : Byte) = 0x00) := by decide
theorem witness_FetchReadsABigEndianWord : (0xFFFE : Word) ≠ 0xFFFF ∧ (0xFFFF : Word) = 0xFFFF := by decide
theorem witness_AStepRunsTheDecodedInstruction :
    base.status = .running ∧ (Instr.noop0 0).wellFormed = true ∧ encode (.noop0 0) = [0x0000] ∧
      fetchWord base base.cpu.pc = .ok 0x0000 := ⟨rfl, by decide, by decide, rfl⟩
theorem witness_AStepRunsTheDecodedInstruction_long :
    encode (.ldILong 0) = [0xF000, 0] ∧ fetchWord (poke base 0x200 [0xF0]) 0x200 = .ok 0xF000 ∧
      fetchWord (poke base 0x200 [0xF0]) (0x200 + 2) = .ok 0 := ⟨rfl, by rfl, by rfl⟩
theorem witness_FetchReadsABigEndianWord_steps :
    (setPc base 0xFFFF).status = .running ∧ (setPc base 0xFFFF).cpu.pc = 0xFFFF ∧
      (setPc (poke base 0xFFFD [0xF0]) 0xFFFD).mem.read 0xFFFD = 0xF0 ∧
      (setPc (poke base 0xFFFD [0xF0]) 0xFFFD).mem.read 0xFFFE = 0x00 := by decide
theorem witness_AStoppedMachineStaysAsItIs : stopped.status ≠ .running := by decide
theorem witness_AFaultVoidsTheWholeStep :
    base.status = .running ∧ ∃ t, step (poke base 0x200 [0x00, 0xEE]) = .next t ∧ ¬ Unfaulted t :=
  ⟨rfl, _, rfl, fun h => h .stackUnderflow 0x200 (some 0x00EE) (by decide)⟩
/-- One faulting instruction for each of the five kinds. -/
theorem witness_OnlyTheListedConditionsFault :
    (∃ t, exec (.seImm 0 0) (setPc base 0xFFFD) = .next t ∧ t.status = .faulted (.fetchOutOfRange 0xFFFF) 0xFFFD (some 0)) ∧
    (∃ t, exec (.ldB 0) (atI base 0xFFFE) = .next t ∧ t.status = .faulted (.memOutOfRange 0xFFFE) 0x200 (some 0)) ∧
    (∃ t, exec .ret base = .next t ∧ t.status = .faulted .stackUnderflow 0x200 (some 0)) ∧
    (∃ t, exec (.skp 0) (withV [(0, 16)]) = .next t ∧ t.status = .faulted (.keyIndexOutOfRange 16) 0x200 (some 0)) :=
  ⟨⟨_, rfl, by decide⟩, ⟨_, rfl, by decide⟩, ⟨_, rfl, by decide⟩, ⟨_, rfl, by decide⟩⟩
theorem full_sp : fullStack.cpu.sp.toNat = Config.stackDepth := by
  have : Config.stackDepth < 256 := by unfold Config.stackDepth; omega
  change (BitVec.ofNat 8 Config.stackDepth).toNat = _
  rw [BitVec.toNat_ofNat]; omega
theorem witness_OnlyTheListedConditionsFault_call :
    fullStack.status = .running ∧ ∃ t, exec (.call 0) fullStack = .next t ∧
      t.status = .faulted .stackOverflow 0x200 (some 0) :=
  ⟨rfl, takeFault .stackOverflow fullStack, congrArg Host.Outcome.next (if_pos full_sp), rfl⟩
theorem witness_RegistersChangeOnlyAtDestinations :
    (∃ t, exec (.addReg 0 1) base = .next t) ∧ (2 : Reg) ≠ 0 ∧ (2 : Reg) ≠ vf ∧
      ((0 : Reg) < 1 ∧ (0 : Reg) < 3) ∧ (1 : Reg) < 4 := ⟨⟨_, rfl⟩, by decide⟩
theorem witness_MemoryChangesOnlyWhereStored :
    (∃ t, exec (.ldB 0) (atI base 0x300) = .next t) ∧ 0x2FF < (atI base 0x300).cpu.i.toNat ∧
      (atI base 0x300).cpu.i.toNat + 3 ≤ 0x303 := ⟨⟨_, rfl⟩, by decide⟩
theorem witness_SpecialStateIsWrittenOnlyByItsInstructions : ∃ t, exec (.plane 3) base = .next t := ⟨_, rfl⟩
theorem witness_NoStepWritesWhatTheHostOwns : ∃ t, step base = .next t := ⟨_, rfl⟩
theorem witness_ShiftsMoveTheQuirkSourceByOne :
    (7 : Byte) = (if base.quirks.shift = true then readV (withV [(2, 7)]) 1 else readV (withV [(2, 7)]) 2) := by decide
theorem witness_CallPushesTheReturnAddress :
    base.cpu.sp.toNat ≠ Config.stackDepth ∧ fullStack.cpu.sp.toNat = Config.stackDepth :=
  ⟨by change 0 ≠ _; unfold Config.stackDepth; omega, full_sp⟩
theorem witness_ReturnPopsTheTopEntry : (pushReturn base 0x206).cpu.sp ≠ 0 ∧ base.cpu.sp = 0 := by decide
theorem witness_ReturnUndoesACall : base.cpu.sp.toNat < Config.stackDepth := by
  change 0 < _; unfold Config.stackDepth; omega
theorem witness_JumpsGoToTheirTargets :
    (0 : Reg).val = (0x0FF : BitVec 12).toNat / 256 ∧ (15 : Reg).val = (0xF00 : BitVec 12).toNat / 256 := by decide
theorem witness_CompareSkipsFollowTheirCondition :
    readV base 1 = 0 ∧ base.cpu.pc + 2 ≠ 0xFFFF ∧ ¬ readV base 1 = 7 ∧ (setPc base 0xFFFD).cpu.pc + 2 = 0xFFFF ∧
      readV (withV [(1, 7)]) 1 ≠ readV (withV [(1, 7)]) 2 := by decide
theorem witness_KeySkipsReadTheCurrentLevel :
    (readV base 0).toNat = (0 : Fin 16).val ∧ (readV (withV [(0, 15)]) 0).toNat = (15 : Fin 16).val ∧
      15 < (readV (withV [(0, 16)]) 0).toNat := by decide
/-- Key 2 has an edge and no lower key has one; in `base` no key has one. -/
theorem witness_KeyWaitStoresTheLowestReleasedKey :
    let s := setPressed (latchKeypad (setPressed base 2 true)) 2 false
    (s.keypad.prev[2] = true ∧ s.keypad.pressed[2] = false ∧ s.keypad.prev[0] = false ∧ s.keypad.prev[1] = false) ∧
      ∀ k : Fin 16, ¬(base.keypad.prev[k.val] = true ∧ base.keypad.pressed[k.val] = false) := by decide
theorem witness_DecimalDigitsAreStoredAtTheIndex :
    (atI base 0xFFFD).cpu.i.toNat + 3 ≤ 65536 ∧ 65536 < (atI base 0xFFFE).cpu.i.toNat + 3 := by decide
theorem witness_BlockStoreWritesTheRegistersAndMovesTheIndex :
    (atI base 0xFFF0).cpu.i.toNat + (15 : Reg).val + 1 ≤ 65536 ∧ 65536 < (atI base 0xFFF1).cpu.i.toNat + (15 : Reg).val + 1 := by
  decide
theorem witness_BlockLoadReadsTheRegistersAndMovesTheIndex :
    (atI base 0xFFFF).cpu.i.toNat + (0 : Reg).val + 1 ≤ 65536 ∧ 65536 < (atI base 0xFFFF).cpu.i.toNat + (1 : Reg).val + 1 := by
  decide
theorem witness_RangeTransfersGoEitherDirection_save :
    (atI base 0xFFFD).cpu.i.toNat + rangeLength 3 1 ≤ 65536 ∧ 65536 < (atI base 0xFFFE).cpu.i.toNat + rangeLength 1 3 := by
  decide
theorem witness_RangeTransfersGoEitherDirection_load :
    (atI base 0xFFFD).cpu.i.toNat + rangeLength 1 3 ≤ 65536 ∧ 1 < rangeLength 2 1 ∧ ((0 : Reg) < 1 ∧ (0 : Reg) < 3) ∧
      65536 < (atI base 0xFFFF).cpu.i.toNat + rangeLength 2 1 := by decide
theorem witness_BlockStoreThenLoadRestoresTheRegisters :
    (atI base 0x300).cpu.i.toNat + (2 : Reg).val + 1 ≤ 65536 ∧ ∃ t, exec (.storeRegs 2) (atI base 0x300) = .next t :=
  ⟨by decide, _, rfl⟩
theorem witness_VerticalScrollsShiftRows :
    (3 : Nat) = (if base.display.hires = false ∧ base.quirks.scaleScroll = true then 2 * (3 : Fin 16).val else (3 : Fin 16).val) := by
  decide
theorem witness_HorizontalScrollsShiftColumns :
    (4 : Nat) = (if base.display.hires = false ∧ base.quirks.scaleScroll = true then 8 else 4) := by decide
theorem witness_DrawMarksTheDisplayAndSetsVf :
    (1 : Nat) = (if (1 : Fin 16).val = 0 then 32 else (1 : Fin 16).val) * (sel base.display).length ∧
      (atI base 0xFFFF).cpu.i.toNat + 1 ≤ 65536 ∧ (setPlaneMask base 0).display.planeMask = 0 ∧
      base.display.planeMask ≠ 0 ∧ 65536 < (atI base 0xFFFF).cpu.i.toNat + 2 * (sel base.display).length := by decide
/-- The first row of a sprite with only its leftmost bit set covers cell (0, 0) and not cell (0, 2), in low resolution. -/
theorem witness_ADrawInvertsExactlyTheCoveredCells :
    SpriteCovers base.display [0x80] 1 false 0 0 0 0 0 ∧
      ¬ SpriteCovers base.display [0x80] 1 false 0 0 0 0 2 := by
  have d : drawnPixels base.display [0x80] (spriteShape 1) false 0 0 = [(0, 0, 0)] := by decide
  rw [spriteCovers_iff, spriteCovers_iff, d]
  refine ⟨⟨0, 0, by simp, by simp [CellOf, base, State.powerOn]⟩, ?_⟩
  rintro ⟨lx, ly, h, hc⟩
  simp only [List.mem_singleton, Prod.mk.injEq, true_and] at h
  obtain ⟨rfl, rfl⟩ := h
  simp [CellOf, base, State.powerOn] at hc
theorem witness_CollisionPropertiesOfADraw :
    (∀ p r c, base.display.planeMask.getLsbD p.val = true → cell base.display.planes p r c = false) ∧
      Wraps base.display false 64 0 :=
  ⟨fun p r c _ => by simp [cell, base, State.powerOn], wrapEff_iff.mp (by decide)⟩
theorem witness_AudioInstructionsSetPatternAndPitch :
    (atI base 0xFFF0).cpu.i.toNat + 16 ≤ 65536 ∧ 65536 < (atI base 0xFFF1).cpu.i.toNat + 16 := by decide
theorem witness_PlaybackRateDoublesPerOctave : exactReals.Exact := exactReals_exact
theorem witness_SoundOnlyMovesItsOwnPhase_silent : base.audio.st = 0 := by decide
theorem witness_SoundOnlyMovesItsOwnPhase :
    (setSt base 1).audio.st ≠ 0 ∧ (setSt base 1).audio.mode = .beep ∧
      (after 0xF13A (setSt base 1)).audio.st ≠ 0 ∧ (after 0xF13A (setSt base 1)).audio.mode = .pattern := by decide
/-- The first and the last bit of the pattern. -/
theorem witness_SoundOnlyMovesItsOwnPhase_bits :
    ⌊base.audio.patPhase.value⌋ = ((0 : Fin 128).val : Int) ∧ ⌊(Surd.ofRat 127).value⌋ = ((127 : Fin 128).val : Int) := by
  simp [base, State.powerOn]
/-- A state that stalls. -/
def stalling : State :=
  quirky { base with display := { base.display with pendingVblank := true } } fun q => { q with vblank := true }
/-- Ten cycles to skip. -/
theorem witness_TheVblankStallSkipsEveryStep :
    stalling.quirks.vblank = true ∧ stalling.display.pendingVblank = true ∧
      exactReals.turns (cyclesDue exactReals (1 / 60) stalling) = 10 := ⟨rfl, rfl, by decide +kernel⟩
/-- Ten cycles and one tick, and a frame too short for either. -/
theorem witness_RunFrameCompletesAndKeepsTheFractions :
    exactReals.Exact ∧ (0 : Rat) ≤ 1 / 60 ∧ Inv base ∧
      10 = ⌊base.seq.cycleAccum + base.seq.tickrate * 60 * (1 / 60)⌋₊ ∧ 1 = ⌊base.seq.timerAccum + 60 * (1 / 60)⌋₊ ∧
      0 = ⌊base.seq.cycleAccum + base.seq.tickrate * 60 * 0⌋₊ ∧ 0 = ⌊base.seq.timerAccum + 60 * 0⌋₊ ∧
      base.quirks.vblank = false := by
  refine ⟨exactReals_exact, by norm_num, witness_inv, ?_, ?_, ?_, ?_, rfl⟩ <;> norm_num [base, State.powerOn]
theorem witness_RunFrameTicksTheTimersAndReportsBeep :
    exactReals.Exact ∧ 0 = ⌊base.seq.timerAccum + 60 * 0⌋₊ ∧ 1 = ⌊base.seq.timerAccum + 60 * (1 / 60)⌋₊ := by
  refine ⟨exactReals_exact, ?_, ?_⟩ <;> norm_num [base, State.powerOn]
theorem witness_HostOperationsWriteOnlyWhatTheyName :
    0 < 16 ∧ 15 < 16 ∧ 16 ≤ 16 ∧ (0 : Rat) < 20 ∧ ∃ t, step base = .next t :=
  ⟨by decide, by decide, by decide, by norm_num, _, rfl⟩
theorem witness_LoadResetsOrChangesNothing :
    0x200 + (List.replicate 65024 (0 : Byte)).length ≤ 65536 ∧ 65536 < 0x200 + (List.replicate 65025 (0 : Byte)).length := by
  rw [List.length_replicate, List.length_replicate]; decide
theorem witness_OnlyRunFrameAdvancesTime : ∃ t r, hostOp exactReals .step base = .next (t, r) := ⟨_, _, rfl⟩
theorem witness_EveryStepKeepsTheInvariant : Inv base ∧ ∃ t, step base = .next t := ⟨witness_inv, _, rfl⟩
theorem witness_EveryHostOperationKeepsTheInvariant :
    exactReals.KeepsNonneg ∧ (HostOp.press 3).admissible ∧ Inv base ∧
      ∃ t r, hostOp exactReals (.press 3) base = .next (t, r) :=
  ⟨fun _ h => h, trivial, witness_inv, _, _, rfl⟩

end Sys2Proof.Tests
end

section
/-! SUPPORT. The effects of the instructions: the forms of next state `exec` can answer, said once. The statements about
what an instruction leaves alone, and the invariant, are case splits over these forms and not over the instructions. -/

namespace Sys2Proof.Machine

/-! ### What a block write of registers or flags leaves alone -/

section
variable (s : State) (rbs : List (Reg × Byte))

@[simp] theorem writeRegs_cpu_i : (writeRegs s rbs).cpu.i = s.cpu.i := by rw [writeRegs_eq]
@[simp] theorem writeRegs_cpu_pc : (writeRegs s rbs).cpu.pc = s.cpu.pc := by rw [writeRegs_eq]
@[simp] theorem writeRegs_cpu_sp : (writeRegs s rbs).cpu.sp = s.cpu.sp := by rw [writeRegs_eq]
@[simp] theorem writeRegs_cpu_stack : (writeRegs s rbs).cpu.stack = s.cpu.stack := by rw [writeRegs_eq]
@[simp] theorem writeRegs_cpu_dt : (writeRegs s rbs).cpu.dt = s.cpu.dt := by rw [writeRegs_eq]
@[simp] theorem writeRegs_cpu_flags : (writeRegs s rbs).cpu.flags = s.cpu.flags := by rw [writeRegs_eq]
@[simp] theorem writeRegs_mem : (writeRegs s rbs).mem = s.mem := by rw [writeRegs_eq]
@[simp] theorem writeRegs_display : (writeRegs s rbs).display = s.display := by rw [writeRegs_eq]
@[simp] theorem writeRegs_keypad : (writeRegs s rbs).keypad = s.keypad := by rw [writeRegs_eq]
@[simp] theorem writeRegs_audio : (writeRegs s rbs).audio = s.audio := by rw [writeRegs_eq]
@[simp] theorem writeRegs_seq_eq : (writeRegs s rbs).seq = s.seq := by rw [writeRegs_eq]
@[simp] theorem writeRegs_quirks : (writeRegs s rbs).quirks = s.quirks := by rw [writeRegs_eq]
@[simp] theorem writeRegs_status : (writeRegs s rbs).status = s.status := by rw [writeRegs_eq]

@[simp] theorem writeFlags_cpu_v : (writeFlags s rbs).cpu.v = s.cpu.v := by rw [writeFlags_eq]
@[simp] theorem writeFlags_cpu_i : (writeFlags s rbs).cpu.i = s.cpu.i := by rw [writeFlags_eq]
@[simp] theorem writeFlags_cpu_pc : (writeFlags s rbs).cpu.pc = s.cpu.pc := by rw [writeFlags_eq]
@[simp] theorem writeFlags_cpu_sp : (writeFlags s rbs).cpu.sp = s.cpu.sp := by rw [writeFlags_eq]
@[simp] theorem writeFlags_cpu_stack : (writeFlags s rbs).cpu.stack = s.cpu.stack := by rw [writeFlags_eq]
@[simp] theorem writeFlags_cpu_dt : (writeFlags s rbs).cpu.dt = s.cpu.dt := by rw [writeFlags_eq]
@[simp] theorem writeFlags_mem : (writeFlags s rbs).mem = s.mem := by rw [writeFlags_eq]
@[simp] theorem writeFlags_display : (writeFlags s rbs).display = s.display := by rw [writeFlags_eq]
@[simp] theorem writeFlags_keypad : (writeFlags s rbs).keypad = s.keypad := by rw [writeFlags_eq]
@[simp] theorem writeFlags_audio : (writeFlags s rbs).audio = s.audio := by rw [writeFlags_eq]
@[simp] theorem writeFlags_seq_eq : (writeFlags s rbs).seq = s.seq := by rw [writeFlags_eq]
@[simp] theorem writeFlags_quirks : (writeFlags s rbs).quirks = s.quirks := by rw [writeFlags_eq]
@[simp] theorem writeFlags_status : (writeFlags s rbs).status = s.status := by rw [writeFlags_eq]

end

/-! ### The forms of next state -/

/-- Register `k` is one that the rule of `i` writes in `s` (10_state.md R20, R21). -/
def Destination (i : Instr) (s : State) (k : Reg) : Prop :=
  match i with
  | .ldImm x _ | .addImm x _ | .ldReg x _ | .rnd x _ | .ldVxDT x | .ldVxK x => k = x
  | .orReg x _ | .andReg x _ | .xorReg x _ => k = x ∨ (s.quirks.vfReset = true ∧ k = vf)
  | .addReg x _ | .subReg x _ | .subnReg x _ | .shr x _ | .shl x _ => k = x ∨ k = vf
  | .drw _ _ _ => k = vf
  | .loadRegs x | .loadFlags x => k ≤ x
  | .loadRange x y => (x ≤ k ∧ k ≤ y) ∨ (y ≤ k ∧ k ≤ x)
  | _ => False

/-- `i` sets `I` and does nothing else (42_index_memory.md R160 to R164). -/
def SetsOnlyIndex : Instr → Prop
  | .ldI _ | .ldILong _ | .addI _ | .ldF _ | .ldHF _ => True
  | _ => False

/-- `i` clears or scrolls the selected planes (44_display.md R202, R207 to R210). -/
def RedrawsPlanes : Instr → Prop
  | .cls | .scd _ | .scu _ | .scr | .scl => True
  | _ => False

/-- `t` is a next state that `i` can leave in `s`, by the parts of the state it writes: registers as a list of
destinations with their bytes, memory by a checked store at `I`. -/
inductive Effect (s : State) : Instr → State → Prop
  /-- The whole step is void but for `status` (60_exceptions.md R272). -/
  | fault {i : Instr} (f : Fault) : Effect s i (takeFault f s)
  /-- Only `PC` moves: jumps, skips, no-ops, a key wait that goes on, an `00FD` that does not halt. -/
  | flow {i : Instr} (a : Word) : Effect s i (setPc s a)
  | halt : Effect s .exit { advance s with status := .halted }
  | call {nnn : BitVec 12} (a b : Word) (h : s.cpu.sp.toNat ≠ Config.stackDepth) :
      Effect s (.call nnn) (setPc (pushReturn (advance s) a) b)
  | ret (h : s.cpu.sp ≠ 0) : Effect s .ret (popReturn (advance s))
  | regs {i : Instr} (rbs : List (Reg × Byte)) (h : ∀ rb ∈ rbs, Destination i s rb.1) :
      Effect s i (writeRegs (advance s) rbs)
  | rnd {x : Reg} {nn : Byte} (b : Byte) : Effect s (.rnd x nn) (writeV (drawn (advance s)) x b)
  | loadRegs {x : Reg} (rbs : List (Reg × Byte)) (h : ∀ rb ∈ rbs, rb.1 ≤ x) (a : Word) :
      Effect s (.loadRegs x) (setI (writeRegs (advance s) rbs) a)
  | index {i : Instr} (h : SetsOnlyIndex i) (a b : Word) : Effect s i (setI (setPc s a) b)
  | ldB {x : Reg} (m : Memory) (h : memWrite s s.cpu.i.toNat (decimalDigits (readV s x)) = .ok m) :
      Effect s (.ldB x) (setMem (advance s) m)
  | saveRange {x y : Reg} (m : Memory) (h : memWrite s s.cpu.i.toNat (readRegs s (regRange x y)) = .ok m) :
      Effect s (.saveRange x y) (setMem (advance s) m)
  | storeRegs {x : Reg} (m : Memory) (h : memWrite s s.cpu.i.toNat (readRegs s (regsUpTo x)) = .ok m) (a : Word) :
      Effect s (.storeRegs x) (setI (setMem (advance s) m) a)
  | dt {x : Reg} (b : Byte) : Effect s (.ldDTVx x) (setDt (advance s) b)
  | st {x : Reg} (b : Byte) : Effect s (.ldSTVx x) (setSt (advance s) b)
  | flags {x : Reg} (rbs : List (Reg × Byte)) : Effect s (.saveFlags x) (writeFlags (advance s) rbs)
  | redraw {i : Instr} (h : RedrawsPlanes i) (f : Plane → Plane) : Effect s i (redraw (advance s) f)
  /-- A draw changes planes, marks the display and writes `VF`. -/
  | draw {x y : Reg} {n : Fin 16} (ras : Raster) (b : Byte) :
      Effect s (.drw x y n) (writeV { advance s with
        display := { s.display with planes := ras, dirty := true, pendingVblank := true } } vf b)
  | resolution {i : Instr} (h : i = .low ∨ i = .high) (b : Bool) : Effect s i (setHires (advance s) b)
  | plane (mask : BitVec 4) : Effect s (.plane mask) (setPlaneMask (advance s) mask)
  | pattern {x : Fin 16} (p : Vector Byte 16) :
      Effect s (.audio x) { advance s with audio := { s.audio with pattern := p, mode := .pattern } }
  | pitch {x : Reg} (b : Byte) :
      Effect s (.pitch x) { advance s with audio := { s.audio with pitch := b, mode := .pattern } }

/-! ### `exec` has only these effects -/

/-- A checked access that goes on with an effect of `i`, or takes its fault, has an effect of `i`. -/
theorem effect_orFault {α : Type} {i : Instr} {s : State} {r : Except Fault α} {k : α → State}
    (h : ∀ a, r = .ok a → Effect s i (k a)) : Effect s i (orFault s r k) := by
  rcases orFault_cases s r k with ⟨a, ha, hk⟩ | ⟨f, -, hk⟩ <;> rw [hk]
  · exact h a ha
  · exact .fault f

theorem effect_skipIf (i : Instr) (s : State) (c : Bool) : Effect s i (skipIf c s) := by
  rcases skipIf_cases s c with ⟨f, h⟩ | ⟨a, h⟩ <;> rw [h]
  · exact .fault f
  · exact .flow a

/-- A register instruction with a flag writes its register and `VF`. -/
theorem effect_writeFlagged {i : Instr} {s : State} (x : Reg) (r : Flagged)
    (hx : Destination i s x) (hf : Destination i s vf) : Effect s i (writeFlagged (advance s) x r) :=
  .regs [(x, r.value), (vf, flagByte r.flag)] (by simp [hx, hf])

/-- A logic instruction writes its register, and `VF` under `Q.vfReset`. -/
theorem effect_writeLogic {i : Instr} {s : State} (x : Reg) (b : Byte)
    (hx : Destination i s x) (hf : s.quirks.vfReset = true → Destination i s vf) :
    Effect s i (writeLogic (advance s) x b) := by
  unfold writeLogic
  split
  · next hq => exact .regs [(x, b), (vf, 0)] (by simp [hx, hf hq])
  · exact .regs [(x, b)] (by simp [hx])

/-- `exec` answers a next state, and that state is an effect of the instruction. -/
theorem exec_effect_exists (i : Instr) (s : State) : ∃ t, exec i s = .next t ∧ Effect s i t := by
  cases i
  case ret =>
    refine ⟨_, rfl, ?_⟩
    split
    · exact .fault _
    · exact .ret ‹_›
  case call nnn =>
    refine ⟨_, rfl, ?_⟩
    split
    · exact .fault _
    · exact .call _ _ ‹_›
  case exit =>
    refine ⟨_, rfl, ?_⟩
    cases Config.exitMode
    · exact .halt
    · exact .flow _
  case ldVxK x =>
    refine ⟨_, rfl, ?_⟩
    cases lowestReleased s with
    | none => exact .flow _
    | some k => exact .regs [(x, _)] (by simp [Destination])
  case seImm | sneImm | seReg | sneReg => exact ⟨_, rfl, effect_skipIf _ s _⟩
  case skp | sknp => exact ⟨_, rfl, effect_orFault fun _ _ => effect_skipIf _ s _⟩
  case ldImm x _ | addImm x _ | ldReg x _ | ldVxDT x => exact ⟨_, rfl, .regs [(x, _)] (by simp [Destination])⟩
  case rnd => exact ⟨_, rfl, .rnd _⟩
  case orReg x _ | andReg x _ | xorReg x _ =>
    exact ⟨_, rfl, effect_writeLogic x _ (.inl rfl) fun h => .inr ⟨h, rfl⟩⟩
  case addReg x _ | subReg x _ | subnReg x _ | shr x _ | shl x _ =>
    exact ⟨_, rfl, effect_writeFlagged x _ (.inl rfl) (.inr rfl)⟩
  case loadFlags x =>
    refine ⟨_, rfl, .regs _ fun rb h => ?_⟩
    obtain ⟨r, hr, rfl⟩ := List.mem_map.mp h
    exact mem_regsUpTo.mp hr
  case loadRange x y =>
    exact ⟨_, rfl, effect_orFault fun _ _ => .regs _ fun _ h => mem_regRange.mp (List.of_mem_zip h).1⟩
  case loadRegs x =>
    refine ⟨_, rfl, effect_orFault fun b _ => ?_⟩
    rw [writeBack_eq]
    exact .loadRegs _ (fun _ h => mem_regsUpTo.mp (List.of_mem_zip h).1) _
  case ldB => exact ⟨_, rfl, effect_orFault fun m h => .ldB m h⟩
  case saveRange => exact ⟨_, rfl, effect_orFault fun m h => .saveRange m h⟩
  case storeRegs x =>
    refine ⟨_, rfl, effect_orFault fun m h => ?_⟩
    simp only [writeBack_eq]
    exact .storeRegs m h _
  case ldI | ldILong | addI | ldF | ldHF => exact ⟨_, rfl, .index (by exact trivial) _ _⟩
  case ldDTVx => exact ⟨_, rfl, .dt _⟩
  case ldSTVx => exact ⟨_, rfl, .st _⟩
  case saveFlags => exact ⟨_, rfl, .flags _⟩
  case cls | scd | scu | scr | scl => exact ⟨_, rfl, .redraw (by exact trivial) _⟩
  case drw => exact ⟨_, rfl, effect_orFault fun _ _ => .draw _ _⟩
  case low => exact ⟨_, rfl, .resolution (.inl rfl) _⟩
  case high => exact ⟨_, rfl, .resolution (.inr rfl) _⟩
  case plane => exact ⟨_, rfl, .plane _⟩
  case audio => exact ⟨_, rfl, effect_orFault fun _ _ => .pattern _⟩
  case pitch => exact ⟨_, rfl, .pitch _⟩
  case jp | jpV0 | noop0 | noop5 | noop8 | noop9 | noopE | noopF => exact ⟨_, rfl, .flow _⟩

/-- What an instruction can do (40_flow.md R101). -/
theorem exec_effect {i : Instr} {s t : State} (h : exec i s = .next t) : Effect s i t := by
  obtain ⟨u, hu, he⟩ := exec_effect_exists i s
  rw [hu] at h
  exact Host.Outcome.next.inj h ▸ he

/-- What a CPU step can do: nothing on a machine that is not running, else an effect of some instruction; the fault of
a fetch is an effect of every one (40_flow.md R100). -/
theorem step_effect {s t : State} (h : step s = .next t) :
    (s.status ≠ .running ∧ t = s) ∨ (s.status = .running ∧ ∃ i, Effect s i t) := by
  rcases step_cases s with ⟨hr, hs⟩ | ⟨hr, i, -, hs⟩ | ⟨hr, f, -, hs⟩ <;> rw [hs] at h
  · exact .inl ⟨hr, (Host.Outcome.next.inj h).symm⟩
  · exact .inr ⟨hr, i, exec_effect h⟩
  · exact .inr ⟨hr, .cls, Host.Outcome.next.inj h ▸ .fault f⟩

end Sys2Proof.Machine
end

section
/-! SUPPORT. The frames over all instructions (10_state.md R20 to R38), each a case split over the effects. -/

namespace Sys2Proof.Machine

/-- A register that is no destination of the instruction keeps its value (10_state.md R20, R21). -/
theorem Effect.readV_eq {i : Instr} {s t : State} {k : Reg} (h : Effect s i t) (hk : ¬ Destination i s k) :
    readV t k = readV s k := by
  cases h with
  | regs rbs hd => exact readV_writeRegs_of_notMem rbs _ k fun rb hm he => hk (he ▸ hd rb hm)
  | loadRegs rbs hd a => exact readV_writeRegs_of_notMem rbs _ k fun rb hm he => hk (he ▸ hd rb hm)
  | rnd b => exact (readV_writeV ..).trans (if_neg hk)
  | draw ras b => exact (readV_writeV ..).trans (if_neg hk)
  | flags rbs => simp [readV]
  | _ => rfl

/-- Settles O12: a register outside the listed ones is no destination of the instruction. -/
theorem registersChangeOnlyAtDestinations : Obligations.RegistersChangeOnlyAtDestinations := by
  intro i s t k h hk
  refine (exec_effect h).readV_eq fun hd => ?_
  cases i
  case ldImm | addImm | ldReg | rnd | ldVxDT | ldVxK | drw => exact hk hd
  case orReg | andReg | xorReg =>
    obtain hx | ⟨hq, hf⟩ := hd
    · exact hk.1 hx
    · exact hk.2 hq hf
  case addReg | subReg | subnReg | shr | shl => exact hd.elim hk.1 hk.2
  case loadRegs | loadFlags => exact absurd hk (not_lt.mpr hd)
  case loadRange =>
    obtain ⟨h1, h2⟩ | ⟨h1, h2⟩ := hd <;> obtain ⟨h3, h4⟩ | ⟨h3, h4⟩ := hk
    · exact absurd h3 (not_lt.mpr h1)
    · exact absurd h4 (not_lt.mpr h2)
    · exact absurd h4 (not_lt.mpr h1)
    · exact absurd h3 (not_lt.mpr h2)
  all_goals exact hd

/-- Settles O14: each effect leaves every special state but its own as it was. -/
theorem specialStateIsWrittenOnlyByItsInstructions : Obligations.SpecialStateIsWrittenOnlyByItsInstructions := by
  intro i s t h
  cases exec_effect h with
  | index hi a b => cases i <;> simp_all [SetsOnlyIndex]
  | redraw hi f => cases i <;> simp_all [RedrawsPlanes]
  | resolution hi b => simp +contextual [hi]
  | _ => simp +contextual

/-- Settles O15: no effect writes what the host owns, and a machine that is not running writes nothing. -/
theorem noStepWritesWhatTheHostOwns : Obligations.NoStepWritesWhatTheHostOwns := by
  intro s t h
  rcases step_effect h with ⟨-, rfl⟩ | ⟨-, i, he⟩
  · simp
  · cases he <;> simp

end Sys2Proof.Machine
end

section
/-! SUPPORT. The state after reset (10_state.md R42), one part at a time. -/

namespace Sys2Proof.Machine

/-! ### The reset content of memory (10_state.md R32, R33) -/

theorem length_fontSmall : fontSmall.length = 80 := by simp [fontSmall]

theorem length_fontBig : fontBig.length = 160 := by simp [fontBig]

/-- The small font stands at 0. -/
theorem resetByte_small {k : Nat} (h : k < 80) : fontSmall[k]? = some (resetByte k) := by
  have hnot : ¬(bigFontAddr ≤ k ∧ k < bigFontAddr + 10 * bigFontGlyphs) := by
    unfold bigFontAddr; omega
  have hin : fontAddr ≤ k ∧ k < fontAddr + 80 := by unfold fontAddr; omega
  rw [resetByte, if_neg hnot, if_pos hin, fontAddr, Nat.sub_zero,
    List.getElem?_eq_getElem (length_fontSmall ▸ h), List.getD_eq_getElem]

/-- The big font stands at 0x50. -/
theorem resetByte_big {k : Nat} (h : k < 160) : fontBig[k]? = some (resetByte (0x50 + k)) := by
  have hin : bigFontAddr ≤ 0x50 + k ∧ 0x50 + k < bigFontAddr + 10 * bigFontGlyphs := by
    unfold bigFontAddr bigFontGlyphs; omega
  rw [resetByte, if_pos hin, bigFontAddr, Nat.add_sub_cancel_left,
    List.getElem?_eq_getElem (length_fontBig ▸ h), List.getD_eq_getElem]

/-- No font reaches 0xF0. -/
theorem resetByte_above {a : Nat} (h : 0xF0 ≤ a) : resetByte a = 0 := by
  have hbig : ¬(bigFontAddr ≤ a ∧ a < bigFontAddr + 10 * bigFontGlyphs) := by
    unfold bigFontAddr bigFontGlyphs; omega
  have hsmall : ¬(fontAddr ≤ a ∧ a < fontAddr + 80) := by unfold fontAddr; omega
  rw [resetByte, if_neg hbig, if_neg hsmall]

/-! ### The arrays of a fresh state -/

section
variable (p : Preset) (rand : RandSource)

@[simp] theorem readV_powerOn (k : Reg) : readV (State.powerOn p rand) k = 0 := Vector.getElem_replicate _

@[simp] theorem readFlag_powerOn (k : Reg) : readFlag (State.powerOn p rand) k = 0 := Vector.getElem_replicate _

@[simp] theorem stackSlot_powerOn (k : Byte) : stackSlot (State.powerOn p rand) k = 0 := Vector.getElem_replicate _

@[simp] theorem cell_powerOn (q : Fin 4) (r : Fin 64) (c : Fin 128) :
    cell (State.powerOn p rand).display.planes q r c = false := by
  simp [cell, State.powerOn]

end

/-- Settles O57: the arrays and the memory by the lemmas above, every other field by its definition. -/
theorem resetStateIsAsListed : Obligations.ResetStateIsAsListed := by
  refine ⟨fun k => ⟨readV_powerOn _ _ k, readFlag_powerOn _ _ k⟩, rfl, rfl, rfl, rfl, stackSlot_powerOn _ _,
    cell_powerOn _ _, rfl, rfl, rfl, rfl, fun k => ⟨Vector.getElem_replicate _, Vector.getElem_replicate _⟩, rfl,
    fun k => Vector.getElem_replicate _, rfl, rfl, rfl, rfl, rfl, rfl, rfl, rfl, rfl,
    fun _ => resetByte_small, fun _ => resetByte_big, fun _ => resetByte_above⟩

end Sys2Proof.Machine
end

section
/-! SUPPORT. The invariant: at reset, under every effect of a CPU step, and under every host operation. -/

namespace Sys2Proof.Machine

/-! ### Reset and load -/

theorem tickrate_pos (p : Platform) : 0 < Config.tickrate p := by
  unfold Config.tickrate
  split
  · assumption
  · exact one_pos

/-- The invariant holds in every freshly loaded state, whatever canonical memory it gets. -/
theorem Inv.powerOn {p : Preset} (hp : 0 < p.tickrate) (rand : RandSource) {m : Memory} (hm : m.wf) :
    Inv { State.powerOn p rand with mem := m } where
  memWf := hm
  spLe := Nat.zero_le _
  stackAbove k _ := stackSlot_powerOn p rand k
  tickratePos := hp
  patPhase := by simp [State.powerOn]
  beepPhase := by simp [State.powerOn]
  accums := by simp [State.powerOn]
  faultAddr _ _ _ h := by cases h

/-- Settles O58: reset is a fresh state with the tickrate of the default platform. -/
theorem resetSatisfiesTheInvariant : Obligations.ResetSatisfiesTheInvariant :=
  Inv.powerOn (tickrate_pos _) _ Memory.wf_nil

/-! ### CPU steps -/

theorem stackDepth_le : Config.stackDepth ≤ 255 := by
  have := Config.stackDepthExcess.isLt
  unfold Config.stackDepth
  omega

/-- A fault changes only `status`, and records `PC` as its address (60_exceptions.md R272). -/
theorem Inv.takeFault {s : State} (hs : Inv s) (f : Fault) : Inv (takeFault f s) :=
  { hs with
    faultAddr := fun _ _ _ h => by
      simp only [takeFault_status, Status.faulted.injEq] at h
      exact h.2.1.symm }

/-- A push below a full stack keeps `SP` at most the depth and writes no slot at or above it (10_state.md R24). -/
theorem Inv.pushReturn {s : State} (hs : Inv s) (h : s.cpu.sp.toNat ≠ Config.stackDepth) (a : Word) :
    Inv (pushReturn s a) := by
  have hle := hs.spLe
  have hdepth := stackDepth_le
  refine { hs with spLe := ?_, stackAbove := fun k hk => ?_ }
  · rw [pushReturn_cpu_sp]
    bv_omega
  · have hne : k ≠ s.cpu.sp := by rintro rfl; omega
    rw [stackSlot_pushReturn, if_neg hne]
    exact hs.stackAbove k hk

/-- A state that is not faulted meets the invariant at any `PC`. -/
theorem Inv.setPc {s : State} (hs : Inv s) (hr : s.status = .running) (a : Word) : Inv (setPc s a) :=
  { hs with faultAddr := fun _ _ _ h => by simp [hr] at h }

theorem Inv.popReturn {s : State} (hs : Inv s) (hr : s.status = .running) (h : s.cpu.sp ≠ 0) :
    Inv (popReturn s) := by
  have hle := hs.spLe
  refine { hs with spLe := ?_, faultAddr := fun _ _ _ h => by simp [hr] at h }
  have : s.cpu.sp.toNat ≠ 0 := fun h0 => h (BitVec.eq_of_toNat_eq h0)
  rw [popReturn_cpu_sp]
  bv_omega

/-- Every effect on a running machine keeps the invariant. -/
theorem Inv.effect {i : Instr} {s t : State} (hs : Inv s) (hr : s.status = .running) (h : Effect s i t) : Inv t := by
  have ha : Inv (advance s) := hs.setPc hr _
  cases h with
  | fault f => exact hs.takeFault f
  | call a b h => exact (ha.pushReturn h a).setPc hr b
  | ret h => exact ha.popReturn hr h
  | ldB m h => exact { ha with memWf := wf_memWrite hs.memWf h }
  | saveRange m h => exact { ha with memWf := wf_memWrite hs.memWf h }
  | storeRegs m h a => exact { ha with memWf := wf_memWrite hs.memWf h }
  | halt => exact { ha with faultAddr := fun _ _ _ h => by cases h }
  | regs rbs => rw [writeRegs_eq]; exact { ha with }
  | loadRegs rbs => rw [writeRegs_eq]; exact { ha with }
  | flags rbs => rw [writeFlags_eq]; exact { ha with }
  | flow a => exact hs.setPc hr a
  | index hi a b => exact { hs.setPc hr a with }
  | _ => exact { ha with }

/-- Settles O59: a step does nothing to a machine that is not running, and has an effect on one that is. -/
theorem everyStepKeepsTheInvariant : Obligations.EveryStepKeepsTheInvariant := by
  intro s t hs h
  rcases step_effect h with ⟨-, rfl⟩ | ⟨hr, i, he⟩
  · exact hs
  · exact hs.effect hr he

/-! ### The accumulators (10_state.md R37, 60_exceptions.md R281) -/

/-- A rounding that keeps non-negative reals non-negative keeps non-negative rationals so. -/
theorem Reals.KeepsNonneg.round_nonneg {R : Reals} (h : R.KeepsNonneg) {q : Rat} (hq : 0 ≤ q) : 0 ≤ R.round q := by
  have hr := h q (by exact_mod_cast hq)
  rw [← R.round_eq] at hr
  exact_mod_cast hr

theorem timerHz_nonneg : 0 ≤ timerHz := by norm_num [timerHz]

section
variable {R : Reals} {s : State} {elapsed : Rat}

theorem cyclesDue_nonneg (hR : R.KeepsNonneg) (hs : Inv s) (he : 0 ≤ elapsed) : 0 ≤ cyclesDue R elapsed s := by
  have hrate : 0 ≤ R.round (s.seq.tickrate * timerHz) :=
    hR.round_nonneg (mul_nonneg hs.tickratePos.le timerHz_nonneg)
  exact hR.round_nonneg (add_nonneg hs.accums.1 (hR.round_nonneg (mul_nonneg hrate he)))

theorem ticksDue_nonneg (hR : R.KeepsNonneg) (hs : Inv s) (he : 0 ≤ elapsed) : 0 ≤ ticksDue R elapsed s :=
  hR.round_nonneg (add_nonneg hs.accums.2 (hR.round_nonneg (mul_nonneg timerHz_nonneg he)))

end

theorem Inv.setCycleAccum {s : State} (hs : Inv s) {q : Rat} (hq : 0 ≤ q) : Inv (setCycleAccum s q) :=
  { hs with accums := ⟨hq, hs.accums.2⟩ }

theorem Inv.setTimerAccum {s : State} (hs : Inv s) {q : Rat} (hq : 0 ≤ q) : Inv (setTimerAccum s q) :=
  { hs with accums := ⟨hs.accums.1, hq⟩ }

/-! ### `run-frame` -/

theorem Inv.cycle {s t : State} (hs : Inv s) (h : cycle s = .next t) : Inv t := by
  unfold Machine.cycle at h
  split at h
  · exact Host.Outcome.next.inj h ▸ hs
  · exact everyStepKeepsTheInvariant s t hs h

/-- Turns that are each taken from at least 1 keep the cycle accumulator non-negative, and with it the invariant. -/
theorem Inv.cycleLoop {R : Reals} (hR : R.KeepsNonneg) {n : Nat} {s t : State} (hs : Inv s)
    (hn : ∀ j, j < n → 1 ≤ afterUnits R.round j s.seq.cycleAccum) (h : cycleLoop R n s = .next t) : Inv t := by
  induction n generalizing s with
  | zero => exact Host.Outcome.next.inj h ▸ hs
  | succ n ih =>
    have h1 : 1 ≤ s.seq.cycleAccum := hn 0 (Nat.succ_pos n)
    have hs' : Inv (Machine.setCycleAccum s (R.round (s.seq.cycleAccum - 1))) :=
      hs.setCycleAccum (hR.round_nonneg (sub_nonneg.mpr h1))
    unfold Machine.cycleLoop at h
    split at h
    · next u hu =>
      refine ih (hs'.cycle hu) (fun j hj => ?_) h
      rw [cycle_keeps_seq hu]
      exact hn (j + 1) (Nat.succ_lt_succ hj)
    · cases h
    · cases h

theorem Inv.runCycles {R : Reals} (hR : R.KeepsNonneg) {elapsed : Rat} (he : 0 ≤ elapsed) {s t : State} (hs : Inv s)
    (h : runCycles R elapsed s = .next t) : Inv t :=
  (hs.setCycleAccum (cyclesDue_nonneg hR hs he)).cycleLoop hR (R.turns_spec _).1 h

theorem Inv.timerTick {s : State} (hs : Inv s) : Inv (timerTick s).1 := by
  have hdt : Inv (cpuTickTimer s) := by
    unfold cpuTickTimer
    split
    · exact { hs with }
    · exact hs
  have hst : Inv (audioTickTimer (cpuTickTimer s)).1 := by
    unfold audioTickTimer
    split
    · exact { hdt with }
    · exact hdt
  exact { hst with }

/-- The same for the turns of the timer half. -/
theorem Inv.tickLoop {R : Reals} (hR : R.KeepsNonneg) {n : Nat} {s : State} (hs : Inv s)
    (hn : ∀ j, j < n → 1 ≤ afterUnits R.round j s.seq.timerAccum) (beep : Bool) : Inv (tickLoop R n s beep).1 := by
  induction n generalizing s beep with
  | zero => exact hs
  | succ n ih =>
    have h1 : 1 ≤ s.seq.timerAccum := hn 0 (Nat.succ_pos n)
    refine ih (hs.setTimerAccum (hR.round_nonneg (sub_nonneg.mpr h1))).timerTick (fun j hj => ?_) _
    rw [timerTick_seq]
    exact hn (j + 1) (Nat.succ_lt_succ hj)

theorem Inv.runTicks {R : Reals} (hR : R.KeepsNonneg) {elapsed : Rat} (he : 0 ≤ elapsed) {s : State} (hs : Inv s) :
    Inv (runTicks R elapsed s).1 :=
  (hs.setTimerAccum (ticksDue_nonneg hR hs he)).tickLoop hR (R.turns_spec _).1 false

theorem Inv.poll {s : State} (hs : Inv s) : Inv (poll s).1 := { hs with }

theorem Inv.runFrame {R : Reals} (hR : R.KeepsNonneg) {elapsed : Rat} (he : 0 ≤ elapsed) {s t : State} (hs : Inv s)
    {f : FrameState} (h : runFrame R elapsed s = .next (t, f)) : Inv t := by
  unfold Machine.runFrame at h
  split at h
  · cases h
  · cases h
  · next u hu =>
    cases h
    exact ((hs.runCycles hR he hu).runTicks hR he).poll

/-! ### The other operations -/

/-- A load that succeeds makes a fresh state, and one that fails changes nothing (60_exceptions.md R274). -/
theorem Inv.load {presets : Platform → Preset} (hp : ∀ p, 0 < (presets p).tickrate) (rom : List Byte)
    (p : PlatformArg) {s : State} (hs : Inv s) : Inv (load presets rom p s).1 := by
  unfold Machine.load
  split
  · next hfit =>
    split
    · exact hs
    · exact Inv.powerOn (hp _) _ (Memory.wf_writeBytes Memory.wf_nil _ _ (of_decide_eq_true hfit))
  · exact hs

/-- Both phases are in their ranges (10_state.md R36). -/
def PhasesInRange (a : Audio) : Prop :=
  (0 ≤ a.patPhase.value ∧ a.patPhase.value < 128) ∧ 0 ≤ a.beepPhase ∧ a.beepPhase < 1

/-- A sample leaves a phase where it was, or where `frac` or `mod 128` put it, whatever the rounding. -/
theorem PhasesInRange.sample (R : Reals) (sr : Rat) {a : Audio} (ha : PhasesInRange a) :
    PhasesInRange (sample R sr a).1 := by
  obtain ⟨hpat, hbeep⟩ := ha
  rcases sample_cases R sr a with ⟨-, h⟩ | ⟨-, -, q, l, h0, h1, -, h⟩ | ⟨-, -, v, l, h0, h1, -, h⟩ <;> rw [h]
  · exact ⟨hpat, hbeep⟩
  · exact ⟨hpat, h0, h1⟩
  · exact ⟨⟨h0, h1⟩, hbeep⟩

theorem Inv.output (R : Reals) (n : Nat) (sr : Rat) {s : State} (hs : Inv s) : Inv (output R n sr s).1 := by
  have h : PhasesInRange (synthesize R sr n s.audio).1 :=
    synthesize_induction R sr (fun _ ha => ha.sample R sr) n ⟨hs.patPhase, hs.beepPhase⟩
  obtain ⟨hpat, hbeep⟩ := h
  exact { hs with patPhase := hpat, beepPhase := hbeep }

theorem Inv.keyEvent {s t : State} (hs : Inv s) {k : Nat} {b : Bool} {r : Reply}
    (h : keyEvent s k b = .next (t, r)) : Inv t := by
  unfold Machine.keyEvent at h
  split at h
  · cases h
    exact { hs with }
  · cases h

section
variable {R : Reals} {s t : State} {r : Reply}

/-- `run-frame` is refused for a negative time, and is `RunFrame` for any other (60_exceptions.md R284). -/
theorem hostOp_runFrame_next {elapsed : Rat} (h : hostOp R (.runFrame elapsed) s = .next (t, r)) :
    0 ≤ elapsed ∧ ∃ f, runFrame R elapsed s = .next (t, f) := by
  change (if elapsed < 0 then _ else _) = _ at h
  split at h
  · cases h
  · next he =>
    split at h
    · next f hf =>
      cases h
      exact ⟨not_lt.mp he, f, hf⟩
    · cases h
    · cases h

/-- The host's `step` is one CPU step (R286). -/
theorem hostOp_step_next (h : hostOp R .step s = .next (t, r)) : step s = .next t := by
  unfold hostOp at h
  simp only at h
  split at h
  · next hstep =>
    cases h
    exact hstep
  · cases h
  · cases h

/-- `set-tickrate` writes a positive tickrate (R287). -/
theorem hostOp_setTickrate_next {q : Rat} (h : hostOp R (.setTickrate q) s = .next (t, r)) :
    0 < q ∧ t = setTickrate s q := by
  change (if q ≤ 0 then _ else _) = _ at h
  split at h
  · cases h
  · next hq =>
    cases h
    exact ⟨not_le.mp hq, rfl⟩

/-- `output` leaves the state that its samples leave (R284). -/
theorem hostOp_output_next {n : Nat} {sr : Rat} (h : hostOp R (.output n sr) s = .next (t, r)) :
    t = (output R n sr s).1 := by
  change (if sr ≤ 0 then _ else _) = _ at h
  split at h
  · cases h
  · cases h
    rfl

end

/-- Settles O60: one lemma per operation that writes the state; introspection and raster readback leave it. -/
theorem everyHostOperationKeepsTheInvariant : Obligations.EveryHostOperationKeepsTheInvariant := by
  intro R op s t r hR hadm hs h
  cases op with
  | load presets rom p =>
    cases h
    exact hs.load hadm rom p
  | runFrame elapsed =>
    obtain ⟨he, f, hf⟩ := hostOp_runFrame_next h
    exact hs.runFrame hR he hf
  | step => exact everyStepKeepsTheInvariant s t hs (hostOp_step_next h)
  | press k => exact hs.keyEvent h
  | release k => exact hs.keyEvent h
  | setQuirks q =>
    cases h
    exact { hs with }
  | setTickrate q =>
    obtain ⟨hq, rfl⟩ := hostOp_setTickrate_next h
    exact { hs with tickratePos := hq }
  | output n sr =>
    obtain rfl := hostOp_output_next h
    exact hs.output R n sr
  | poll =>
    cases h
    exact hs.poll
  | readRaster | peekNext | peek | disassembleRom =>
    cases h
    exact hs

end Sys2Proof.Machine
end

section
/-! SUPPORT. Memory (20_memory.md): what a checked store leaves alone, and the faults of a fetch taken by a step. -/

namespace Sys2Proof.Machine

/-! ### Stores -/

/-- A checked store that goes through leaves every byte outside its range alone (R63, R67). -/
theorem read_memWrite_outside {s : State} {a b : Nat} {bs : List Byte} {m : Memory} (hm : memWrite s a bs = .ok m)
    (hb : b < a ∨ a + bs.length ≤ b) : m.read b = s.mem.read b := by
  unfold memWrite at hm
  split at hm
  · cases hm
  · cases hm
    exact Memory.read_writeBytes_outside s.mem bs hb

/-- Settles O13: three effects store bytes at `I`, and every other one keeps the whole memory. -/
theorem memoryChangesOnlyWhereStored : Obligations.MemoryChangesOnlyWhereStored := by
  intro i s t a h ha
  cases exec_effect h with
  | ldB m hm => exact read_memWrite_outside hm ha
  | saveRange m hm =>
    exact read_memWrite_outside hm (by rwa [length_readRegs, length_regRange])
  | storeRegs m hm b =>
    exact read_memWrite_outside hm (by rwa [length_readRegs, length_regsUpTo])
  | regs | loadRegs | flags => simp
  | _ => rfl

/-! ### Fetches -/

/-- At every address but the last, a fetch gives the big-endian word (R64, R65). -/
theorem fetchWord_of_ne {s : State} {a : Word} (h : a ≠ 0xFFFF) :
    fetchWord s a =
      .ok (BitVec.ofNat 16 (256 * (s.mem.read a.toNat).toNat + (s.mem.read (a.toNat + 1)).toNat)) := by
  have hlast : a.toNat ≠ 65535 := fun ha => h (BitVec.eq_of_toNat_eq ha)
  rw [fetchWord_eq, if_neg hlast, joinBytes_eq_ofNat]

/-- A word fetched at the last address would cross the end of memory (R64, R66). -/
theorem fetchWord_last (s : State) : fetchWord s 0xFFFF = .error (.fetchOutOfRange 0xFFFF) := fetchWord_eq s 0xFFFF

/-- A running machine that cannot fetch its instruction takes the fault (40_flow.md R100, 60_exceptions.md R272). -/
theorem step_of_fetchInstr_error {s : State} {f : Fault} (hr : s.status = .running) (h : fetchInstr s = .error f) :
    step s = .next (takeFault f s) := by
  rw [step, if_pos hr, h]

/-- Settles O6: the fetch by its two cases, and the step by the fault of its first or its second word. -/
theorem fetchReadsABigEndianWord : Obligations.FetchReadsABigEndianWord := by
  intro s a
  refine ⟨fetchWord_of_ne, fun ha => ha ▸ fetchWord_last s, fun hr hpc => ?_, fun hr hpc hhi hlo => ?_⟩
  · have hfetch : fetchWord s s.cpu.pc = .error (.fetchOutOfRange 0xFFFF) := hpc ▸ fetchWord_last s
    rw [step_of_fetchInstr_error hr (fetchInstr_error hfetch), takeFault, hfetch, hpc]
    rfl
  · have hfirst : fetchWord s s.cpu.pc = .ok longWord := by
      rw [hpc, fetchWord_of_ne (by decide)]
      change Except.ok (BitVec.ofNat 16 (256 * (s.mem.read 0xFFFD).toNat + (s.mem.read 0xFFFE).toNat)) = _
      rw [hhi, hlo]
      rfl
    have hsecond : fetchWord s (s.cpu.pc + 2) = .error (.fetchOutOfRange 0xFFFF) := by
      rw [hpc]
      exact fetchWord_last s
    rw [step_of_fetchInstr_error hr (fetchInstr_long_error hfirst hsecond), takeFault, hfirst, hpc]
    rfl

end Sys2Proof.Machine
end

section
/-! SUPPORT. The encoding map (30_encoding.md): the decoder and the encoder are inverse, each word selects one row, and
the first word tells the length. -/

namespace Sys2Proof

/-! ### A word is its fields (R81) -/

theorem family_lt (w : Word) : family w < 16 := BitVec.isLt _

section
variable {w : Word} {f : BitVec 4}

theorem wordXYN_of_fields {n : Fin 16} (hf : family w = f.toNat) (hn : (fieldN w).val = n.val) :
    wordXYN f (fieldX w) (fieldY w) n = w := by
  apply BitVec.eq_of_toNat_eq
  rw [toNat_wordXYN, ← hf, ← hn, family_eq, val_fieldX, val_fieldY, val_fieldN]
  omega

theorem wordXNN_of_fields {nn : Byte} (hf : family w = f.toNat) (hnn : (fieldNN w).toNat = nn.toNat) :
    wordXNN f (fieldX w) nn = w := by
  apply BitVec.eq_of_toNat_eq
  rw [toNat_wordXNN, ← hf, ← hnn, family_eq, val_fieldX, toNat_fieldNN]
  omega

theorem wordNNN_of_fields (hf : family w = f.toNat) : wordNNN f (fieldNNN w) = w := by
  apply BitVec.eq_of_toNat_eq
  rw [toNat_wordNNN, ← hf, family_eq, toNat_fieldNNN]
  omega

theorem and_FFF0_wordXYN (f : BitVec 4) (x y n : Fin 16) : wordXYN f x y n &&& 0xFFF0 = wordXYN f x y 0 := by
  apply BitVec.eq_of_toNat_eq
  rw [mask_FFF0, toNat_wordXYN, toNat_wordXYN, Fin.val_zero]
  omega

theorem wordXYN_of_and_FFF0 {x y : Fin 16} (h : w &&& 0xFFF0 = wordXYN f x y 0) : wordXYN f x y (fieldN w) = w := by
  replace h := congrArg BitVec.toNat h
  rw [mask_FFF0, toNat_wordXYN, Fin.val_zero] at h
  apply BitVec.eq_of_toNat_eq
  rw [toNat_wordXYN, val_fieldN]
  omega

end

/-! ### The operands of the no-op rows (R86) -/

/-- Family 0's no-op takes the words that no test of the family's decoder picks out. -/
theorem wellFormed_noop0 {nnn : BitVec 12} :
    (Instr.noop0 nnn).wellFormed = true ↔
      ¬ wordNNN 0x0 nnn &&& 0xFFF0 = 0x00C0 ∧ ¬ wordNNN 0x0 nnn &&& 0xFFF0 = 0x00D0 ∧ wordNNN 0x0 nnn ≠ 0x00E0 ∧
      wordNNN 0x0 nnn ≠ 0x00EE ∧ wordNNN 0x0 nnn ≠ 0x00FB ∧ wordNNN 0x0 nnn ≠ 0x00FC ∧ wordNNN 0x0 nnn ≠ 0x00FD ∧
      wordNNN 0x0 nnn ≠ 0x00FE ∧ wordNNN 0x0 nnn ≠ 0x00FF := by
  have hw : (wordNNN 0x0 nnn).toNat = nnn.toNat := by simp [toNat_wordNNN]
  have hm := mask_FFF0 (wordNNN 0x0 nnn)
  rw [hw] at hm
  simp only [Instr.wellFormed, noop0Operand, ne_eq, BitVec.toNat_eq, hw, hm, BitVec.reduceToNat, Bool.or_eq_true,
    Bool.and_eq_true, decide_eq_true_eq]
  omega

theorem wellFormed_noop5 {x y n : Fin 16} :
    (Instr.noop5 x y n).wellFormed = true ↔ n.val ≠ 0 ∧ n.val ≠ 2 ∧ n.val ≠ 3 := by
  simp [Instr.wellFormed, and_assoc]

theorem wellFormed_noop8 {x y n : Fin 16} :
    (Instr.noop8 x y n).wellFormed = true ↔ 8 ≤ n.val ∧ n.val ≠ 0xE := by
  simp [Instr.wellFormed]

theorem wellFormed_noop9 {x y n : Fin 16} : (Instr.noop9 x y n).wellFormed = true ↔ n.val ≠ 0 := by
  simp [Instr.wellFormed]

theorem wellFormed_noopE {x : Fin 16} {nn : Byte} :
    (Instr.noopE x nn).wellFormed = true ↔ nn ≠ 0x9E ∧ nn ≠ 0xA1 := by
  simp [Instr.wellFormed]

theorem wellFormed_noopF {x : Fin 16} {nn : Byte} :
    (Instr.noopF x nn).wellFormed = true ↔ nn ∉ familyFSelectors ∧ (x = 0 → nn ≠ 0) := by
  simp [Instr.wellFormed, imp_iff_not_or]

/-! ### Decoding what is encoded -/

/-- `i` is well formed and `w` is its one word. -/
def StandsFor (i : Instr) (w : Word) : Prop := i.wellFormed = true ∧ encode i = [w]

/-- Every well-formed instruction but the long load is encoded in one word (R80). -/
theorem standsFor_or_ldILong {i : Instr} (h : i.wellFormed = true) : (∃ w, StandsFor i w) ∨ ∃ n, i = .ldILong n := by
  cases i
  case ldILong n => exact .inr ⟨n, rfl⟩
  all_goals exact .inl ⟨_, h, rfl⟩

theorem decodeShort_of_family0 {w : Word} (hf : family w = 0) : decodeShort w = decodeFamily0 w := by
  simp only [decodeShort, hf]

theorem decodeShort_noop0 {nnn : BitVec 12} (h : (Instr.noop0 nnn).wellFormed = true) :
    decodeShort (wordNNN 0x0 nnn) = .noop0 nnn := by
  obtain ⟨hC, hD, hE0, hEE, hFB, hFC, hFD, hFE, hFF⟩ := wellFormed_noop0.mp h
  rw [decodeShort_of_family0 (family_wordNNN ..), decodeFamily0, if_neg hC, if_neg hD, if_neg hE0, if_neg hEE,
    if_neg hFB, if_neg hFC, if_neg hFD, if_neg hFE, if_neg hFF, fieldNNN_wordNNN]

theorem decodeShort_noop5 {x y n : Fin 16} (h : (Instr.noop5 x y n).wellFormed = true) :
    decodeShort (wordXYN 0x5 x y n) = .noop5 x y n := by
  obtain ⟨h0, h2, h3⟩ := wellFormed_noop5.mp h
  -- `simp` refutes the arms of the match by these three hypotheses and takes the last one
  simp [decodeShort, decodeFamily5]

theorem decodeShort_noop8 {x y n : Fin 16} (h : (Instr.noop8 x y n).wellFormed = true) :
    decodeShort (wordXYN 0x8 x y n) = .noop8 x y n := by
  obtain ⟨h8, hE⟩ := wellFormed_noop8.mp h
  simp only [decodeShort, family_wordXYN, BitVec.reduceToNat, decodeFamily8, fieldX_wordXYN, fieldY_wordXYN,
    fieldN_wordXYN]
  split
  case h_10 => rfl
  all_goals omega

theorem decodeShort_noop9 {x y n : Fin 16} (h : (Instr.noop9 x y n).wellFormed = true) :
    decodeShort (wordXYN 0x9 x y n) = .noop9 x y n := by
  have h0 := wellFormed_noop9.mp h
  -- `h0` refutes the first arm of the match
  simp [decodeShort, decodeFamily9]

theorem decodeShort_noopE {x : Fin 16} {nn : Byte} (h : (Instr.noopE x nn).wellFormed = true) :
    decodeShort (wordXNN 0xE x nn) = .noopE x nn := by
  obtain ⟨h9E, hA1⟩ := wellFormed_noopE.mp h
  simp only [decodeShort, family_wordXNN, BitVec.reduceToNat, decodeFamilyE, fieldX_wordXNN, fieldNN_wordXNN,
    if_neg h9E, if_neg hA1]

theorem decodeShort_noopF {x : Fin 16} {nn : Byte} (h : (Instr.noopF x nn).wellFormed = true) :
    decodeShort (wordXNN 0xF x nn) = .noopF x nn := by
  obtain ⟨hsel, -⟩ := wellFormed_noopF.mp h
  simp [familyFSelectors, ← BitVec.toNat_inj] at hsel
  simp only [decodeShort, family_wordXNN, BitVec.reduceToNat, decodeFamilyF, fieldX_wordXNN, fieldNN_wordXNN]
  split
  case h_16 => rfl
  all_goals omega

/-- A word decodes to the instruction it encodes: by the fields read back from the word, and in a family with a no-op
by what its operands leave out. -/
theorem StandsFor.decodeShort_eq {i : Instr} {w : Word} (h : StandsFor i w) : decodeShort w = i := by
  obtain ⟨hi, hw⟩ := h
  cases i
  case ldILong => cases hw
  all_goals obtain rfl := List.singleton_inj.mp hw
  case scd n =>
    have h : wordXYN 0x0 0x0 0xC n &&& 0xFFF0 = 0x00C0 := and_FFF0_wordXYN ..
    rw [decodeShort_of_family0 (family_wordXYN ..), decodeFamily0, if_pos h, fieldN_wordXYN]
  case scu n =>
    have h : wordXYN 0x0 0x0 0xD n &&& 0xFFF0 = 0x00D0 := and_FFF0_wordXYN ..
    rw [decodeShort_of_family0 (family_wordXYN ..), decodeFamily0, if_neg (by rw [h]; decide), if_pos h,
      fieldN_wordXYN]
  case cls | ret | scr | scl | exit | low | high => rfl
  case jp | call | ldI | jpV0 => simp [decodeShort]
  case seImm | sneImm | ldImm | addImm | rnd => simp [decodeShort]
  case drw => simp [decodeShort]
  case seReg | saveRange | loadRange => simp [decodeShort, decodeFamily5]
  case ldReg | orReg | andReg | xorReg | addReg | subReg | shr | subnReg | shl => simp [decodeShort, decodeFamily8]
  case sneReg => simp [decodeShort, decodeFamily9]
  case skp | sknp => simp [decodeShort, decodeFamilyE]
  case plane | audio | ldVxDT | ldVxK | ldDTVx | ldSTVx | addI | ldF | ldHF | ldB | pitch | storeRegs | loadRegs
      | saveFlags | loadFlags => simp [decodeShort, decodeFamilyF]
  case noop0 => exact decodeShort_noop0 hi
  case noop5 => exact decodeShort_noop5 hi
  case noop8 => exact decodeShort_noop8 hi
  case noop9 => exact decodeShort_noop9 hi
  case noopE => exact decodeShort_noopE hi
  case noopF => exact decodeShort_noopF hi

/-- `0xF000` would decode to an ill-formed no-op, so it stands for no instruction of one word (R87). -/
theorem StandsFor.ne_longWord {i : Instr} {w : Word} (h : StandsFor i w) : w ≠ longWord := by
  rintro rfl
  obtain rfl : decodeShort longWord = i := h.decodeShort_eq
  exact absurd h.1 (by decide)

/-- Settles O1: the one word of an instruction decodes to it, and the two words of the long load to that. -/
theorem decodingAnEncodedInstructionGivesItBack : Obligations.DecodingAnEncodedInstructionGivesItBack := by
  intro i rest hi
  rcases standsFor_or_ldILong hi with ⟨w, hw⟩ | ⟨n, rfl⟩
  · rw [encodeBytes, hw.2, decode_short_bytes w rest hw.ne_longWord, hw.decodeShort_eq]
  · exact decode_long_bytes n rest

/-! ### Encoding what is decoded -/

section
variable {i : Instr} {w : Word} {f : BitVec 4}

theorem StandsFor.of_XYN {n : Fin 16} (hi : i.wellFormed = true)
    (he : encode i = [wordXYN f (fieldX w) (fieldY w) n]) (hf : family w = f.toNat)
    (hn : (fieldN w).val = n.val) : StandsFor i w :=
  ⟨hi, by rw [he, wordXYN_of_fields hf hn]⟩

theorem StandsFor.of_XNN {nn : Byte} (hi : i.wellFormed = true)
    (he : encode i = [wordXNN f (fieldX w) nn]) (hf : family w = f.toNat)
    (hnn : (fieldNN w).toNat = nn.toNat) : StandsFor i w :=
  ⟨hi, by rw [he, wordXNN_of_fields hf hnn]⟩

theorem StandsFor.of_NNN (hi : i.wellFormed = true) (he : encode i = [wordNNN f (fieldNNN w)])
    (hf : family w = f.toNat) : StandsFor i w :=
  ⟨hi, by rw [he, wordNNN_of_fields hf]⟩

theorem standsFor_decodeFamily0 (hf : family w = 0) : StandsFor (decodeFamily0 w) w := by
  unfold decodeFamily0
  split_ifs
  · next h => exact ⟨rfl, by rw [encode, wordXYN_of_and_FFF0 h]⟩
  · next h => exact ⟨rfl, by rw [encode, wordXYN_of_and_FFF0 h]⟩
  case neg hC hD hE0 hEE hFB hFC hFD hFE hFF =>
    have hw : wordNNN 0x0 (fieldNNN w) = w := wordNNN_of_fields hf
    have hi : (Instr.noop0 (fieldNNN w)).wellFormed = true :=
      wellFormed_noop0.mpr (by rw [hw]; exact ⟨hC, hD, hE0, hEE, hFB, hFC, hFD, hFE, hFF⟩)
    exact .of_NNN hi rfl hf
  all_goals next h => exact ⟨rfl, h ▸ rfl⟩

theorem standsFor_decodeFamily5 (hf : family w = 5) : StandsFor (decodeFamily5 w) w := by
  unfold decodeFamily5
  split
  case h_1 hn | h_2 hn | h_3 hn => exact .of_XYN rfl rfl hf hn
  case h_4 h0 h2 h3 => exact .of_XYN (wellFormed_noop5.mpr ⟨h0, h2, h3⟩) rfl hf rfl

theorem standsFor_decodeFamily8 (hf : family w = 8) : StandsFor (decodeFamily8 w) w := by
  unfold decodeFamily8
  split
  case h_10 =>
    simp only [imp_false] at *
    exact .of_XYN (wellFormed_noop8.mpr (by omega)) rfl hf rfl
  all_goals next hn => exact .of_XYN rfl rfl hf hn

theorem standsFor_decodeFamily9 (hf : family w = 9) : StandsFor (decodeFamily9 w) w := by
  unfold decodeFamily9
  split
  · next hn => exact .of_XYN rfl rfl hf hn
  · next hn => exact .of_XYN (wellFormed_noop9.mpr hn) rfl hf rfl

theorem standsFor_decodeFamilyE (hf : family w = 0xE) : StandsFor (decodeFamilyE w) w := by
  unfold decodeFamilyE
  split_ifs with h9E hA1
  · exact .of_XNN rfl rfl hf (congrArg _ h9E)
  · exact .of_XNN rfl rfl hf (congrArg _ hA1)
  · exact .of_XNN (wellFormed_noopE.mpr ⟨h9E, hA1⟩) rfl hf rfl

theorem standsFor_decodeFamilyF (hf : family w = 0xF) (hw : w ≠ longWord) : StandsFor (decodeFamilyF w) w := by
  unfold decodeFamilyF
  split
  case h_16 =>
    refine .of_XNN (wellFormed_noopF.mpr ⟨?_, fun hx hnn => hw ?_⟩) rfl hf rfl
    · simp_all [familyFSelectors, ← BitVec.toNat_inj]
    · rw [← wordXNN_of_fields (f := 0xF) hf rfl, hx, hnn]
      rfl
  all_goals next hnn => exact .of_XNN rfl rfl hf hnn

/-- Every word but `0xF000` is the word of what it decodes to (R80, R86). -/
theorem standsFor_decodeShort (hw : w ≠ longWord) : StandsFor (decodeShort w) w := by
  have hlt := family_lt w
  unfold decodeShort
  split
  case h_1 hf => exact standsFor_decodeFamily0 hf
  case h_6 hf => exact standsFor_decodeFamily5 hf
  case h_9 hf => exact standsFor_decodeFamily8 hf
  case h_10 hf => exact standsFor_decodeFamily9 hf
  case h_15 hf => exact standsFor_decodeFamilyE hf
  case h_16 =>
    simp only [imp_false] at *
    exact standsFor_decodeFamilyF (by omega) hw
  case h_2 hf | h_3 hf | h_11 hf | h_12 hf => exact .of_NNN rfl rfl hf
  case h_4 hf | h_5 hf | h_7 hf | h_8 hf | h_13 hf => exact .of_XNN rfl rfl hf rfl
  case h_14 hf => exact .of_XYN rfl rfl hf rfl

end

/-- Settles O2: the bytes read are those of one short word, or of the long word and its operand. -/
theorem encodingADecodedInstructionGivesItsBytes : Obligations.EncodingADecodedInstructionGivesItsBytes := by
  intro bs rest i h
  rcases decode_ok_cases h with ⟨w, hw, rfl, rfl⟩ | ⟨n, rfl, rfl⟩
  · obtain ⟨hi, he⟩ := standsFor_decodeShort hw
    exact ⟨hi, by rw [encodeBytes, he]⟩
  · exact ⟨rfl, rfl⟩

/-! ### Which words a pattern holds of (R84) -/

theorem ofFin_and : ∀ a b : Fin 16, BitVec.ofFin (w := 4) (a &&& b) = BitVec.ofFin a &&& BitVec.ofFin b := by decide

theorem fin_and_zero : ∀ a : Fin 16, a &&& 0 = 0 := by decide

theorem fin_and_F : ∀ a : Fin 16, a &&& 0xF = a := by decide

/-- Words are masked field by field. -/
theorem wordXYN_and (f f' : BitVec 4) (x y n x' y' n' : Fin 16) :
    wordXYN f x y n &&& wordXYN f' x' y' n' = wordXYN (f &&& f') (x &&& x') (y &&& y') (n &&& n') := by
  simp only [wordXYN, ofFin_and]
  exact BitVec.and_append.trans (congrArg (· ++ _) (BitVec.and_append.trans (congrArg (· ++ _) BitVec.and_append)))

theorem toNat_and_wordXYN_F (w : Word) (x y n : Fin 16) :
    (w &&& wordXYN 0xF x y n).toNat =
      4096 * family w + 256 * (fieldX w &&& x).val + 16 * (fieldY w &&& y).val + (fieldN w &&& n).val := by
  have hw : wordXYN (w.extractLsb' 12 4) (fieldX w) (fieldY w) (fieldN w) = w := wordXYN_of_fields rfl rfl
  have hF : w.extractLsb' 12 4 &&& 0xF = w.extractLsb' 12 4 := BitVec.and_allOnes
  conv_lhs => rw [← hw]
  rw [wordXYN_and, toNat_wordXYN, hF, family]

section
variable {w v : Word}

theorem holds_F000 : (⟨0xF000, v⟩ : Pattern).holds w ↔ 4096 * family w = v.toNat := by
  have h := toNat_and_wordXYN_F w 0 0 0
  simp only [fin_and_zero] at h
  rw [Pattern.holds, BitVec.toNat_eq]
  exact h ▸ Iff.rfl

theorem holds_F00F : (⟨0xF00F, v⟩ : Pattern).holds w ↔ 4096 * family w + (fieldN w).val = v.toNat := by
  have h := toNat_and_wordXYN_F w 0 0 0xF
  simp only [fin_and_zero, fin_and_F] at h
  rw [Pattern.holds, BitVec.toNat_eq]
  exact h ▸ Iff.rfl

theorem holds_F0FF : (⟨0xF0FF, v⟩ : Pattern).holds w ↔ 4096 * family w + (fieldNN w).toNat = v.toNat := by
  have h := toNat_and_wordXYN_F w 0 0xF 0xF
  have hNN : (fieldNN w).toNat = 16 * (fieldY w).val + (fieldN w).val := by
    rw [toNat_fieldNN, val_fieldY, val_fieldN]
    omega
  simp only [fin_and_zero, fin_and_F] at h
  rw [Pattern.holds, BitVec.toNat_eq, hNN, ← Nat.add_assoc]
  exact h ▸ Iff.rfl

theorem holds_FFFF : (⟨0xFFFF, v⟩ : Pattern).holds w ↔ w = v := by
  have h : w &&& 0xFFFF = w := BitVec.and_allOnes
  rw [Pattern.holds, h]

end

/-- The first word of an instruction matches the pattern of its row. -/
theorem pattern_holds {i : Instr} {w : Word} {ws : List Word} (h : encode i = w :: ws) : i.pattern.holds w := by
  cases i
  all_goals obtain ⟨rfl, -⟩ := List.cons_eq_cons.mp h
  case cls | ret | scr | scl | exit | low | high | ldILong => exact holds_FFFF.mpr rfl
  case scd | scu => exact and_FFF0_wordXYN ..
  case jp | call | ldI | jpV0 | noop0 => exact holds_F000.mpr (by rw [family_wordNNN]; rfl)
  case seImm | sneImm | ldImm | addImm | rnd | noopE | noopF => exact holds_F000.mpr (by rw [family_wordXNN]; rfl)
  case drw | noop5 | noop8 | noop9 => exact holds_F000.mpr (by rw [family_wordXYN]; rfl)
  case seReg | saveRange | loadRange | ldReg | orReg | andReg | xorReg | addReg | subReg | shr | subnReg | shl
      | sneReg => exact holds_F00F.mpr (by rw [family_wordXYN, fieldN_wordXYN]; rfl)
  all_goals exact holds_F0FF.mpr (by rw [family_wordXNN, fieldNN_wordXNN]; rfl)

/-! ### The listed patterns (R85) -/

theorem listedPatterns_disjoint :
    listedPatterns.Pairwise (fun p q => p.mask &&& q.mask &&& (p.value ^^^ q.value) ≠ 0) := by decide

theorem and_xor_eq_zero_of_holds {p q : Pattern} {w : Word} (hp : p.holds w) (hq : q.holds w) :
    p.mask &&& q.mask &&& (p.value ^^^ q.value) = 0 := by
  have hbit : ∀ a b c : Bool, (b && c && (a && b ^^ a && c)) = false := by decide
  unfold Pattern.holds at hp hq
  rw [← hp, ← hq]
  ext k hk
  simp only [BitVec.getElem_and, BitVec.getElem_xor, BitVec.ofNat_eq_ofNat, BitVec.getElem_zero, hbit]

/-- No word matches two listed patterns. -/
theorem listedPattern_unique {p q : Pattern} {w : Word} (hp : p ∈ listedPatterns) (hq : q ∈ listedPatterns)
    (hpw : p.holds w) (hqw : q.holds w) : p = q := by
  have hpair : listedPatterns.Pairwise fun p q => ¬ (p.holds w ∧ q.holds w) :=
    listedPatterns_disjoint.imp fun hne hh => hne (and_xor_eq_zero_of_holds hh.1 hh.2)
  have hsymm : Std.Symm fun p q : Pattern => ¬ (p.holds w ∧ q.holds w) := ⟨fun _ _ h hh => h hh.symm⟩
  by_contra hne
  exact hpair.forall hp hq hne ⟨hpw, hqw⟩

theorem pattern_mem_listedPatterns {i : Instr} (h : i.isNoop = false) : i.pattern ∈ listedPatterns := by
  cases i
  case noop0 | noop5 | noop8 | noop9 | noopE | noopF => cases h
  all_goals exact List.mem_of_elem_eq_true rfl

/-- The listed patterns of family `f`. -/
def familyRows (f : BitVec 4) : List Pattern := listedPatterns.filter fun p => p.value &&& 0xF000 = wordNNN f 0

theorem familyRows_0 : familyRows 0x0 =
    [⟨0xFFF0, 0x00C0⟩, ⟨0xFFF0, 0x00D0⟩, ⟨0xFFFF, 0x00E0⟩, ⟨0xFFFF, 0x00EE⟩, ⟨0xFFFF, 0x00FB⟩, ⟨0xFFFF, 0x00FC⟩,
      ⟨0xFFFF, 0x00FD⟩, ⟨0xFFFF, 0x00FE⟩, ⟨0xFFFF, 0x00FF⟩] := by decide

theorem familyRows_5 : familyRows 0x5 = [0x0, 0x2, 0x3].map fun n => ⟨0xF00F, wordXYN 0x5 0 0 n⟩ := by decide

theorem familyRows_8 : familyRows 0x8 =
    [0x0, 0x1, 0x2, 0x3, 0x4, 0x5, 0x6, 0x7, 0xE].map fun n => ⟨0xF00F, wordXYN 0x8 0 0 n⟩ := by decide

theorem familyRows_9 : familyRows 0x9 = [0x0].map fun n => ⟨0xF00F, wordXYN 0x9 0 0 n⟩ := by decide

theorem familyRows_E : familyRows 0xE = [0x9E, 0xA1].map fun nn => ⟨0xF0FF, wordXNN 0xE 0 nn⟩ := by decide

theorem familyRows_F : familyRows 0xF =
    ⟨0xFFFF, longWord⟩ :: familyFSelectors.map fun nn => ⟨0xF0FF, wordXNN 0xF 0 nn⟩ := by decide

theorem mask_and_F000 : ∀ p ∈ listedPatterns, p.mask &&& 0xF000 = 0xF000 := by decide

section
variable {p : Pattern} {f : BitVec 4}

theorem mem_familyRows {w : Word} (hp : p ∈ listedPatterns) (h : p.holds w) (hf : family w = f.toNat) :
    p ∈ familyRows f := by
  have hw : w &&& 0xF000 = wordNNN f 0 :=
    holds_F000.mpr (by rw [hf]; exact (toNat_wordNNN f 0).symm)
  refine List.mem_filter.mpr ⟨hp, decide_eq_true ?_⟩
  calc p.value &&& 0xF000 = w &&& (p.mask &&& 0xF000) := by rw [← BitVec.and_assoc, h]
    _ = wordNNN f 0 := by rw [mask_and_F000 p hp, hw]

/-- In a family selected by `N`, a word that matches a listed pattern has a selector of the family. -/
theorem selectorN_mem {ns : List (Fin 16)} (hrows : familyRows f = ns.map fun n => ⟨0xF00F, wordXYN f 0 0 n⟩)
    {x y n : Fin 16} (hp : p ∈ listedPatterns) (h : p.holds (wordXYN f x y n)) : n ∈ ns := by
  have hrow := mem_familyRows hp h (family_wordXYN ..)
  rw [hrows] at hrow
  obtain ⟨m, hm, rfl⟩ := List.mem_map.mp hrow
  replace h := holds_F00F.mp h
  rw [family_wordXYN, fieldN_wordXYN, toNat_wordXYN, Fin.val_zero] at h
  obtain rfl : n = m := Fin.ext (by omega)
  exact hm

theorem selectorNN_eq {x : Fin 16} {nn mm : Byte}
    (h : (⟨0xF0FF, wordXNN f 0 mm⟩ : Pattern).holds (wordXNN f x nn)) : nn = mm := by
  replace h := holds_F0FF.mp h
  rw [family_wordXNN, fieldNN_wordXNN, toNat_wordXNN, Fin.val_zero] at h
  exact BitVec.eq_of_toNat_eq (by omega)

end

/-- The word of a no-op row matches no listed pattern (R86). -/
theorem not_holds_of_isNoop {i : Instr} {w : Word} {ws : List Word} (hi : i.wellFormed = true)
    (hw : encode i = w :: ws) (hnoop : i.isNoop = true) : ∀ p ∈ listedPatterns, ¬ p.holds w := by
  intro p hp h
  cases i
  all_goals obtain ⟨rfl, rfl⟩ := List.cons_eq_cons.mp hw
  case noop0 =>
    obtain ⟨hC, hD, hE0, hEE, hFB, hFC, hFD, hFE, hFF⟩ := wellFormed_noop0.mp hi
    have hrow := mem_familyRows hp h (family_wordNNN ..)
    simp only [familyRows_0, List.mem_cons, List.not_mem_nil, or_false] at hrow
    rcases hrow with rfl | rfl | rfl | rfl | rfl | rfl | rfl | rfl | rfl
    exacts [hC h, hD h, hE0 (holds_FFFF.mp h), hEE (holds_FFFF.mp h), hFB (holds_FFFF.mp h), hFC (holds_FFFF.mp h),
      hFD (holds_FFFF.mp h), hFE (holds_FFFF.mp h), hFF (holds_FFFF.mp h)]
  case noop5 =>
    have hn := selectorN_mem familyRows_5 hp h
    fin_cases hn <;> cases hi
  case noop8 =>
    have hn := selectorN_mem familyRows_8 hp h
    fin_cases hn <;> cases hi
  case noop9 =>
    have hn := selectorN_mem familyRows_9 hp h
    fin_cases hn
    cases hi
  case noopE =>
    have hrow := mem_familyRows hp h (family_wordXNN ..)
    rw [familyRows_E] at hrow
    obtain ⟨mm, hmm, rfl⟩ := List.mem_map.mp hrow
    obtain rfl := selectorNN_eq h
    fin_cases hmm <;> cases hi
  case noopF =>
    have hrow := mem_familyRows hp h (family_wordXNN ..)
    rw [familyRows_F] at hrow
    rcases List.mem_cons.mp hrow with rfl | hrow
    · exact StandsFor.ne_longWord ⟨hi, rfl⟩ (holds_FFFF.mp h)
    · obtain ⟨mm, hmm, rfl⟩ := List.mem_map.mp hrow
      obtain rfl := selectorNN_eq h
      exact (wellFormed_noopF.mp hi).1 hmm
  all_goals cases hnoop

theorem exists_encode_eq_cons (i : Instr) : ∃ w ws, encode i = w :: ws := by
  cases i
  all_goals exact ⟨_, _, rfl⟩

/-- What is decoded from two bytes and a rest has these two bytes as its first word. -/
theorem encode_of_decode {hi lo : Byte} {rest rest' : List Byte} {i : Instr}
    (h : decode (hi :: lo :: rest) = .ok (i, rest')) :
    i.wellFormed = true ∧ ∃ ws, encode i = joinBytes hi lo :: ws := by
  obtain ⟨hwf, hb⟩ := encodingADecodedInstructionGivesItsBytes _ _ _ h
  obtain ⟨w, ws, hw⟩ := exists_encode_eq_cons i
  rw [encodeBytes, hw] at hb
  obtain ⟨rfl, rfl, -⟩ : hi = highByte w ∧ lo = lowByte w ∧ rest = wordBytes ws ++ rest' := by
    simpa [wordBytes] using hb
  exact ⟨hwf, ws, by rw [hw, joinBytes_high_low]⟩

/-- Settles O3: a listed row's pattern is the only listed one its word matches, and a no-op's word matches none. -/
theorem eachWordSelectsItsUniqueRow : Obligations.EachWordSelectsItsUniqueRow := by
  refine ⟨listedPatterns_disjoint, fun hi lo rest rest' i h => ?_⟩
  obtain ⟨hwf, ws, he⟩ := encode_of_decode h
  have hpat := pattern_holds he
  cases hnoop : i.isNoop
  · have hmem := pattern_mem_listedPatterns hnoop
    exact ⟨hpat, fun p hp hh => listedPattern_unique hp hmem hh hpat, nofun, fun hnone => absurd hpat (hnone _ hmem)⟩
  · have hnone := not_holds_of_isNoop hwf he hnoop
    exact ⟨hpat, fun p hp hh => absurd hh (hnone p hp), fun _ => hnone, fun _ => rfl⟩

/-! ### The length of an instruction (R80, R87) -/

theorem joinBytes_eq_longWord {hi lo : Byte} : joinBytes hi lo = longWord ↔ hi = 0xF0 ∧ lo = 0x00 := by
  constructor
  · intro h
    exact ⟨(highByte_joinBytes hi lo).symm.trans (h ▸ rfl), (lowByte_joinBytes hi lo).symm.trans (h ▸ rfl)⟩
  · rintro ⟨rfl, rfl⟩
    rfl

/-- Settles O4: the decoder asks of the first word only whether it is `0xF000`. -/
theorem firstWordTellsTheLength : Obligations.FirstWordTellsTheLength := by
  intro hi lo rest
  constructor
  · intro hshort
    have hw : joinBytes hi lo ≠ longWord := fun h => hshort (joinBytes_eq_longWord.mp h)
    have h := decode_short_bytes (joinBytes hi lo) rest hw
    exact ⟨_, by simpa [wordBytes] using h⟩
  · rintro ⟨rfl, rfl⟩ hi2 lo2
    rw [← joinBytes_eq_ofNat]
    rfl

/-- Settles O5: each word by evaluation of the decoder. -/
theorem sampleWordsDecodeAsTheMapSays : Obligations.SampleWordsDecodeAsTheMapSays :=
  ⟨rfl, rfl, rfl, rfl, rfl, rfl, rfl⟩

end Sys2Proof

namespace Sys2Proof.Machine

/-! ### No encoding traps (R86, 60_exceptions.md R270, R279) -/

/-- Settles O9: a step does nothing, executes an instruction, which answers a next state, or takes the fault of its
fetch. -/
theorem everyStepAnswersANextState : Obligations.EveryStepAnswersANextState := by
  intro s
  rcases step_cases s with ⟨-, h⟩ | ⟨-, i, -, h⟩ | ⟨-, f, -, h⟩
  · exact ⟨_, h⟩
  · obtain ⟨t, ht, -⟩ := exec_effect_exists i s
    exact ⟨t, h.trans ht⟩
  · exact ⟨_, h⟩

end Sys2Proof.Machine
end

section
/-! SUPPORT. Control transfer (40_flow.md): the word of an instruction by its format, the form of each next state, and
the statements about steps, jumps, the stack, skips and the key wait. -/

namespace Sys2Proof.Machine

/-! ### A step of a running machine (R100, R101) -/

/-- A running machine whose fetch goes through executes what it fetched (R100). -/
theorem step_of_fetchInstr_ok {s : State} {i : Instr} (hr : s.status = .running) (h : fetchInstr s = .ok i) :
    step s = exec i s := by
  rw [step, if_pos hr, h]

/-- Settles O7: the words at `PC` are those of a short instruction or of the long load, and the fetch gives it. -/
theorem aStepRunsTheDecodedInstruction : Obligations.AStepRunsTheDecodedInstruction := by
  intro s i hr hi
  refine ⟨fun w hw hfetch => ?_, fun w n hw hfirst hsecond => ?_⟩
  · have hstands : StandsFor i w := ⟨hi, hw⟩
    apply step_of_fetchInstr_ok hr
    rw [fetchInstr_short hfetch hstands.ne_longWord, hstands.decodeShort_eq]
  · rcases standsFor_or_ldILong hi with ⟨v, -, hv⟩ | ⟨m, rfl⟩
    · cases hv.symm.trans hw
    · cases hw
      exact step_of_fetchInstr_ok hr (fetchInstr_long hfirst hsecond)

/-! ### The word of an instruction, by its format (30_encoding.md R81) -/

section
variable {i : Instr} {f : BitVec 4} {m : Nat}

theorem encodes_of_toNat {w : Word} (hi : encode i = [w]) (hm : w.toNat = m) : Encodes i m := by
  rw [Encodes, hi, word_eq_ofNat hm]

theorem encodes_of_XYN {x y n : Fin 16} (hi : encode i = [wordXYN f x y n])
    (hm : 4096 * f.toNat + 256 * x.val + 16 * y.val + n.val = m) : Encodes i m :=
  encodes_of_toNat hi ((toNat_wordXYN ..).trans hm)

theorem encodes_of_XNN {x : Fin 16} {nn : Byte} (hi : encode i = [wordXNN f x nn])
    (hm : 4096 * f.toNat + 256 * x.val + nn.toNat = m) : Encodes i m :=
  encodes_of_toNat hi ((toNat_wordXNN ..).trans hm)

theorem encodes_of_NNN {nnn : BitVec 12} (hi : encode i = [wordNNN f nnn])
    (hm : 4096 * f.toNat + nnn.toNat = m) : Encodes i m :=
  encodes_of_toNat hi ((toNat_wordNNN ..).trans hm)

end

/-! ### Instructions that only move `PC` -/

section
variable {i : Instr} {s : State}

theorem movesPc_of_setPc {a : Word} (h : exec i s = .next (setPc s a)) : MovesPc i s a :=
  ⟨_, h, ⟨rfl, fun _ => rfl⟩, rfl⟩

theorem faults_of_takeFault {f : Fault} (h : exec i s = .next (takeFault f s)) : Faults i s f :=
  h.trans (congrArg _ (takeFault_eq f s))

end

/-- Settles O21: each of the six rows answers the fetch advance. -/
theorem noOpRowsOnlyAdvance : Obligations.NoOpRowsOnlyAdvance := by
  intro s nnn x y n nn
  exact ⟨⟨encodes_of_NNN rfl (Nat.zero_add _), movesPc_of_setPc rfl⟩,
    ⟨encodes_of_XYN rfl rfl, movesPc_of_setPc rfl⟩,
    ⟨encodes_of_XYN rfl rfl, movesPc_of_setPc rfl⟩,
    ⟨encodes_of_XYN rfl rfl, movesPc_of_setPc rfl⟩,
    ⟨encodes_of_XNN rfl rfl, movesPc_of_setPc rfl⟩,
    ⟨encodes_of_XNN rfl rfl, movesPc_of_setPc rfl⟩⟩

/-! ### Jumps (R105, R107) -/

theorem zext16_eq_ofNat (nnn : BitVec 12) : zext16 nnn = BitVec.ofNat 16 nnn.toNat := (BitVec.ofNat_toNat ..).symm

/-- The target of `BNNN`, whose offset register is the top nibble of `NNN` or `V0` (R107, D44). -/
theorem jumpTarget_eq (s : State) {nnn : BitVec 12} {x : Reg} (hx : x.val = nnn.toNat / 256) :
    zext16 nnn + (readV s (jumpRegister s nnn)).setWidth 16 =
      BitVec.ofNat 16 (nnn.toNat + (if s.quirks.jump = true then readV s x else readV s 0).toNat) := by
  have htop : (nnn.extractLsb' 8 4).toFin = x := by
    apply Fin.ext
    simp [hx, Nat.shiftRight_eq_div_pow]
    omega
  rw [BitVec.ofNat_add, ← zext16_eq_ofNat, BitVec.ofNat_toNat, jumpRegister, htop, apply_ite (readV s)]

/-- Settles O22: both jumps answer a move of `PC` to the target. -/
theorem jumpsGoToTheirTargets : Obligations.JumpsGoToTheirTargets := by
  intro s nnn
  refine ⟨⟨encodes_of_NNN rfl rfl, ?_⟩, fun x hx => ⟨encodes_of_NNN rfl rfl, ?_⟩⟩
  · rw [← zext16_eq_ofNat]
    exact movesPc_of_setPc rfl
  · rw [← jumpTarget_eq s hx]
    exact movesPc_of_setPc rfl

/-! ### The call stack (R103, R106) -/

section
variable {s : State}

theorem exec_call_of_ne (nnn : BitVec 12) (h : s.cpu.sp.toNat ≠ Config.stackDepth) :
    exec (.call nnn) s = .next (setPc (pushReturn (advance s) (s.cpu.pc + 2)) (zext16 nnn)) :=
  congrArg _ (if_neg h)

theorem exec_call_of_full (nnn : BitVec 12) (h : s.cpu.sp.toNat = Config.stackDepth) :
    exec (.call nnn) s = .next (takeFault .stackOverflow s) := congrArg _ (if_pos h)

theorem exec_ret_of_ne (h : s.cpu.sp ≠ 0) : exec .ret s = .next (popReturn (advance s)) := congrArg _ (if_neg h)

theorem exec_ret_of_empty (h : s.cpu.sp = 0) : exec .ret s = .next (takeFault .stackUnderflow s) :=
  congrArg _ (if_pos h)

end

/-- Settles O23: below a full stack the push and the jump, at it the fault. -/
theorem callPushesTheReturnAddress : Obligations.CallPushesTheReturnAddress := by
  intro s nnn
  refine ⟨encodes_of_NNN rfl rfl, fun h => ?_, fun h => faults_of_takeFault (exec_call_of_full nnn h)⟩
  exact ⟨_, exec_call_of_ne nnn h, rfl, fun _ => rfl, rfl, zext16_eq_ofNat nnn,
    stackSlot_pushReturn (advance s) (s.cpu.pc + 2)⟩

/-- Settles O24: above an empty stack the pop, at it the fault. -/
theorem returnPopsTheTopEntry : Obligations.ReturnPopsTheTopEntry := by
  intro s
  refine ⟨rfl, fun h => ?_, fun h => faults_of_takeFault (exec_ret_of_empty h)⟩
  have hsp : (s.cpu.sp - 1).toNat + 1 = s.cpu.sp.toNat := by bv_omega
  exact ⟨_, exec_ret_of_ne h, rfl, fun _ => rfl, hsp, rfl, fun _ => rfl⟩

/-- Settles O25: the return pops the slot that the call pushed, and neither touches anything outside the stack and
`PC`. -/
theorem returnUndoesACall : Obligations.ReturnUndoesACall := by
  intro s nnn h
  have hdepth := stackDepth_le
  obtain ⟨-, hcall, -⟩ := callPushesTheReturnAddress s nnn
  obtain ⟨t, ht, hframe, hbytes, hsp, -, hslot⟩ := hcall (Nat.ne_of_lt h)
  have hne : t.cpu.sp ≠ 0 := by bv_omega
  obtain ⟨-, hret, -⟩ := returnPopsTheTopEntry t
  obtain ⟨u, hu, hframe', hbytes', hsp', hpc', -⟩ := hret hne
  have hback : u.cpu.sp = s.cpu.sp := by bv_omega
  refine ⟨t, u, ht, hu, ?_, hback, ?_, ?_, fun a => (hbytes' a).trans (hbytes a)⟩
  · rw [hpc', hslot, if_pos hback]
  · calc u.cpu.v = t.cpu.v := congrArg (·.cpu.v) hframe'
      _ = s.cpu.v := congrArg (·.cpu.v) hframe
  · calc u.cpu.i = t.cpu.i := congrArg (·.cpu.i) hframe'
      _ = s.cpu.i := congrArg (·.cpu.i) hframe

/-! ### Exit (R104) -/

theorem exitUnder_eq (mode : ExitMode) (s : State) :
    exitUnder mode s = { s with status := if mode = .halt then .halted else s.status } := by
  cases mode
  · rfl
  · rfl

/-- Settles O26: for both values of `EXIT_MODE` at once. -/
theorem exitHaltsUnderHaltAndIsANoOpOtherwise : Obligations.ExitHaltsUnderHaltAndIsANoOpOtherwise := by
  intro s
  have h : exec .exit s =
      .next { advance s with status := if Config.exitMode = .halt then .halted else s.status } :=
    congrArg _ (exitUnder_eq Config.exitMode (advance s))
  exact ⟨rfl, _, h, rfl, fun _ => rfl, rfl⟩

/-! ### Skips (R102, R108 to R113) -/

/-- A skip passes the long form whole (R102, 30_encoding.md R87). -/
theorem skipLength_joinBytes (hi lo : Byte) :
    skipLength (joinBytes hi lo) = if hi = 0xF0 ∧ lo = 0x00 then 4 else 2 := by
  simp only [skipLength, isLong_iff, joinBytes_eq_longWord]

/-- `skipIf` meets the condition that its test decides: it advances, faults on its look-ahead, or skips (R102). -/
theorem skipsIf_of_skipIf {i : Instr} {s : State} {b : Bool} {c : Prop} (h : exec i s = .next (skipIf b s))
    (hb : b = true ↔ c) : SkipsIf i s c := by
  rw [SkipsIf, ← hb]
  cases b with
  | false => exact ⟨fun _ => movesPc_of_setPc h, nofun, nofun⟩
  | true =>
    change exec i s = .next (skip s) at h
    rcases skip_cases s with ⟨hlast, hs⟩ | ⟨hlast, hs⟩ <;> rw [hs] at h
    · exact ⟨fun hc => absurd rfl hc, fun _ hne => absurd hlast hne, fun _ _ => faults_of_takeFault h⟩
    · rw [skipLength_joinBytes] at h
      exact ⟨fun hc => absurd rfl hc, fun _ _ => movesPc_of_setPc h, fun _ he => absurd he hlast⟩

/-- Settles O27: each of the four is a conditional skip whose test decides the stated condition. -/
theorem compareSkipsFollowTheirCondition : Obligations.CompareSkipsFollowTheirCondition := by
  intro s x y nn
  exact ⟨⟨encodes_of_XNN rfl rfl, skipsIf_of_skipIf rfl beq_iff_eq⟩,
    ⟨encodes_of_XNN rfl rfl, skipsIf_of_skipIf rfl bne_iff_ne⟩,
    ⟨encodes_of_XYN rfl rfl, skipsIf_of_skipIf rfl beq_iff_eq⟩,
    ⟨encodes_of_XYN rfl rfl, skipsIf_of_skipIf rfl bne_iff_ne⟩⟩

theorem keyPressed_of_key {s : State} {b : Byte} {k : Fin 16} (h : b.toNat = k.val) :
    keyPressed s b = .ok s.keypad.pressed[k.val] := by
  simp only [keyPressed, h, k.isLt, dif_pos]

theorem keyPressed_of_not_key {s : State} {b : Byte} (h : 15 < b.toNat) :
    keyPressed s b = .error (.keyIndexOutOfRange b.toNat) := dif_neg (Nat.not_lt.mpr h)

section
variable {s : State} {x : Reg} {r : Except Fault Bool}

/-- The two key skips differ only in what they make of the level (R112, R113). -/
theorem exec_skp (h : keyPressed s (readV s x) = r) :
    exec (.skp x) s = .next (orFault s r fun p => skipIf p s) := h ▸ rfl

theorem exec_sknp (h : keyPressed s (readV s x) = r) :
    exec (.sknp x) s = .next (orFault s r fun p => skipIf (!p) s) := h ▸ rfl

end

/-- Settles O28: on a key the conditional skips on its level, above 15 the fault. -/
theorem keySkipsReadTheCurrentLevel : Obligations.KeySkipsReadTheCurrentLevel := by
  intro s x
  refine ⟨encodes_of_XNN rfl (Nat.add_right_comm ..), encodes_of_XNN rfl (Nat.add_right_comm ..),
    fun k hk => ?_, fun h => ?_⟩
  · have hkey := keyPressed_of_key (s := s) hk
    exact ⟨skipsIf_of_skipIf (exec_skp hkey) Iff.rfl,
      skipsIf_of_skipIf (exec_sknp hkey) (Bool.not_eq_true' _).to_iff⟩
  · have hkey := keyPressed_of_not_key (s := s) h
    exact ⟨faults_of_takeFault (exec_skp hkey), faults_of_takeFault (exec_sknp hkey)⟩

/-! ### The key wait (R114) -/

theorem releaseEdge_iff {s : State} {k : Fin 16} :
    releaseEdge s k = true ↔ s.keypad.prev[k.val] = true ∧ s.keypad.pressed[k.val] = false := by
  simp [releaseEdge]

theorem allKeys_eq_finRange : allKeys = List.finRange 16 := by decide

/-- The released key is the lowest one (D10). -/
theorem lowestReleased_eq_some {s : State} {k : Fin 16} (hk : releaseEdge s k = true)
    (hlow : ∀ j < k, ¬ releaseEdge s j = true) : lowestReleased s = some k := by
  rw [lowestReleased, allKeys_eq_finRange, List.find?_eq_some_iff_getElem]
  refine ⟨hk, k.val, by simp, by simp, fun j hj => ?_⟩
  simpa using hlow ⟨j, hj.trans k.isLt⟩ hj

theorem lowestReleased_eq_none {s : State} (h : ∀ k, ¬ releaseEdge s k = true) : lowestReleased s = none :=
  List.find?_eq_none.mpr fun k _ => h k

theorem exec_ldVxK_of_some {s : State} (x : Reg) {k : Fin 16} (h : lowestReleased s = some k) :
    exec (.ldVxK x) s = .next (writeV (advance s) x (BitVec.ofNat 8 k.val)) := by
  rw [exec, execLdVxK, h]

/-- Without a released key the advance is taken back, which leaves the state as it was (D53). -/
theorem exec_ldVxK_of_none {s : State} (x : Reg) (h : lowestReleased s = none) : exec (.ldVxK x) s = .next s := by
  have hpc : (advance s).cpu.pc - 2 = s.cpu.pc := BitVec.add_sub_cancel ..
  rw [exec, execLdVxK, h]
  simp only [hpc]
  rfl

/-- An instruction that writes one register sets that register and no other. -/
theorem setsRegisters_of_writeV {i : Instr} {s : State} {x : Reg} {b : Byte}
    (h : exec i s = .next (writeV (advance s) x b)) :
    SetsRegisters i s fun k => if k = x then b else readV s k :=
  ⟨_, h, ⟨rfl, fun _ => rfl⟩, rfl, fun k => readV_writeV (advance s) x k b⟩

/-- Settles O29: by whether some key has a release edge. -/
theorem keyWaitStoresTheLowestReleasedKey : Obligations.KeyWaitStoresTheLowestReleasedKey := by
  intro s x
  refine ⟨encodes_of_XNN rfl (Nat.add_right_comm ..), fun k hprev hnow hlow => ?_, fun hnone => ?_⟩
  · have hlowest : lowestReleased s = some k :=
      lowestReleased_eq_some (releaseEdge_iff.mpr ⟨hprev, hnow⟩) fun j hj he => hlow j hj (releaseEdge_iff.mp he)
    exact setsRegisters_of_writeV (exec_ldVxK_of_some x hlowest)
  · exact exec_ldVxK_of_none x (lowestReleased_eq_none fun k he => hnone k (releaseEdge_iff.mp he))

end Sys2Proof.Machine
end

section
/-! SUPPORT. Register arithmetic and logic (41_alu.md): what a flagged and a logic result leave in the registers, the
results and flags in numbers, and the statements about the register instructions. -/

namespace Sys2Proof.Machine

/-! ### Instructions that write registers (R130) -/

/-- A logic instruction changes nothing but `V` and `PC`. -/
theorem onlyVPc_writeLogic (s : State) (x : Reg) (b : Byte) : OnlyVPc s (writeLogic (advance s) x b) := by
  unfold writeLogic
  split
  · exact ⟨rfl, fun _ => rfl⟩
  · exact ⟨rfl, fun _ => rfl⟩

theorem writeLogic_cpu_pc (s : State) (x : Reg) (b : Byte) : (writeLogic s x b).cpu.pc = s.cpu.pc := by
  unfold writeLogic
  split
  · rfl
  · rfl

section
variable {i : Instr} {s : State} {x : Reg}

/-- The rows of family 8 differ in their last nibble (30_encoding.md R84). -/
theorem encodes_of_family8 {y n : Fin 16} {m : Nat} (hi : encode i = [wordXYN 8 x y n]) (hm : 0x8000 + n.val = m) :
    Encodes i (m + 256 * x.val + 16 * y.val) :=
  encodes_of_XYN hi (by change 0x8000 + _ + _ + _ = _; omega)

/-- A flagged instruction sets its register and `VF`, and the flag wins where they meet. -/
theorem setsRegisters_of_writeFlagged {r : Flagged} {value flag : Byte}
    (h : exec i s = .next (writeFlagged (advance s) x r)) (hv : r.value = value) (hf : flagByte r.flag = flag) :
    SetsRegisters i s fun k => if k = 15 then flag else if k = x then value else readV s k := by
  subst hv hf
  exact ⟨_, h, ⟨rfl, fun _ => rfl⟩, rfl, fun k => readV_writeFlagged (advance s) x k r⟩

/-- A logic instruction sets its register, and `VF` ends 0 under `Q.vfReset`. -/
theorem setsRegisters_of_writeLogic {b : Byte} (h : exec i s = .next (writeLogic (advance s) x b)) :
    SetsRegisters i s fun k =>
      if k = 15 ∧ s.quirks.vfReset = true then 0 else if k = x then b else readV s k :=
  ⟨_, h, onlyVPc_writeLogic s x b, writeLogic_cpu_pc (advance s) x b, fun k => readV_writeLogic (advance s) x k b⟩

end

/-! ### Results and flags in numbers -/

theorem byte_add_eq_ofNat (a b : Byte) : a + b = BitVec.ofNat 8 ((a.toNat + b.toNat) % 256) :=
  BitVec.eq_of_toNat_eq (by simp)

theorem byte_sub_eq_ofNat (a b : Byte) : a - b = BitVec.ofNat 8 ((a.toNat + 256 - b.toNat) % 256) := by
  bv_omega

theorem flagByte_decide (p : Prop) [Decidable p] : flagByte (decide p) = if p then 1 else 0 := by
  simp [flagByte]

/-- A bit of a byte, as the byte that `VF` gets. -/
theorem flagByte_getLsbD (b : Byte) (k : Nat) : flagByte (b.getLsbD k) = BitVec.ofNat 8 (b.toNat / 2 ^ k % 2) := by
  rw [BitVec.getLsbD, Nat.testBit_eq_decide_div_mod_eq, flagByte_decide]
  rcases Nat.mod_two_eq_zero_or_one (b.toNat / 2 ^ k) with h | h
  · rw [h]; rfl
  · rw [h]; rfl

theorem shiftRightOne_value (src : Byte) : (shiftRightOne src).value = BitVec.ofNat 8 (src.toNat / 2) := by
  change src >>> 1 = _
  bv_omega

theorem shiftRightOne_flag (src : Byte) : flagByte (shiftRightOne src).flag = BitVec.ofNat 8 (src.toNat % 2) := by
  have h := flagByte_getLsbD src 0
  rwa [Nat.pow_zero, Nat.div_one] at h

theorem shiftLeftOne_value (src : Byte) : (shiftLeftOne src).value = BitVec.ofNat 8 (src.toNat * 2 % 256) := by
  change src <<< 1 = _
  bv_omega

theorem shiftLeftOne_flag (src : Byte) : flagByte (shiftLeftOne src).flag = BitVec.ofNat 8 (src.toNat / 128) := by
  have hbit : src.toNat / 2 ^ 7 % 2 = src.toNat / 128 := by omega
  exact (flagByte_getLsbD src 7).trans (congrArg _ hbit)

/-! ### The statements -/

/-- Settles O16: the row writes its one register. -/
theorem loadImmediateSetsTheRegister : Obligations.LoadImmediateSetsTheRegister :=
  fun _ _ _ => ⟨encodes_of_XNN rfl rfl, setsRegisters_of_writeV rfl⟩

/-- Settles O17: `7XNN` and `8XY0` write one register, the three logic rows end with the clear of `VF`. -/
theorem copyAddImmediateAndLogicSetTheRegister : Obligations.CopyAddImmediateAndLogicSetTheRegister := by
  intro s x y nn
  refine ⟨⟨encodes_of_XNN rfl rfl, ?_⟩,
    ⟨encodes_of_family8 rfl rfl, setsRegisters_of_writeV rfl⟩,
    ⟨encodes_of_family8 rfl rfl, setsRegisters_of_writeLogic rfl⟩,
    ⟨encodes_of_family8 rfl rfl, setsRegisters_of_writeLogic rfl⟩,
    ⟨encodes_of_family8 rfl rfl, setsRegisters_of_writeLogic rfl⟩⟩
  rw [← byte_add_eq_ofNat]
  exact setsRegisters_of_writeV rfl

/-- Settles O18: each row is a flagged write, of the sum with its carry or of a difference with its no-borrow flag. -/
theorem addAndSubtractWriteTheFlagLast : Obligations.AddAndSubtractWriteTheFlagLast := by
  intro s x y
  exact ⟨⟨encodes_of_family8 rfl rfl,
      setsRegisters_of_writeFlagged rfl (byte_add_eq_ofNat ..) (flagByte_decide _)⟩,
    ⟨encodes_of_family8 rfl rfl,
      setsRegisters_of_writeFlagged rfl (byte_sub_eq_ofNat ..) (flagByte_decide _)⟩,
    ⟨encodes_of_family8 rfl rfl,
      setsRegisters_of_writeFlagged rfl (byte_sub_eq_ofNat ..) (flagByte_decide _)⟩⟩

/-- Settles O19: both rows are flagged writes of the shifted quirk source. -/
theorem shiftsMoveTheQuirkSourceByOne : Obligations.ShiftsMoveTheQuirkSourceByOne := by
  rintro s x y _ rfl
  exact ⟨⟨encodes_of_family8 rfl rfl,
      setsRegisters_of_writeFlagged rfl (shiftRightOne_value _) (shiftRightOne_flag _)⟩,
    ⟨encodes_of_family8 rfl rfl,
      setsRegisters_of_writeFlagged rfl (shiftLeftOne_value _) (shiftLeftOne_flag _)⟩⟩

/-- Settles O20: the row writes the masked draw after the oracle has moved on. -/
theorem randomByteIsMasked : Obligations.RandomByteIsMasked := by
  intro s x nn
  have hread (k : Reg) : readV (writeV (drawn (advance s)) x (randDraw s &&& nn)) k =
      if k = x then randDraw s &&& nn else readV s k := readV_writeV ..
  refine ⟨encodes_of_XNN rfl rfl, _, rfl, rfl, fun _ => rfl, rfl, hread, ?_⟩
  rintro rfl
  exact (hread x).trans ((if_pos rfl).trans BitVec.and_zero)

end Sys2Proof.Machine
end

section
/-! SUPPORT. The index register, loads and stores (42_index_memory.md): the form of each next state, what a block load
leaves in the registers, and the statements about them. -/

namespace Sys2Proof.Machine

/-! ### Words of family 5 (30_encoding.md R84) -/

/-- The range transfers differ in their last nibble. -/
theorem encodes_of_family5 {i : Instr} {x y n : Fin 16} {m : Nat} (hi : encode i = [wordXYN 5 x y n])
    (hm : 0x5000 + n.val = m) : Encodes i (m + 256 * x.val + 16 * y.val) :=
  encodes_of_XYN hi (by change 0x5000 + _ + _ + _ = _; omega)

/-! ### Setting the index (R160 to R164) -/

theorem lowNibble_eq_mod (b : Byte) : lowNibble b = b.toNat % 16 :=
  (BitVec.toNat_and b 0x0F).trans (Nat.and_two_pow_sub_one_eq_mod b.toNat 4)

/-- The index plus a register wraps at 16 bits (R162, D33). -/
theorem index_add_eq_ofNat (a : Word) (b : Byte) :
    a + b.setWidth 16 = BitVec.ofNat 16 ((a.toNat + b.toNat) % 65536) := by
  bv_omega

/-- A new state that differs in `I` and `PC` sets the index. -/
theorem setsIndex_of_setI {i : Instr} {s : State} {a b p q : Word} (h : exec i s = .next (setI (setPc s p) a))
    (ha : a = b) (hp : p = q) : SetsIndex i s b q :=
  ⟨_, h, ⟨rfl, fun _ => rfl⟩, ha, hp⟩

/-- Settles O30: each of the five answers the advance and the new index. -/
theorem indexInstructionsSetTheIndex : Obligations.IndexInstructionsSetTheIndex := by
  intro s x nnn nnnn
  have hnibble := lowNibble_eq_mod (readV s x)
  refine ⟨⟨encodes_of_NNN rfl rfl, setsIndex_of_setI rfl (zext16_eq_ofNat nnn) rfl⟩,
    ⟨rfl, setsIndex_of_setI rfl rfl (BitVec.add_assoc s.cpu.pc 2 2)⟩,
    ⟨encodes_of_XNN rfl (Nat.add_right_comm ..), setsIndex_of_setI rfl (index_add_eq_ofNat ..) rfl⟩,
    ⟨encodes_of_XNN rfl (Nat.add_right_comm ..), setsIndex_of_setI rfl ?_ rfl⟩,
    ⟨encodes_of_XNN rfl (Nat.add_right_comm ..), setsIndex_of_setI rfl ?_ rfl⟩⟩
  · rw [smallGlyph, hnibble, fontAddr, Nat.zero_add]
  · rw [bigGlyph, hnibble, bigFontAddr]

/-! ### Stores at the index (R165, R167, R169) -/

section
variable {i : Instr} {s : State} {bytes : List Byte} {k : State → State}

theorem storeAtI_of_fits (h : s.cpu.i.toNat + bytes.length ≤ 65536) :
    storeAtI s bytes k = k (setMem (advance s) (s.mem.writeBytes s.cpu.i.toNat bytes)) := by
  rw [storeAtI, memWrite_ok h, orFault_ok]

/-- A store whose bytes fit, followed by nothing but a new value of `I`, stores exactly those bytes. -/
theorem storesBytes_of_storeAtI {a : Word} (he : exec i s = .next (storeAtI s bytes k))
    (hk : ∀ m, k (setMem (advance s) m) = setI (setMem (advance s) m) a)
    (h : s.cpu.i.toNat + bytes.length ≤ 65536) : StoresBytes i s s.cpu.i.toNat bytes a := by
  rw [storeAtI_of_fits h, hk] at he
  exact ⟨_, he, rfl, rfl, rfl, Memory.read_writeBytes_inside s.mem s.cpu.i.toNat bytes,
    fun _ => Memory.read_writeBytes_outside s.mem bytes⟩

theorem faults_of_storeAtI (he : exec i s = .next (storeAtI s bytes k))
    (h : 65536 < s.cpu.i.toNat + bytes.length) : Faults i s (.memOutOfRange s.cpu.i.toNat) := by
  rw [storeAtI, memWrite_error h, orFault_error] at he
  exact faults_of_takeFault he

end

/-- Settles O31: a store of three bytes that leaves `I`. -/
theorem decimalDigitsAreStoredAtTheIndex : Obligations.DecimalDigitsAreStoredAtTheIndex :=
  fun _ _ => ⟨encodes_of_XNN rfl (Nat.add_right_comm ..), fun h => storesBytes_of_storeAtI rfl (fun _ => rfl) h,
    fun h => faults_of_storeAtI rfl h⟩

/-- The registers of a block store, picked by comparing each with `X`. -/
theorem readRegs_regsUpTo (s : State) (x : Reg) :
    readRegs s (regsUpTo x) = (List.finRange 16).filterMap fun r => if r ≤ x then some (readV s r) else none := by
  rw [readRegs, regsUpTo_eq, ← List.filterMap_eq_map, List.filterMap_filter]
  simp only [decide_eq_true_eq, Function.comp_apply]

theorem length_readRegs_regsUpTo (s : State) (x : Reg) : (readRegs s (regsUpTo x)).length = x.val + 1 :=
  (length_readRegs ..).trans (length_regsUpTo x)

/-- `FX55` where its bytes fit: the write-back of R166 is a new value of `I`. -/
theorem storesBytes_storeRegs {s : State} {x : Reg} (h : s.cpu.i.toNat + x.val + 1 ≤ 65536) :
    StoresBytes (.storeRegs x) s s.cpu.i.toNat (readRegs s (regsUpTo x)) (indexAfterBlock s x) :=
  storesBytes_of_storeAtI rfl (fun _ => writeBack_eq _ x) (by rwa [length_readRegs_regsUpTo])

/-- Settles O32: a store of the registers up to `X`, then the write-back. -/
theorem blockStoreWritesTheRegistersAndMovesTheIndex : Obligations.BlockStoreWritesTheRegistersAndMovesTheIndex := by
  intro s x
  refine ⟨encodes_of_XNN rfl (Nat.add_right_comm ..), fun h => ?_, fun h => faults_of_storeAtI rfl ?_⟩
  · rw [← readRegs_regsUpTo]
    exact storesBytes_storeRegs h
  · rwa [length_readRegs_regsUpTo]

/-! ### Block writes of registers and flags -/

section
variable {s : State} {rs : List Reg}

/-- A block load gives register number `n` of its list the byte `n` places up (R62). -/
theorem readV_writeRegs_zip_readBytes {r : Reg} {n : Nat} (m : Memory) (a : Nat) (hn : rs.Nodup)
    (h : rs[n]? = some r) : readV (writeRegs s (rs.zip (m.readBytes a rs.length))) r = m.read (a + n) := by
  have hlen : n < rs.length := (List.getElem?_eq_some_iff.mp h).1
  refine readV_writeRegs_of_mem _ s r _ ?_ (List.mem_of_getElem? (i := n) ?_)
  · rwa [List.map_fst_zip (by rw [Memory.length_readBytes])]
  · exact List.getElem?_zip_eq_some.mpr ⟨h, Memory.getElem?_readBytes m a _ n hlen⟩

theorem readV_writeRegs_zip_of_notMem {r : Reg} (bs : List Byte) (h : r ∉ rs) :
    readV (writeRegs s (rs.zip bs)) r = readV s r :=
  readV_writeRegs_of_notMem _ s r fun _ hrb he => h (he ▸ (List.of_mem_zip hrb).1)

/-- A block write of `f` names exactly the registers of its list. -/
theorem map_fst_graph (f : Reg → Byte) : (rs.map fun r => (r, f r)).map Prod.fst = rs := by
  rw [List.map_map]
  exact List.map_id rs

theorem fst_ne_of_mem_graph (f : Reg → Byte) {k : Reg} (hk : k ∉ rs) : ∀ rb ∈ rs.map fun r => (r, f r), rb.1 ≠ k :=
  fun _ hrb he => hk (map_fst_graph (rs := rs) f ▸ List.mem_map.mpr ⟨_, hrb, he⟩)

theorem readV_writeRegs_graph (f : Reg → Byte) (k : Reg) (hn : rs.Nodup) :
    readV (writeRegs s (rs.map fun r => (r, f r))) k = if k ∈ rs then f k else readV s k := by
  split
  · next hk => exact readV_writeRegs_of_mem _ s k _ (by rwa [map_fst_graph]) (List.mem_map_of_mem hk)
  · next hk => exact readV_writeRegs_of_notMem _ s k (fst_ne_of_mem_graph f hk)

theorem readFlag_writeFlags_graph (f : Reg → Byte) (k : Reg) (hn : rs.Nodup) :
    readFlag (writeFlags s (rs.map fun r => (r, f r))) k = if k ∈ rs then f k else readFlag s k := by
  split
  · next hk => exact readFlag_writeFlags_of_mem _ s k _ (by rwa [map_fst_graph]) (List.mem_map_of_mem hk)
  · next hk => exact readFlag_writeFlags_of_notMem _ s k (fst_ne_of_mem_graph f hk)

/-- A block write of registers after the advance changes nothing but `V` and `PC`. -/
theorem onlyVPc_writeRegs (rbs : List (Reg × Byte)) : OnlyVPc s (writeRegs (advance s) rbs) := by
  rw [OnlyVPc, SameBytes, writeRegs_cpu_pc, writeRegs_mem]
  exact ⟨writeRegs_eq rbs (advance s), fun _ => rfl⟩

end

/-! ### Loads from the index (R168, R170) -/

section
variable {i : Instr} {s : State} {n : Nat} {k : List Byte → State}

theorem loadFromI_of_fits (h : s.cpu.i.toNat + n ≤ 65536) :
    loadFromI s n k = k (s.mem.readBytes s.cpu.i.toNat n) := by
  rw [loadFromI, memRead_ok h, orFault_ok]

theorem faults_of_loadFromI (he : exec i s = .next (loadFromI s n k)) (h : 65536 < s.cpu.i.toNat + n) :
    Faults i s (.memOutOfRange s.cpu.i.toNat) := by
  rw [loadFromI, memRead_error h, orFault_error] at he
  exact faults_of_takeFault he

end

/-- `FX65` where its bytes fit: the block load, then the new value of `I` (R166). -/
theorem exec_loadRegs_of_fits {s : State} {x : Reg} (h : s.cpu.i.toNat + x.val + 1 ≤ 65536) :
    exec (.loadRegs x) s = .next (setI (writeRegs (advance s)
      ((regsUpTo x).zip (s.mem.readBytes s.cpu.i.toNat (regsUpTo x).length))) (indexAfterBlock s x)) := by
  rw [length_regsUpTo, exec, execLoadRegs, loadFromI_of_fits h, writeBack_eq, indexAfterBlock, writeRegs_quirks,
    writeRegs_cpu_i]
  rfl

theorem getElem?_regsUpTo_val {x k : Reg} (h : k ≤ x) : (regsUpTo x)[k.val]? = some k := by
  rw [getElem?_regsUpTo x k.val (Nat.lt_succ_of_le h), Fin.ofNat_val_eq_self]

/-- Settles O33: a block load of the registers up to `X`, then the write-back. -/
theorem blockLoadReadsTheRegistersAndMovesTheIndex : Obligations.BlockLoadReadsTheRegistersAndMovesTheIndex := by
  intro s x
  refine ⟨encodes_of_XNN rfl (Nat.add_right_comm ..), fun h => ?_, fun h => faults_of_loadFromI rfl h⟩
  obtain ⟨hframe, hbytes⟩ := onlyVPc_writeRegs (s := s)
    ((regsUpTo x).zip (s.mem.readBytes s.cpu.i.toNat (regsUpTo x).length))
  refine ⟨_, exec_loadRegs_of_fits h, ⟨?_, hbytes⟩, writeRegs_cpu_pc .., rfl, fun k => ?_⟩
  · exact congrArg (setI · (indexAfterBlock s x)) hframe
  · rw [readV_setI]
    split
    · next hk => exact readV_writeRegs_zip_readBytes _ _ (nodup_regsUpTo x) (getElem?_regsUpTo_val hk)
    · next hk => exact readV_writeRegs_zip_of_notMem _ (mem_regsUpTo.not.mpr hk)

/-- Settles O36: the load reads at `I + k` the byte that the store left there, which is register `k`. -/
theorem blockStoreThenLoadRestoresTheRegisters : Obligations.BlockStoreThenLoadRestoresTheRegisters := by
  intro s t x v' h hstore
  obtain ⟨t', ht', -, -, -, hstored, -⟩ := storesBytes_storeRegs h
  cases hstore.symm.trans ht'
  obtain ⟨-, hload, -⟩ :=
    blockLoadReadsTheRegistersAndMovesTheIndex { t with cpu := { t.cpu with i := s.cpu.i, v := v' } } x
  obtain ⟨u, hu, -, -, -, hread⟩ := hload h
  refine ⟨u, hu, fun k hk => ?_⟩
  have hlen : k.val < (readRegs s (regsUpTo x)).length := by
    rw [length_readRegs_regsUpTo]
    exact Nat.lt_succ_of_le hk
  calc readV u k = t.mem.read (s.cpu.i.toNat + k.val) := (hread k).trans (if_pos hk)
    _ = (readRegs s (regsUpTo x))[k.val] := hstored k.val hlen
    _ = readV s k := by
      rw [List.getElem_eq_iff, readRegs, List.getElem?_map, getElem?_regsUpTo_val hk, Option.map_some]

/-! ### Range transfers (R169, R170) -/

theorem readRegs_regRange (s : State) (x y : Reg) :
    readRegs s (regRange x y) =
      (List.range (rangeLength x y)).map fun k => readV s (Fin.ofNat 16 (rangeEntry x y k)) := by
  rw [readRegs, regRange_eq_map, List.map_map]
  rfl

theorem length_readRegs_regRange (s : State) (x y : Reg) :
    (readRegs s (regRange x y)).length = rangeLength x y :=
  (length_readRegs ..).trans (length_regRange x y)

theorem notMem_regRange_of_outside {x y r : Reg} (h : (r < x ∧ r < y) ∨ (x < r ∧ y < r)) : r ∉ regRange x y := by
  simp only [mem_regRange, Fin.le_def, Fin.lt_def] at h ⊢
  omega

/-- `5XY3` where its bytes fit. -/
theorem exec_loadRange_of_fits {s : State} {x y : Reg} (h : s.cpu.i.toNat + rangeLength x y ≤ 65536) :
    exec (.loadRange x y) s = .next (writeRegs (advance s)
      ((regRange x y).zip (s.mem.readBytes s.cpu.i.toNat (regRange x y).length))) := by
  rw [exec, execLoadRange, loadFromI_of_fits (by rwa [length_regRange])]

/-- Settles O34: a store and a block load over the same list of registers, which R169 gives entry by entry. -/
theorem rangeTransfersGoEitherDirection : Obligations.RangeTransfersGoEitherDirection := by
  intro s x y
  refine ⟨encodes_of_family5 rfl rfl, encodes_of_family5 rfl rfl, fun h => ⟨?_, ?_⟩, fun h => ⟨?_, ?_⟩⟩
  · rw [← readRegs_regRange]
    exact storesBytes_of_storeAtI rfl (fun _ => rfl) (by rwa [length_readRegs_regRange])
  · refine ⟨_, exec_loadRange_of_fits h, onlyVPc_writeRegs .., writeRegs_cpu_pc .., fun k hk => ?_, fun r hr => ?_⟩
    · exact readV_writeRegs_zip_readBytes _ _ (nodup_regRange x y) (getElem?_regRange x y k hk)
    · exact readV_writeRegs_zip_of_notMem _ (notMem_regRange_of_outside hr)
  · exact faults_of_storeAtI rfl (by rwa [length_readRegs_regRange])
  · exact faults_of_loadFromI rfl (by rwa [length_regRange])

/-! ### The flags file (R171, R172) -/

/-- Settles O35: each row is a block write of the entries up to `X`. -/
theorem flagsFileSavesAndRestores : Obligations.FlagsFileSavesAndRestores := by
  intro s x
  refine ⟨⟨encodes_of_XNN rfl (Nat.add_right_comm ..), _, rfl, ?_, ?_, writeFlags_cpu_pc .., fun k => ?_⟩,
    encodes_of_XNN rfl (Nat.add_right_comm ..), _, rfl, onlyVPc_writeRegs .., writeRegs_cpu_pc .., fun k => ?_⟩
  · rw [writeFlags_cpu_pc]
    exact writeFlags_eq _ (advance s)
  · rw [SameBytes, writeFlags_mem]
    exact fun _ => rfl
  · have h := readFlag_writeFlags_graph (s := advance s) (readV s) k (nodup_regsUpTo x)
    simpa only [mem_regsUpTo, readFlag_advance] using h
  · have h := readV_writeRegs_graph (s := advance s) (readFlag s) k (nodup_regsUpTo x)
    simpa only [mem_regsUpTo, readV_advance] using h

end Sys2Proof.Machine
end

section
/-! SUPPORT. The timers (43_timers.md): the statement about the instructions that move them. -/

namespace Sys2Proof.Machine

/-- Settles O37: `FX07` writes one register, `FX15` and `FX18` each answer the advance with one timer replaced. -/
theorem timerInstructionsMoveTheTimers : Obligations.TimerInstructionsMoveTheTimers := by
  intro s x
  refine ⟨⟨encodes_of_XNN rfl (Nat.add_right_comm ..), setsRegisters_of_writeV rfl⟩,
    ⟨encodes_of_XNN rfl (Nat.add_right_comm ..), setDt (advance s) (readV s x), rfl, setDt_cpu_dt .., ?_, rfl, ?_⟩,
    ⟨encodes_of_XNN rfl (Nat.add_right_comm ..), setSt (advance s) (readV s x), rfl, setSt_audio_st .., ?_, rfl, ?_⟩⟩
  · exact (setDt_cpu_pc ..).trans (advance_cpu_pc s)
  · exact fun _ => rfl
  · rw [setSt_cpu, advance_cpu_pc]
  · exact fun _ => rfl

end Sys2Proof.Machine
end

section
/-! SUPPORT. The display (44_display.md): what a redraw and a scroll leave in one cell, the read of a sprite's block, the
set bits of a sprite and the logical pixels they land on, and the statements about the raster. -/

namespace Sys2Proof.Machine

/-! ### Clear, resolution, plane select (R201 to R205) -/

/-- An instruction that redraws the selected planes gives their cells the values of the redrawn plane. -/
theorem redrawsSelected_of_redraw {i : Instr} {s : State} {f : Plane → Plane} {g : Fin 4 → Fin 64 → Fin 128 → Bool}
    (h : exec i s = .next (redraw (advance s) f))
    (hg : ∀ (p : Fin 4) (r : Fin 64) (c : Fin 128), (f s.display.planes[p.val])[r.val].getLsbD c.val = g p r c) :
    RedrawsSelected i s g := by
  refine ⟨_, h, ⟨rfl, fun _ => rfl⟩, rfl, rfl, fun p r c => ?_⟩
  rw [redraw_display_planes, advance_display, cell_mapSelected, hg]

theorem getLsbD_blankPlane (r : Fin 64) (c : Fin 128) : blankPlane[r.val].getLsbD c.val = false := by
  rw [blankPlane, Vector.getElem_replicate]
  exact BitVec.getLsbD_zero

/-- Settles O39: a redraw with the blank plane. -/
theorem clearEmptiesTheSelectedPlanes : Obligations.ClearEmptiesTheSelectedPlanes :=
  fun _ => ⟨rfl, redrawsSelected_of_redraw rfl fun _ => getLsbD_blankPlane⟩

/-- Settles O40: each row answers the advance with one field of the display replaced. -/
theorem resolutionAndPlaneSelectChangeNoCell : Obligations.ResolutionAndPlaneSelectChangeNoCell :=
  fun _ _ => ⟨⟨rfl, _, rfl, fun _ => rfl, rfl⟩, ⟨rfl, _, rfl, fun _ => rfl, rfl⟩,
    ⟨encodes_of_XNN rfl (Nat.add_right_comm ..), _, rfl, fun _ => rfl, rfl⟩⟩

/-! ### Scrolls (R206 to R210) -/

section
variable (d : Nat) (pl : Plane) (r : Fin 64) (c : Fin 128)

theorem getLsbD_scrollDown :
    (scrollDown d pl)[r.val].getLsbD c.val =
      if d ≤ r.val then (pl[r.val - d]'(Nat.sub_lt_of_lt r.isLt)).getLsbD c.val else false := by
  rw [scrollDown, Vector.getElem_ofFn]
  split
  · rfl
  · exact BitVec.getLsbD_zero

theorem getLsbD_scrollUp :
    (scrollUp d pl)[r.val].getLsbD c.val =
      if h : r.val + d ≤ 63 then (pl[r.val + d]'(Nat.lt_succ_of_le h)).getLsbD c.val else false := by
  rw [scrollUp, Vector.getElem_ofFn]
  by_cases h : r.val + d < 64
  · rw [dif_pos h, dif_pos (Nat.le_of_lt_succ h)]
  · rw [dif_neg h, dif_neg (mt Nat.lt_succ_of_le h)]
    exact BitVec.getLsbD_zero

theorem getLsbD_scrollRight :
    (scrollRight d pl)[r.val].getLsbD c.val = if d ≤ c.val then pl[r.val].getLsbD (c.val - d) else false := by
  rw [scrollRight, Vector.getElem_ofFn, BitVec.getLsbD_shiftLeft, decide_eq_true c.isLt, Bool.true_and]
  by_cases h : d ≤ c.val
  · rw [if_pos h, decide_eq_false (Nat.not_lt.mpr h), Bool.not_false, Bool.true_and]
  · rw [if_neg h, decide_eq_true (Nat.not_le.mp h), Bool.not_true, Bool.false_and]

theorem getLsbD_scrollLeft :
    (scrollLeft d pl)[r.val].getLsbD c.val = if c.val + d ≤ 127 then pl[r.val].getLsbD (c.val + d) else false := by
  rw [scrollLeft, Vector.getElem_ofFn, BitVec.getLsbD_ushiftRight, Nat.add_comm]
  split
  · rfl
  · next h => exact BitVec.getLsbD_of_ge _ _ (Nat.not_le.mp h)

end

/-- Settles O41: each row is a redraw whose rows are those of the plane, shifted, or 0. -/
theorem verticalScrollsShiftRows : Obligations.VerticalScrollsShiftRows := by
  rintro s n _ rfl
  rw [← scrollAmount_eq]
  exact ⟨⟨encodes_of_XYN rfl rfl, redrawsSelected_of_redraw rfl fun _ => getLsbD_scrollDown _ _⟩,
    ⟨encodes_of_XYN rfl rfl, redrawsSelected_of_redraw rfl fun _ => getLsbD_scrollUp _ _⟩⟩

/-- Settles O42: each row is a redraw that shifts every row of cells. -/
theorem horizontalScrollsShiftColumns : Obligations.HorizontalScrollsShiftColumns := by
  rintro s _ rfl
  rw [← scrollAmount_eq s 4]
  exact ⟨⟨rfl, redrawsSelected_of_redraw rfl fun _ => getLsbD_scrollRight _ _⟩,
    ⟨rfl, redrawsSelected_of_redraw rfl fun _ => getLsbD_scrollLeft _ _⟩⟩

/-! ### `DXYN` (R214, R216) -/

section
variable {s : State} {sh : SpriteShape}

/-- A block that fits is read whole; with no plane selected it has no bytes. -/
theorem spriteBytes_of_fits
    (h : s.display.planeMask = 0 ∨ s.cpu.i.toNat + sh.len * (sel s.display).length ≤ 65536) :
    spriteBytes s sh = .ok (s.mem.readBytes s.cpu.i.toNat (sh.len * (sel s.display).length)) := by
  unfold spriteBytes
  split
  · next hempty => rw [List.isEmpty_iff.mp hempty]; rfl
  · next hsel => exact memRead_ok (h.resolve_left (isEmpty_sel.not.mp hsel))

theorem spriteBytes_past_end (hmask : s.display.planeMask ≠ 0)
    (h : 65536 < s.cpu.i.toNat + sh.len * (sel s.display).length) :
    spriteBytes s sh = .error (.memOutOfRange s.cpu.i.toNat) := by
  rw [spriteBytes, if_neg (isEmpty_sel.not.mpr hmask), memRead_error h]

end

/-- `s` after a completed draw of `bytes` (R216). -/
def afterDraw (s : State) (x y : Reg) (n : Fin 16) (bytes : List Byte) : State :=
  let r := drawSprite s.display bytes (spriteShape n) s.quirks.wrap (readV s x).toNat (readV s y).toNat
  writeV { advance s with display := r.1 } vf (flagByte (r.2 != 0))

theorem exec_drw (s : State) (x y : Reg) (n : Fin 16) :
    exec (.drw x y n) s = .next (orFault s (spriteBytes s (spriteShape n)) (afterDraw s x y n)) := rfl

theorem flagByte_bne_zero (k : Nat) : flagByte (k != 0) = if k = 0 then 0 else 1 := by
  cases k <;> rfl

/-- Settles O43: the read of the block completes or faults, and a completed draw writes `VF` last. -/
theorem drawMarksTheDisplayAndSetsVf : Obligations.DrawMarksTheDisplayAndSetsVf := by
  intro s x y n
  refine ⟨encodes_of_XYN rfl rfl, ?_⟩
  rintro _ rfl
  rw [← len_spriteShape, exec_drw]
  refine ⟨fun h => ?_, fun hmask h => faults_of_takeFault ?_⟩
  · rw [spriteBytes_of_fits h, orFault_ok]
    refine ⟨_, _, rfl, fun k => Memory.getElem?_readBytes _ _ _ k, rfl, fun _ => rfl, rfl, fun k => ?_⟩
    rw [← flagByte_bne_zero]
    exact readV_writeV ..
  · rw [exec_drw, spriteBytes_past_end hmask h, orFault_error]

/-! ### The cells a draw inverts (R211 to R214) -/

section
variable {d : Display} {bytes : List Byte} {n : Fin 16} {wrap : Bool} {x y : Nat}

/-- Settles O44: a cell is the XOR of its old value and whether it is covered. -/
theorem aDrawInvertsExactlyTheCoveredCells : Obligations.ADrawInvertsExactlyTheCoveredCells := by
  classical
  intro d bytes n wrap x y p r c
  rw [cell_drawSprite]
  refine ⟨fun h => ?_, fun h => ?_⟩
  · rw [decide_eq_true h, Bool.xor_true]
  · rw [decide_eq_false h, Bool.xor_false]

/-- A draw leaves the resolution and the plane mask, so that a second draw covers the same cells. -/
theorem spriteCovers_drawSprite {sh : SpriteShape} {p : Fin 4} {r : Fin 64} {c : Fin 128} :
    SpriteCovers (drawSprite d bytes sh wrap x y).1 bytes n wrap x y p r c ↔ SpriteCovers d bytes n wrap x y p r c :=
  Iff.rfl

/-- Two identical draws restore the raster (R215 b): each cell is XORed twice with whether it is covered. -/
theorem planes_drawSprite_twice :
    (drawSprite (drawSprite d bytes (spriteShape n) wrap x y).1 bytes (spriteShape n) wrap x y).1.planes = d.planes := by
  classical
  refine raster_ext fun p r c => ?_
  simp only [cell_drawSprite, spriteCovers_drawSprite, Bool.xor_assoc, Bool.xor_self, Bool.xor_false]

/-! ### The collision count (R214, R216) -/

/-- A logical pixel of the grid is set if a cell that belongs to it is. -/
theorem pixelSet_iff {hires : Bool} {ras : Raster} {q : Fin 4 × Nat × Nat}
    (hq : q.2.1 < logicalWidth hires ∧ q.2.2 < logicalHeight hires) :
    pixelSet hires ras q = true ↔ ∃ r c, CellOf hires q.2.1 q.2.2 r c ∧ cell ras q.1 r c = true := by
  simp only [pixelSet, List.any_eq_true, Prod.exists, mem_cellsOf hq.1 hq.2]

/-- Settles O45: the count is that of the drawn pixels with a set cell, and their cells are the covered ones. -/
theorem aDrawCollidesExactlyOnSetCells : Obligations.ADrawCollidesExactlyOnSetCells := by
  intro d bytes n wrap x y
  rw [count_drawSprite, ← Nat.pos_iff_ne_zero, List.countP_pos_iff]
  constructor
  · rintro ⟨⟨p, lx, ly⟩, hq, hset⟩
    obtain ⟨r, c, hc, hcell⟩ := (pixelSet_iff (drawnPixels_lt _ hq)).mp hset
    exact ⟨p, r, c, spriteCovers_iff.mpr ⟨lx, ly, hq, hc⟩, hcell⟩
  · rintro ⟨p, r, c, hcov, hcell⟩
    obtain ⟨lx, ly, hq, hc⟩ := spriteCovers_iff.mp hcov
    exact ⟨(p, lx, ly), hq, (pixelSet_iff (drawnPixels_lt _ hq)).mpr ⟨r, c, hc, hcell⟩⟩

/-! ### The set bits of a sprite and the pixels they land on (R213, R215) -/

theorem exists_cellOf {hires : Bool} {lx ly : Nat} (hx : lx < logicalWidth hires) (hy : ly < logicalHeight hires) :
    ∃ r c, CellOf hires lx ly r c := by
  have hne : cellsOf hires lx ly ≠ [] := by cases hires <;> exact List.cons_ne_nil _ _
  obtain ⟨⟨r, c⟩, hrc⟩ := List.exists_mem_of_ne_nil _ hne
  exact ⟨r, c, (mem_cellsOf hx hy r c).mp hrc⟩

/-- A sprite has at most 16 rows of 16 columns (R211). -/
theorem lt_of_mem_setBits {b : Fin 4 × Nat × Nat} (h : b ∈ SetBits d bytes n) : b.2.1 < 16 ∧ b.2.2 < 16 := by
  obtain ⟨-, hj, hi, -⟩ := h
  constructor
  · split at hj <;> omega
  · split at hi <;> omega

theorem finite_setBits : (SetBits d bytes n).Finite :=
  (Set.finite_univ.prod ((Set.finite_Iio 16).prod (Set.finite_Iio 16))).subset
    fun _ h => ⟨trivial, lt_of_mem_setBits h⟩

/-- The logical pixel of a sprite bit that is not clipped, with its plane (R213). -/
def bitPixel (d : Display) (wrap : Bool) (x y : Nat) (b : Fin 4 × Nat × Nat) : Fin 4 × Nat × Nat :=
  if wrapEff d.hires wrap x y then (b.1, (x + b.2.2) % gridWidth d, (y + b.2.1) % gridHeight d)
  else (b.1, x + b.2.2, y + b.2.1)

theorem bitPixel_of_wraps (h : Wraps d wrap x y) (b : Fin 4 × Nat × Nat) :
    bitPixel d wrap x y b = (b.1, (x + b.2.2) % gridWidth d, (y + b.2.1) % gridHeight d) :=
  if_pos (wrapEff_iff.mpr h)

theorem bitPixel_of_not_wraps (h : ¬ Wraps d wrap x y) (b : Fin 4 × Nat × Nat) :
    bitPixel d wrap x y b = (b.1, x + b.2.2, y + b.2.1) :=
  if_neg (wrapEff_iff.not.mpr h)

/-- A sprite bit lands on its pixel and nowhere else, unless it is clipped. -/
theorem bitPixel_eq_iff {b q : Fin 4 × Nat × Nat} :
    (Wraps d wrap x y ∨ (x + b.2.2 < gridWidth d ∧ y + b.2.1 < gridHeight d)) ∧ bitPixel d wrap x y b = q ↔
      b.1 = q.1 ∧ LandsOn d wrap x y (x + b.2.2) (y + b.2.1) q.2.1 q.2.2 := by
  by_cases h : Wraps d wrap x y
  · simp only [bitPixel_of_wraps h, LandsOn, h, Prod.ext_iff, true_or, not_true, false_imp_iff, true_imp_iff, true_and,
      and_true, eq_comm]
  · simp only [bitPixel_of_not_wraps h, LandsOn, h, Prod.ext_iff, false_or, not_false_eq_true, false_imp_iff,
      true_imp_iff, true_and, eq_comm]
    tauto

/-- Two unclipped bits of a sprite land on different pixels. -/
theorem bitPixel_injOn : Set.InjOn (bitPixel d wrap x y) (UnclippedBits d bytes n wrap x y) := by
  intro b hb b' hb' he
  obtain ⟨hset, hu⟩ := hb
  obtain ⟨hset', hu'⟩ := hb'
  obtain ⟨hj, hi⟩ := lt_of_mem_setBits hset
  obtain ⟨hj', hi'⟩ := lt_of_mem_setBits hset'
  obtain ⟨hp, hl⟩ := bitPixel_eq_iff.mp ⟨hu, he⟩
  obtain ⟨hp', hl'⟩ := bitPixel_eq_iff.mp ⟨hu', rfl⟩
  obtain ⟨hii, hjj⟩ := landing_inj hi hj hi' hj' (landing_iff.mpr hl) (landing_iff.mpr hl')
  exact Prod.ext (hp.trans hp'.symm) (Prod.ext hjj hii)

/-- The drawn pixels are those of the unclipped bits. -/
theorem image_bitPixel :
    bitPixel d wrap x y '' UnclippedBits d bytes n wrap x y = {q | q ∈ drawnPixels d bytes (spriteShape n) wrap x y} := by
  ext ⟨p, lx, ly⟩
  rw [Set.mem_ofPred_eq, mem_drawnPixels_iff]
  constructor
  · rintro ⟨⟨p', j, i⟩, ⟨hset, hu⟩, he⟩
    obtain ⟨rfl, hl⟩ := bitPixel_eq_iff.mp ⟨hu, he⟩
    exact ⟨j, i, hset, hl⟩
  · rintro ⟨j, i, hset, hl⟩
    obtain ⟨hu, he⟩ := bitPixel_eq_iff (b := (p, j, i)) (q := (p, lx, ly)).mpr ⟨rfl, hl⟩
    exact ⟨(p, j, i), ⟨hset, hu⟩, he⟩

/-- The drawn pixels are as many as the set bits that are not clipped. -/
theorem ncard_unclippedBits :
    (UnclippedBits d bytes n wrap x y).ncard = (drawnPixels d bytes (spriteShape n) wrap x y).length := by
  have hnodup := nodup_drawnPixels d bytes (spriteShape_le n).1 (spriteShape_le n).2 wrap x y
  rw [← bitPixel_injOn.ncard_image, image_bitPixel, ← List.coe_toFinset, Set.ncard_coe_finset,
    List.toFinset_card_of_nodup hnodup]

/-- The count is at most the number of set bits (R215 a). -/
theorem count_drawSprite_le : (drawSprite d bytes (spriteShape n) wrap x y).2 ≤ (SetBits d bytes n).ncard :=
  calc (drawSprite d bytes (spriteShape n) wrap x y).2
    _ ≤ (drawnPixels d bytes (spriteShape n) wrap x y).length := count_drawSprite .. ▸ List.countP_le_length
    _ = (UnclippedBits d bytes n wrap x y).ncard := ncard_unclippedBits.symm
    _ ≤ (SetBits d bytes n).ncard := Set.ncard_le_ncard (Set.sep_subset _ _) finite_setBits

section
variable (hclear : ∀ p r c, d.planeMask.getLsbD p.val = true → cell d.planes p r c = false)
include hclear

/-- A draw on clear planes counts nothing (R215 c). -/
theorem count_drawSprite_of_clear : (drawSprite d bytes (spriteShape n) wrap x y).2 = 0 := by
  by_contra hcount
  obtain ⟨p, r, c, ⟨hsel, -⟩, hset⟩ := (aDrawCollidesExactlyOnSetCells d bytes n wrap x y).mp hcount
  exact Bool.false_ne_true ((hclear p r c hsel).symm.trans hset)

/-- A draw on clear planes sets every cell it covers. -/
theorem cell_drawSprite_of_clear {p : Fin 4} {r : Fin 64} {c : Fin 128} (hcov : SpriteCovers d bytes n wrap x y p r c) :
    cell (drawSprite d bytes (spriteShape n) wrap x y).1.planes p r c = true := by
  rw [(aDrawInvertsExactlyTheCoveredCells d bytes n wrap x y p r c).1 hcov, hclear p r c hcov.1, Bool.not_false]

/-- The second of two draws on clear planes finds every pixel it draws set, so it counts every bit that is not clipped
(R215 c). -/
theorem count_drawSprite_twice_of_clear :
    (drawSprite (drawSprite d bytes (spriteShape n) wrap x y).1 bytes (spriteShape n) wrap x y).2 =
      (UnclippedBits d bytes n wrap x y).ncard := by
  rw [count_drawSprite, ncard_unclippedBits]
  refine List.countP_eq_length.mpr fun q hq => ?_
  obtain ⟨hx, hy⟩ := drawnPixels_lt q hq
  obtain ⟨r, c, hc⟩ := exists_cellOf hx hy
  exact (pixelSet_iff ⟨hx, hy⟩).mpr
    ⟨r, c, hc, cell_drawSprite_of_clear hclear (spriteCovers_iff.mpr ⟨q.2.1, q.2.2, hq, hc⟩)⟩

end

/-- A draw that wraps clips nothing (R213). -/
theorem unclippedBits_of_wraps (h : Wraps d wrap x y) : UnclippedBits d bytes n wrap x y = SetBits d bytes n :=
  Set.sep_eq_self_iff_mem_true.mpr fun _ _ => .inl h

end

/-- Settles O46: the three parts of R215. -/
theorem collisionPropertiesOfADraw : Obligations.CollisionPropertiesOfADraw :=
  fun _ _ _ _ _ _ => ⟨count_drawSprite_le, planes_drawSprite_twice, fun hclear =>
    ⟨count_drawSprite_of_clear hclear, count_drawSprite_twice_of_clear hclear, unclippedBits_of_wraps⟩⟩

end Sys2Proof.Machine
end

section
/-! SUPPORT. Audio (45_audio.md): the rate at whole octaves, what a run of samples moves, one sample in numbers, and the
statements about the audio instructions and the synthesizer. -/

namespace Sys2Proof.Machine

/-! ### The synthesizer's chunks (R246) -/

/-- Settles O50: two runs of samples are one long run. -/
theorem outputIsTheSameInAnyChunks : Obligations.OutputIsTheSameInAnyChunks := by
  intro R n m sr s
  rw [output, synthesize_add]
  rfl

/-! ### The playback rate (R242) -/

/-- Exact reals leave the rate law as R242 writes it. -/
theorem value_playbackRate_exact {R : Reals} (hR : R.Exact) (pitch : Byte) :
    (playbackRate R pitch).value = 4000 * (2 : ℝ) ^ (((pitch.toNat : ℝ) - 64) / 48) := by
  rw [value_playbackRate, hR, hR, hR.round_eq, hR.round_eq]
  push_cast
  rfl

/-- `k` octaves from the center the exact rate is `4000 * 2 ^ k`. -/
theorem value_playbackRate_octave {R : Reals} (hR : R.Exact) {pitch : Byte} (k : ℤ)
    (hk : (pitch.toNat : ℤ) = 64 + 48 * k) : (playbackRate R pitch).value = 4000 * (2 : ℝ) ^ k := by
  have hk' : (pitch.toNat : ℝ) = 64 + 48 * k := by exact_mod_cast hk
  have he : ((pitch.toNat : ℝ) - 64) / 48 = k := by linarith
  rw [value_playbackRate_exact hR, he, Real.rpow_intCast]

/-- Settles O48: the rate law, and its five values at whole octaves. -/
theorem playbackRateDoublesPerOctave : Obligations.PlaybackRateDoublesPerOctave := by
  intro R pitch
  refine ⟨value_playbackRate R pitch, fun hR => ⟨value_playbackRate_exact hR pitch, ?_, ?_, ?_, ?_, ?_⟩⟩
  all_goals rintro rfl
  · rw [value_playbackRate_octave hR (-1) rfl]; norm_num
  · rw [value_playbackRate_octave hR 0 rfl]; norm_num
  · rw [value_playbackRate_octave hR 1 rfl]; norm_num
  · rw [value_playbackRate_octave hR 2 rfl]; norm_num
  · rw [value_playbackRate_octave hR 3 rfl]; norm_num

/-! ### A run of samples (R243) -/

section
variable (R : Reals) (sr : Rat) (n : Nat) {a : Audio}

theorem length_synthesize (a : Audio) : (synthesize R sr n a).2.length = n := by
  induction n generalizing a with
  | zero => rfl
  | succ n ih => exact congrArg (· + 1) (ih _)

theorem synthesize_silent (h : a.st = 0) : synthesize R sr n a = (a, List.replicate n .silent) := by
  induction n with
  | zero => rfl
  | succ n ih => rw [synthesize, sample_silent R sr h, ih]; rfl

theorem sample_st (a : Audio) : (sample R sr a).1.st = a.st := by
  rcases sample_cases R sr a with ⟨-, h⟩ | ⟨-, -, _, _, -, -, -, h⟩ | ⟨-, -, _, _, -, -, -, h⟩ <;> rw [h]

theorem sample_ne_silent (h : a.st ≠ 0) : (sample R sr a).2 ≠ .silent := by
  rcases sample_cases R sr a with ⟨h0, -⟩ | ⟨-, -, _, _, -, -, hl, hs⟩ | ⟨-, -, _, _, -, -, hl, hs⟩
  · exact absurd h0 h
  · rwa [hs]
  · rwa [hs]

theorem silent_notMem_synthesize (h : a.st ≠ 0) : Level.silent ∉ (synthesize R sr n a).2 := by
  induction n generalizing a with
  | zero => exact List.not_mem_nil
  | succ n ih =>
    refine List.not_mem_cons_of_ne_of_not_mem (sample_ne_silent R sr h).symm (ih ?_)
    rwa [sample_st]

/-- In beep mode a run of samples moves the beep phase alone. -/
theorem synthesize_beep (h : a.st ≠ 0) (hm : a.mode = .beep) :
    (synthesize R sr n a).1 = { a with beepPhase := (synthesize R sr n a).1.beepPhase } := by
  refine synthesize_induction (P := fun b => b = { a with beepPhase := b.beepPhase }) R sr (fun b hb => ?_) n rfl
  rw [hb, sample_beep R sr (a := { a with beepPhase := b.beepPhase }) h hm]
  rfl

/-- In pattern mode a run of samples moves the pattern phase alone. -/
theorem synthesize_pattern (h : a.st ≠ 0) (hm : a.mode = .pattern) :
    (synthesize R sr n a).1 = { a with patPhase := (synthesize R sr n a).1.patPhase } := by
  refine synthesize_induction (P := fun b => b = { a with patPhase := b.patPhase }) R sr (fun b hb => ?_) n rfl
  rw [hb, sample_pattern R sr (a := { a with patPhase := b.patPhase }) h hm]
  rfl

end

/-! ### One sample (R244, R245) -/

theorem output_one (R : Reals) (sr : Rat) (s : State) :
    output R 1 sr s = ({ s with audio := (sample R sr s.audio).1 }, [(sample R sr s.audio).2]) := rfl

/-- The bits of each byte are taken from the most significant one (R245). -/
theorem patternBit_iff (pattern : Vector Byte 16) (k : Fin 128) :
    patternBit pattern k.val = true ↔ pattern[k.val / 8].toNat / 2 ^ (7 - k.val % 8) % 2 = 1 := by
  have hbyte : pattern.toList.getD (k.val / 8) 0 = pattern[k.val / 8] := by
    rw [List.getD_eq_getElem _ _ (by rw [Vector.length_toList]; omega), Vector.getElem_toList]
  rw [patternBit, hbyte, BitVec.getLsbD, Nat.testBit_eq_decide_div_mod_eq, decide_eq_true_eq]

section
variable (R : Reals) (sr : Rat) (a : Audio)

theorem level_patternSample {k : Fin 128} (hk : ⌊a.patPhase.value⌋ = (k.val : Int)) :
    (patternSample R sr a).2 =
      if a.pattern[k.val / 8].toNat / 2 ^ (7 - k.val % 8) % 2 = 1 then .high else .low := by
  simp only [patternSample, R.floor_eq, hk, Int.toNat_natCast, patternBit_iff]

/-- The pattern phase moves by the playback rate over the sample rate, modulo 128. -/
theorem value_patPhase_patternSample {v : ℝ}
    (hv : v = R.rnd (a.patPhase.value + R.rnd ((playbackRate R a.pitch).value / sr))) :
    (patternSample R sr a).1.patPhase.value = v - 128 * ⌊v / 128⌋ := by
  have hstep : ((playbackRate R a.pitch).scale (1 / sr)).value = (playbackRate R a.pitch).value / sr := by
    rw [Surd.value_scale, Rat.cast_div, Rat.cast_one, one_div_mul_eq_div]
  rw [patternSample, value_modPattern, R.roundSurd_eq, Surd.value_add, R.roundSurd_eq, hstep, hv]

end

/-- Settles O49: the levels and the frame of a run of samples in each mode, then one sample by its equation. -/
theorem soundOnlyMovesItsOwnPhase : Obligations.SoundOnlyMovesItsOwnPhase := by
  intro R n sr s
  refine ⟨fun h => ?_, fun h => ⟨silent_notMem_synthesize R sr n h, length_synthesize R sr n _,
    fun hm => ⟨?_, ?_⟩, fun hm => ⟨?_, fun k hk => ?_, fun v hv => ?_⟩⟩⟩
  · rw [output, synthesize_silent R sr n h]
  · exact congrArg (fun b => { s with audio := b }) (synthesize_beep R sr n h hm)
  · rw [output_one, sample_beep R sr h hm]
    rfl
  · exact congrArg (fun b => { s with audio := b }) (synthesize_pattern R sr n h hm)
  · rw [output_one, sample_pattern R sr h hm, level_patternSample R sr _ hk]
  · rw [output_one, sample_pattern R sr h hm]
    exact value_patPhase_patternSample R sr _ hv

/-! ### The audio instructions (R240, R241) -/

/-- A block read gives the byte `k` places up, and no default, below its length (R62). -/
theorem getD_readBytes (m : Memory) (a : Nat) {n k : Nat} (h : k < n) (b : Byte) :
    (m.readBytes a n).getD k b = m.read (a + k) := by
  rw [List.getD_eq_getElem?_getD, Memory.getElem?_readBytes m a n k h, Option.getD_some]

/-- Settles O47: `FX02` is a block load into the pattern, `FX3A` writes the pitch. -/
theorem audioInstructionsSetPatternAndPitch : Obligations.AudioInstructionsSetPatternAndPitch := by
  intro s x
  refine ⟨⟨encodes_of_XNN rfl (Nat.add_right_comm ..), fun h => ?_, fun h => faults_of_loadFromI rfl h⟩,
    encodes_of_XNN rfl (Nat.add_right_comm ..), _, rfl, fun _ => rfl, rfl⟩
  refine ⟨_, congrArg Host.Outcome.next (loadFromI_of_fits h), fun _ => rfl, rfl, fun k => ?_⟩
  rw [Vector.getElem_ofFn]
  exact getD_readBytes _ _ k.isLt 0

end Sys2Proof.Machine
end

section
/-! SUPPORT. Stopped machines and faults (60_exceptions.md R270 to R273): a fault voids the whole step, and what each
checked operation can fault with. -/

namespace Sys2Proof.Machine

/-! ### A stopped machine (R272, R273) -/

theorem step_of_not_running {s : State} (h : s.status ≠ .running) : step s = .next s := if_neg h

/-- Settles O8, by induction on the number of steps. -/
theorem aStoppedMachineStaysAsItIs : Obligations.AStoppedMachineStaysAsItIs := by
  intro n s h
  induction n with
  | zero => rfl
  | succ n ih => rw [run_succ n (step_of_not_running h), ih]

/-! ### A fault is precise (R272) -/

/-- The one effect that faults a running machine is the fault itself. -/
theorem Effect.eq_takeFault {i : Instr} {s t : State} {kind : Fault} {a : Word} {w : Option Word}
    (h : Effect s i t) (hr : s.status = .running) (hf : t.status = .faulted kind a w) : t = takeFault kind s := by
  cases h with
  | fault f =>
    obtain ⟨rfl, -, -⟩ := Status.faulted.inj hf
    rfl
  | halt => cases hf
  | _ => simp [hr] at hf

/-- Settles O10: a step of a running machine is an effect of some instruction. -/
theorem aFaultVoidsTheWholeStep : Obligations.AFaultVoidsTheWholeStep := by
  intro s t hr h hfaulted
  obtain ⟨kind, a, w, hf⟩ : ∃ kind a w, t.status = .faulted kind a w := by
    simpa only [Unfaulted, not_forall, not_not] using hfaulted
  rcases step_effect h with ⟨hstopped, -⟩ | ⟨-, i, he⟩
  · exact absurd hr hstopped
  · exact ⟨kind, (he.eq_takeFault hr hf).trans (takeFault_eq kind s)⟩

/-! ### What a checked operation of a running machine faults with (R271) -/

section
variable {s : State} {kind : Fault} {a : Word} {w : Option Word}

/-- A checked access ends faulted with its own fault, or where it goes on. -/
theorem faulted_orFault {α : Type} {r : Except Fault α} {k : α → State}
    (hf : (orFault s r k).status = .faulted kind a w) :
    r = .error kind ∨ ∃ b, r = .ok b ∧ (k b).status = .faulted kind a w := by
  rcases orFault_cases s r k with ⟨b, hb, hk⟩ | ⟨f, hb, hk⟩ <;> rw [hk] at hf
  · exact .inr ⟨b, hb, hf⟩
  · obtain ⟨rfl, -, -⟩ := Status.faulted.inj hf
    exact .inl hb

theorem memRead_eq_error {b n : Nat} (h : memRead s b n = .error kind) :
    kind = .memOutOfRange b ∧ 65536 < b + n := by
  by_cases hfits : b + n ≤ 65536
  · cases (memRead_ok hfits).symm.trans h
  · cases (memRead_error (not_le.mp hfits)).symm.trans h
    exact ⟨rfl, not_le.mp hfits⟩

theorem memWrite_eq_error {b : Nat} {bytes : List Byte} (h : memWrite s b bytes = .error kind) :
    kind = .memOutOfRange b ∧ 65536 < b + bytes.length := by
  by_cases hfits : b + bytes.length ≤ 65536
  · cases (memWrite_ok hfits).symm.trans h
  · cases (memWrite_error (not_le.mp hfits)).symm.trans h
    exact ⟨rfl, not_le.mp hfits⟩

theorem spriteBytes_eq_error {sh : SpriteShape} (h : spriteBytes s sh = .error kind) :
    kind = .memOutOfRange s.cpu.i.toNat ∧ s.display.planeMask ≠ 0 ∧
      65536 < s.cpu.i.toNat + sh.len * (sel s.display).length := by
  unfold spriteBytes at h
  split at h
  · cases h
  · next hsel =>
    obtain ⟨hkind, hlen⟩ := memRead_eq_error h
    exact ⟨hkind, isEmpty_sel.not.mp hsel, hlen⟩

theorem keyPressed_eq_error {b : Byte} (h : keyPressed s b = .error kind) :
    kind = .keyIndexOutOfRange b.toNat ∧ 15 < b.toNat := by
  unfold keyPressed at h
  split at h
  · cases h
  · next hkey =>
    cases h
    exact ⟨rfl, not_lt.mp hkey⟩

section
variable (hr : s.status = .running)
include hr

theorem faulted_storeAtI {bytes : List Byte} {k : State → State}
    (hf : (storeAtI s bytes k).status = .faulted kind a w) (hk : ∀ u, (k u).status = u.status) :
    kind = .memOutOfRange s.cpu.i.toNat ∧ 65536 < s.cpu.i.toNat + bytes.length := by
  rcases faulted_orFault hf with he | ⟨m, -, hm⟩
  · exact memWrite_eq_error he
  · simp [hk, hr] at hm

theorem faulted_loadFromI {n : Nat} {k : List Byte → State}
    (hf : (loadFromI s n k).status = .faulted kind a w) (hk : ∀ b, (k b).status = s.status) :
    kind = .memOutOfRange s.cpu.i.toNat ∧ 65536 < s.cpu.i.toNat + n := by
  rcases faulted_orFault hf with he | ⟨b, -, hb⟩
  · exact memRead_eq_error he
  · simp [hk, hr] at hb

/-- A skip faults on its look-ahead only (R102). -/
theorem faulted_skipIf {c : Bool} (hf : (skipIf c s).status = .faulted kind a w) :
    kind = .fetchOutOfRange 0xFFFF ∧ s.cpu.pc + 2 = 0xFFFF := by
  cases c with
  | false => simp [skipIf, hr] at hf
  | true =>
    change (skip s).status = _ at hf
    rcases skip_cases s with ⟨hlast, hs⟩ | ⟨-, hs⟩ <;> rw [hs] at hf
    · obtain ⟨rfl, -, -⟩ := Status.faulted.inj hf
      exact ⟨rfl, hlast⟩
    · simp [hr] at hf

/-- A key skip faults on its key or as a skip (R112, R113). -/
theorem faulted_keySkip {b : Byte} (c : Bool → Bool)
    (hf : (orFault s (keyPressed s b) fun p => skipIf (c p) s).status = .faulted kind a w) :
    (kind = .keyIndexOutOfRange b.toNat ∧ 15 < b.toNat) ∨
      (kind = .fetchOutOfRange 0xFFFF ∧ s.cpu.pc + 2 = 0xFFFF) := by
  rcases faulted_orFault hf with he | ⟨p, -, hp⟩
  · exact .inl (keyPressed_eq_error he)
  · exact .inr (faulted_skipIf hr hp)

end

end

/-! ### The listed conditions (R271) -/

@[simp] theorem writeFlagged_status (s : State) (x : Reg) (r : Flagged) : (writeFlagged s x r).status = s.status := rfl

@[simp] theorem writeLogic_status (s : State) (x : Reg) (b : Byte) : (writeLogic s x b).status = s.status := by
  unfold writeLogic
  split
  · rfl
  · rfl

@[simp] theorem writeBack_status (s : State) (x : Reg) : (writeBack s x).status = s.status := by
  rw [writeBack_eq, setI_status]

/-- Settles O11: the instructions that make a checked access, each by the faults of its access; no other one faults. -/
theorem onlyTheListedConditionsFault : Obligations.OnlyTheListedConditionsFault := by
  intro i s t kind a w hr h hf
  cases i
  case seImm | sneImm | seReg | sneReg =>
    cases h
    obtain ⟨rfl, hlast⟩ := faulted_skipIf hr hf
    exact ⟨rfl, hlast, by simp⟩
  case skp x =>
    cases h
    obtain ⟨rfl, hkey⟩ | ⟨rfl, hlast⟩ := faulted_keySkip hr id hf
    · exact ⟨hkey, x, .inl rfl, rfl⟩
    · exact ⟨rfl, hlast, by simp⟩
  case sknp x =>
    cases h
    obtain ⟨rfl, hkey⟩ | ⟨rfl, hlast⟩ := faulted_keySkip hr not hf
    · exact ⟨hkey, x, .inr rfl, rfl⟩
    · exact ⟨rfl, hlast, by simp⟩
  case audio x =>
    cases h
    obtain ⟨rfl, hlen⟩ := faulted_loadFromI hr hf (fun _ => rfl)
    exact ⟨rfl, .inl ⟨x, rfl, hlen⟩⟩
  case ldB x =>
    cases h
    obtain ⟨rfl, hlen⟩ := faulted_storeAtI hr hf (fun _ => rfl)
    exact ⟨rfl, .inr (.inl ⟨x, rfl, hlen⟩)⟩
  case storeRegs x =>
    cases h
    obtain ⟨rfl, hlen⟩ := faulted_storeAtI hr hf (fun _ => writeBack_status _ x)
    rw [length_readRegs, length_regsUpTo] at hlen
    exact ⟨rfl, .inr (.inr (.inl ⟨x, .inl rfl, hlen⟩))⟩
  case loadRegs x =>
    cases h
    obtain ⟨rfl, hlen⟩ := faulted_loadFromI hr hf (fun _ => by simp)
    exact ⟨rfl, .inr (.inr (.inl ⟨x, .inr rfl, hlen⟩))⟩
  case saveRange x y =>
    cases h
    obtain ⟨rfl, hlen⟩ := faulted_storeAtI hr hf (fun _ => rfl)
    rw [length_readRegs, length_regRange] at hlen
    exact ⟨rfl, .inr (.inr (.inr (.inl ⟨x, y, .inl rfl, hlen⟩)))⟩
  case loadRange x y =>
    cases h
    obtain ⟨rfl, hlen⟩ := faulted_loadFromI hr hf (fun _ => by simp)
    rw [length_regRange] at hlen
    exact ⟨rfl, .inr (.inr (.inr (.inl ⟨x, y, .inr rfl, hlen⟩)))⟩
  case drw x y n =>
    cases h
    obtain he | ⟨b, -, hb⟩ := faulted_orFault hf
    · obtain ⟨rfl, hmask, hlen⟩ := spriteBytes_eq_error he
      exact ⟨rfl, .inr (.inr (.inr (.inr ⟨x, y, n, rfl, hmask, hlen⟩)))⟩
    · simp [hr] at hb
  case call nnn =>
    by_cases hsp : s.cpu.sp.toNat = Config.stackDepth
    · cases (exec_call_of_full nnn hsp).symm.trans h
      obtain ⟨rfl, -, -⟩ := Status.faulted.inj hf
      exact ⟨⟨nnn, rfl⟩, hsp⟩
    · cases (exec_call_of_ne nnn hsp).symm.trans h
      simp [hr] at hf
  case ret =>
    by_cases hsp : s.cpu.sp = 0
    · cases (exec_ret_of_empty hsp).symm.trans h
      obtain ⟨rfl, -, -⟩ := Status.faulted.inj hf
      exact ⟨rfl, hsp⟩
    · cases (exec_ret_of_ne hsp).symm.trans h
      simp [hr] at hf
  case exit =>
    cases h
    rw [exitUnder_eq] at hf
    cases hm : Config.exitMode <;> simp [hm, hr] at hf
  case ldVxK x =>
    cases hk : lowestReleased s with
    | none =>
      cases (exec_ldVxK_of_none x hk).symm.trans h
      simp [hr] at hf
    | some k =>
      cases (exec_ldVxK_of_some x hk).symm.trans h
      simp [hr] at hf
  all_goals
    cases h
    simp [hr] at hf

end Sys2Proof.Machine
end

section
/-! SUPPORT. Timer ticks (43_timers.md R193, R194; 60_exceptions.md R280): one tick and any number of them in one
equation. -/

namespace Sys2Proof.Machine

/-! ### Counting down to 0 -/

/-- `b` less `n`, and 0 where that is below 0: a timer after `n` ticks (R193, R194). -/
def countDown (b : Byte) (n : Nat) : Byte := BitVec.ofNat 8 (b.toNat - n)

@[simp] theorem toNat_countDown (b : Byte) (n : Nat) : (countDown b n).toNat = b.toNat - n := by
  rw [countDown, BitVec.toNat_ofNat]
  omega

theorem countDown_zero (b : Byte) : countDown b 0 = b := BitVec.eq_of_toNat_eq (toNat_countDown b 0)

theorem countDown_countDown (b : Byte) (n m : Nat) : countDown (countDown b n) m = countDown b (n + m) := by
  apply BitVec.eq_of_toNat_eq
  simp only [toNat_countDown, Nat.sub_sub]

theorem countDown_of_eq_zero {b : Byte} (h : b = 0) (n : Nat) : countDown b n = 0 := by
  simp [countDown, h]

theorem toNat_pos_iff {b : Byte} : 0 < b.toNat ↔ b ≠ 0 := by
  bv_omega

/-! ### One tick -/

theorem countDown_one (b : Byte) : countDown b 1 = if 0 < b.toNat then b - 1 else b := by
  apply BitVec.eq_of_toNat_eq
  rw [toNat_countDown]
  split <;> bv_omega

theorem cpuTickTimer_eq (s : State) : cpuTickTimer s = setDt s (countDown s.cpu.dt 1) := by
  rw [cpuTickTimer, countDown_one]
  split
  · rfl
  · rfl

theorem audioTickTimer_eq (s : State) :
    audioTickTimer s = (setSt s (countDown s.audio.st 1), decide (s.audio.st ≠ 0)) := by
  rw [audioTickTimer, countDown_one]
  split
  · next h => rw [decide_eq_true (toNat_pos_iff.mp h)]
  · next h => rw [decide_eq_false (toNat_pos_iff.not.mp h)]; rfl

/-- `s` after `n` timer ticks (R280), apart from the sequencer's accumulator. -/
def afterTicks (n : Nat) (s : State) : State :=
  { s with
    cpu := { s.cpu with dt := countDown s.cpu.dt n }
    audio := { s.audio with st := countDown s.audio.st n }
    keypad := { s.keypad with prev := if n = 0 then s.keypad.prev else s.keypad.pressed }
    display := { s.display with pendingVblank := if n = 0 then s.display.pendingVblank else false } }

theorem afterTicks_zero (s : State) : afterTicks 0 s = s := by
  simp only [afterTicks, countDown_zero, if_true]

/-- The latch and the clear of one tick outlast all further ones. -/
theorem afterTicks_afterTicks_one (n : Nat) (s : State) : afterTicks n (afterTicks 1 s) = afterTicks (n + 1) s := by
  simp [afterTicks, countDown_countDown, Nat.add_comm]

theorem timerTick_eq (s : State) : timerTick s = (afterTicks 1 s, decide (s.audio.st ≠ 0)) := by
  rw [timerTick, cpuTickTimer_eq, audioTickTimer_eq]
  rfl

/-- Settles O38: the equation of one tick, read field by field. -/
theorem aTimerTickDoesItsFourParts : Obligations.ATimerTickDoesItsFourParts := by
  intro s
  rw [timerTick_eq]
  exact ⟨toNat_countDown _ 1, toNat_countDown _ 1, decide_eq_true_iff, rfl⟩

/-! ### The timer half of `run-frame` (R281, R283) -/

/-- Where a later tick beeps only if the first does, the first decides. -/
theorem beep_of_first {p q : Prop} [Decidable p] [Decidable q] (n : Nat) (hq : q → p) (beep : Bool) :
    (decide (0 < n ∧ q) || (decide p || beep)) = (decide (0 < n + 1 ∧ p) || beep) := by
  by_cases hp : p
  · simp [hp]
  · simp [hp, mt hq hp]

/-- Turns of the timer loop are ticks. The flag says whether there was one and the first found the sound timer not 0:
no later tick finds more (decision D12). -/
theorem tickLoop_eq (R : Reals) (n : Nat) (s : State) (beep : Bool) :
    tickLoop R n s beep = (setTimerAccum (afterTicks n s) (afterUnits R.round n s.seq.timerAccum),
      decide (0 < n ∧ s.audio.st ≠ 0) || beep) := by
  induction n generalizing s beep with
  | zero =>
    rw [afterTicks_zero]
    simp [tickLoop, afterUnits, setTimerAccum]
  | succ n ih =>
    rw [tickLoop, timerTick_eq, ih, ← afterTicks_afterTicks_one n s]
    exact Prod.ext rfl (beep_of_first n (mt fun h => countDown_of_eq_zero h 1) beep)

/-- The timer half is as many ticks as its loop takes turns. -/
theorem runTicks_eq (R : Reals) (elapsed : Rat) (s : State) {n : Nat} {due : Rat} (hdue : ticksDue R elapsed s = due)
    (hn : R.turns due = n) :
    runTicks R elapsed s =
      (setTimerAccum (afterTicks n s) (afterUnits R.round n due), decide (0 < n ∧ s.audio.st ≠ 0)) := by
  rw [runTicks, hdue, hn, tickLoop_eq, Bool.or_false]
  rfl

/-! ### Exact reals -/

section
variable {R : Reals} (hR : R.Exact) (elapsed : Rat) (s : State)
include hR

theorem ticksDue_exact : ticksDue R elapsed s = s.seq.timerAccum + 60 * elapsed := by
  rw [ticksDue, hR.round_eq, hR.round_eq, timerHz]

theorem cyclesDue_exact : cyclesDue R elapsed s = s.seq.cycleAccum + s.seq.tickrate * 60 * elapsed := by
  rw [cyclesDue, hR.round_eq, hR.round_eq, hR.round_eq, timerHz]

/-- Each loop takes the whole units of its accumulator. -/
theorem turns_exact (q : Rat) : R.turns q = ⌊q⌋₊ := hR.turns_eq q

/-- What it leaves is the fraction. -/
theorem afterUnits_floor {q : Rat} (hq : 0 ≤ q) : afterUnits R.round ⌊q⌋₊ q = Int.fract q := by
  rw [afterUnits_exact hR.round_eq, natCast_floor_eq_intCast_floor hq, Int.fract]

end

/-- Settles O53: the equation of the timer half, with the whole units as its number of ticks. -/
theorem runFrameTicksTheTimersAndReportsBeep : Obligations.RunFrameTicksTheTimersAndReportsBeep := by
  rintro R elapsed s n hR rfl
  refine ⟨_, _, runTicks_eq R elapsed s (ticksDue_exact hR elapsed s) (turns_exact hR _), toNat_countDown _ _,
    toNat_countDown _ _, decide_eq_true_iff, rfl⟩

end Sys2Proof.Machine
end

section
/-! SUPPORT. The CPU half of `run-frame` and the frame as a whole (60_exceptions.md R281 to R283). -/

namespace Sys2Proof.Machine

/-! ### The vblank stall (R282) -/

theorem stalled_iff {s : State} : stalled s = true ↔ s.quirks.vblank = true ∧ s.display.pendingVblank = true :=
  Bool.and_eq_true_iff

theorem cycle_of_stalled {s : State} (h : stalled s = true) : cycle s = .next s := if_pos h

theorem cycle_of_not_stalled {s : State} (h : ¬ stalled s = true) : cycle s = step s := if_neg h

theorem cycleLoop_succ (R : Reals) (n : Nat) {s t : State}
    (h : cycle (setCycleAccum s (R.round (s.seq.cycleAccum - 1))) = .next t) :
    cycleLoop R (n + 1) s = cycleLoop R n t := by
  rw [cycleLoop, h]

/-- A stall holds to the end of the loop, which then only counts. -/
theorem cycleLoop_of_stalled (R : Reals) (n : Nat) {s : State} (h : stalled s = true) :
    cycleLoop R n s = .next (setCycleAccum s (afterUnits R.round n s.seq.cycleAccum)) := by
  induction n generalizing s with
  | zero => rfl
  | succ n ih =>
    have hs : stalled (setCycleAccum s (R.round (s.seq.cycleAccum - 1))) = true := h
    rw [cycleLoop_succ R n (cycle_of_stalled hs), ih hs]
    rfl

/-- Settles O51: the loop that only counts. -/
theorem theVblankStallSkipsEveryStep : Obligations.TheVblankStallSkipsEveryStep :=
  fun R elapsed s hq hp => ⟨_, cycleLoop_of_stalled R _ (s := setCycleAccum s (cyclesDue R elapsed s))
    (stalled_iff.mpr ⟨hq, hp⟩), rfl⟩

/-! ### `run-frame` completes (R281; log 13) -/

theorem cycle_answers_next (s : State) : ∃ t, cycle s = .next t := by
  by_cases h : stalled s = true
  · exact ⟨s, cycle_of_stalled h⟩
  · exact cycle_of_not_stalled h ▸ everyStepAnswersANextState s

theorem cycleLoop_answers_next (R : Reals) (n : Nat) (s : State) : ∃ t, cycleLoop R n s = .next t := by
  induction n generalizing s with
  | zero => exact ⟨s, rfl⟩
  | succ n ih =>
    obtain ⟨t, ht⟩ := cycle_answers_next (setCycleAccum s (R.round (s.seq.cycleAccum - 1)))
    exact cycleLoop_succ R n ht ▸ ih t

theorem runCycles_answers_next (R : Reals) (elapsed : Rat) (s : State) : ∃ u, runCycles R elapsed s = .next u :=
  cycleLoop_answers_next R _ _

section
variable {R : Reals} {elapsed : Rat} {s u : State}

/-- The CPU half moves the cycle accumulator, by its turns, and nothing else of the sequencer. -/
theorem runCycles_seq (h : runCycles R elapsed s = .next u) :
    u.seq = { s.seq with
      cycleAccum := afterUnits R.round (R.turns (cyclesDue R elapsed s)) (cyclesDue R elapsed s) } :=
  cycleLoop_seq R _ h

/-- The ticks due are those from before the CPU half. -/
theorem ticksDue_of_runCycles (h : runCycles R elapsed s = .next u) : ticksDue R elapsed u = ticksDue R elapsed s := by
  rw [ticksDue, runCycles_seq h]
  rfl

/-- A frame is the CPU half, then its ticks, then one `poll` (R281, R283). -/
theorem runFrame_eq (h : runCycles R elapsed s = .next u) {m : Nat} {due : Rat} (hdue : ticksDue R elapsed s = due)
    (hm : R.turns due = m) :
    runFrame R elapsed s =
      .next ((poll (setTimerAccum (afterTicks m u) (afterUnits R.round m due))).1,
        { dirty := u.display.dirty, beep := decide (0 < m ∧ u.audio.st ≠ 0) }) := by
  rw [runFrame, h]
  simp only [runTicks_eq R elapsed u ((ticksDue_of_runCycles h).trans hdue) hm]
  rfl

end

/-! ### The CPU steps of a frame (R281, R282) -/

/-- `u` is the machine's run from `s` up to its first stall, after `k` steps, or after `n` steps without one. -/
structure RunsUntilStall (n k : Nat) (s u : State) : Prop where
  run : core.run k s = .next u
  unstalled : ∀ j w, j < k → core.run j s = .next w → ¬ stalled w = true
  stops : k = n ∨ (k < n ∧ stalled u = true)

theorem RunsUntilStall.zero (s : State) : RunsUntilStall 0 0 s s :=
  ⟨rfl, fun _ _ hj => absurd hj (Nat.not_lt_zero _), .inl rfl⟩

theorem RunsUntilStall.of_stalled {s : State} (n : Nat) (h : stalled s = true) : RunsUntilStall (n + 1) 0 s s :=
  ⟨rfl, fun _ _ hj => absurd hj (Nat.not_lt_zero _), .inr ⟨Nat.succ_pos n, h⟩⟩

theorem RunsUntilStall.succ {n k : Nat} {s t u : State} (hs : ¬ stalled s = true) (hstep : step s = .next t)
    (ht : RunsUntilStall n k t u) : RunsUntilStall (n + 1) (k + 1) s u where
  run := (run_succ k hstep).trans ht.run
  unstalled j w hj hw := by
    cases j with
    | zero =>
      cases hw
      exact hs
    | succ j => exact ht.unstalled j w (Nat.lt_of_succ_lt_succ hj) ((run_succ j hstep).symm.trans hw)
  stops := ht.stops.imp (congrArg (· + 1)) fun ⟨hk, hu⟩ => ⟨Nat.succ_lt_succ hk, hu⟩

/-- A step is the same whatever the cycle accumulator holds. -/
theorem step_setCycleAccum {s t : State} {q : Rat} (h : step (setCycleAccum s q) = .next t) (q' : Rat) :
    step (setCycleAccum s q') = .next (setCycleAccum t q') := by
  have hseq : { t.seq with cycleAccum := q' } = (setCycleAccum s q').seq := by
    rw [step_keeps_seq h]
    rfl
  calc step (setCycleAccum s q')
    _ = mapNext (fun u => { u with seq := (setCycleAccum s q').seq }) (step (setCycleAccum s q)) :=
      step_seq (setCycleAccum s q) _
    _ = .next { t with seq := (setCycleAccum s q').seq } := by rw [h, mapNext]
    _ = .next (setCycleAccum t q') := by rw [← hseq, setCycleAccum]

/-- The loop runs the machine until it stalls; that the accumulator counts meanwhile makes no difference to a step. -/
theorem cycleLoop_runsUntilStall (R : Reals) (n : Nat) {s u : State} (h : cycleLoop R n s = .next u) :
    ∃ k, RunsUntilStall n k (setCycleAccum s (afterUnits R.round n s.seq.cycleAccum)) u := by
  induction n generalizing s with
  | zero =>
    cases h
    exact ⟨0, .zero _⟩
  | succ n ih =>
    by_cases hs : stalled s = true
    · cases (cycleLoop_of_stalled R (n + 1) hs).symm.trans h
      exact ⟨0, .of_stalled n hs⟩
    · have hcycle := cycle_of_not_stalled (s := setCycleAccum s (R.round (s.seq.cycleAccum - 1))) hs
      obtain ⟨t, ht⟩ := everyStepAnswersANextState (setCycleAccum s (R.round (s.seq.cycleAccum - 1)))
      obtain ⟨k, hk⟩ := ih ((cycleLoop_succ R n (hcycle.trans ht)).symm.trans h)
      rw [step_keeps_seq ht] at hk
      exact ⟨k + 1, hk.succ hs (step_setCycleAccum ht _)⟩

/-- No number of steps changes the quirks. -/
theorem run_keeps_quirks (k : Nat) {s u : State} (h : core.run k s = .next u) : u.quirks = s.quirks := by
  induction k generalizing s with
  | zero =>
    cases h
    rfl
  | succ k ih =>
    obtain ⟨t, ht⟩ := everyStepAnswersANextState s
    obtain ⟨hquirks, -⟩ := noStepWritesWhatTheHostOwns s t ht
    exact (ih ((run_succ k ht).symm.trans h)).trans hquirks

/-- Without the vblank quirk nothing stalls, so every step is run (R282). -/
theorem RunsUntilStall.eq_of_vblank_off {n k : Nat} {s u : State} (h : RunsUntilStall n k s u)
    (hq : s.quirks.vblank = false) : k = n := by
  rcases h.stops with hk | ⟨-, hu⟩
  · exact hk
  · have hon : s.quirks.vblank = true := run_keeps_quirks k h.run ▸ (stalled_iff.mp hu).1
    exact absurd (hq.symm.trans hon) Bool.false_ne_true

theorem Reals.Exact.keepsNonneg {R : Reals} (hR : R.Exact) : R.KeepsNonneg := fun x hx => hx.trans_eq (hR x).symm

/-- Under exact reals the CPU half is the machine's run, as long as the whole units of its accumulator, with the
accumulator at its fraction. -/
theorem runCycles_runsUntilStall {R : Reals} (hR : R.Exact) {elapsed : Rat} {s u : State}
    (hdue : 0 ≤ cyclesDue R elapsed s) (h : runCycles R elapsed s = .next u) :
    ∃ k, RunsUntilStall ⌊cyclesDue R elapsed s⌋₊ k (setCycleAccum s (Int.fract (cyclesDue R elapsed s))) u := by
  rw [← turns_exact hR, ← afterUnits_floor hR hdue, ← turns_exact hR]
  exact cycleLoop_runsUntilStall R _ h

/-- Settles O52: the frame is the two halves and the `poll`; under exact reals the CPU half is a run until a stall, and
the timer half its whole units of ticks. -/
theorem runFrameCompletesAndKeepsTheFractions : Obligations.RunFrameCompletesAndKeepsTheFractions := by
  intro R elapsed s
  obtain ⟨u, hu⟩ := runCycles_answers_next R elapsed s
  have hseq := runCycles_seq hu
  refine ⟨⟨_, _, _, _, runFrame_eq hu rfl rfl, R.turns_spec _, congrArg (·.cycleAccum) hseq, R.turns_spec _, rfl⟩,
    ?_⟩
  rintro n m hR he hs rfl rfl
  have hcycles := cyclesDue_nonneg hR.keepsNonneg hs he
  have hticks := ticksDue_nonneg hR.keepsNonneg hs he
  have hframe := runFrame_eq hu rfl (turns_exact hR _)
  obtain ⟨k, hk⟩ := runCycles_runsUntilStall hR hcycles hu
  rw [turns_exact hR, afterUnits_floor hR hcycles] at hseq
  rw [afterUnits_floor hR hticks] at hframe
  rw [← cyclesDue_exact hR, ← ticksDue_exact hR]
  exact ⟨u, _, _, k, hu, hframe, hk.run,
    fun j w hj hw => stalled_iff.not.mp (hk.unstalled j w hj hw),
    hk.stops.imp_right fun ⟨hlt, hstall⟩ => ⟨hlt, stalled_iff.mp hstall⟩,
    hk.eq_of_vblank_off,
    congrArg (·.cycleAccum) hseq, rfl, decide_eq_true_iff, rfl, toNat_countDown _ _, toNat_countDown _ _⟩

end Sys2Proof.Machine
end

section
/-! SUPPORT. The small host operations (60_exceptions.md R285 to R287). -/

namespace Sys2Proof.Machine

/-! ### Keys (R285) -/

theorem keyEvent_of_key (s : State) {k : Nat} (h : k < 16) (b : Bool) :
    keyEvent s k b = .next (setPressed s ⟨k, h⟩ b, .done) := dif_pos h

theorem keyEvent_of_not_key (s : State) {k : Nat} (h : 16 ≤ k) (b : Bool) :
    keyEvent s k b = .refused .keyOutsideKeypad := dif_neg (not_lt.mpr h)

/-- A key event sets the level of its key and of no other. -/
theorem pressed_setPressed (s : State) (k j : Fin 16) (b : Bool) :
    (setPressed s k b).keypad.pressed[j.val] = if j = k then b else s.keypad.pressed[j.val] := by
  simp only [setPressed_keypad_pressed, Vector.getElem_set, Fin.ext_iff, eq_comm (a := k.val)]

/-! ### The others (R286, R287) -/

theorem hostOp_setTickrate_of_pos (R : Reals) (s : State) {r : Rat} (h : 0 < r) :
    hostOp R (.setTickrate r) s = .next (setTickrate s r, .done) := if_neg (not_le.mpr h)

theorem hostOp_step_of_step (R : Reals) {s t : State} (h : step s = .next t) :
    hostOp R .step s = .next (t, .done) := by
  rw [hostOp, h]

/-- Settles O54, one operation at a time. -/
theorem hostOperationsWriteOnlyWhatTheyName : Obligations.HostOperationsWriteOnlyWhatTheyName := by
  intro R s
  refine ⟨fun k h => ⟨?_, ?_⟩, fun k h => ⟨keyEvent_of_not_key s h true, keyEvent_of_not_key s h false⟩,
    fun _ => rfl, fun _ => hostOp_setTickrate_of_pos R s, rfl, fun _ => hostOp_step_of_step R⟩
  · exact ⟨_, keyEvent_of_key s h true, rfl, fun j => pressed_setPressed s ⟨k, h⟩ j true⟩
  · exact ⟨_, keyEvent_of_key s h false, rfl, fun j => pressed_setPressed s ⟨k, h⟩ j false⟩

end Sys2Proof.Machine
end

section
/-! SUPPORT. Loading a program image (70_reset_and_hazards.md R310, 60_exceptions.md R274), and the operations that
advance no time (70_reset_and_hazards.md R323). -/

namespace Sys2Proof.Machine

/-! ### `load` (R310, R274) -/

section
variable (presets : Platform → Preset) (s : State) {rom : List Byte}

theorem romFits_iff : romFits rom = true ↔ 0x200 + rom.length ≤ 65536 := decide_eq_true_iff

/-- A load of an image that fits, of a known platform, is the fresh state with the image copied into its memory. -/
theorem load_named_of_fits (p : Platform) (h : romFits rom = true) :
    load presets rom (.named p) s =
      ({ State.powerOn (presets p) s.rand with mem := Memory.writeBytes [] 0x200 rom }, true) := if_pos h

theorem load_of_not_fits (q : PlatformArg) (h : ¬ romFits rom = true) : load presets rom q s = (s, false) := if_neg h

theorem load_unknown (rom : List Byte) : load presets rom .unknown s = (s, false) := ite_self _

/-- The state a load leaves: the one before, or a fresh one with some memory. -/
theorem load_cases (rom : List Byte) (p : PlatformArg) :
    (load presets rom p s).1 = s ∨
      ∃ q m, (load presets rom p s).1 = { State.powerOn (presets q) s.rand with mem := m } := by
  by_cases h : romFits rom = true
  · cases p with
    | named q => exact .inr ⟨q, _, congrArg Prod.fst (load_named_of_fits presets s q h)⟩
    | unspecified => exact .inr ⟨_, _, congrArg Prod.fst (load_named_of_fits presets s Config.defaultPlatform h)⟩
    | unknown => exact .inl (congrArg Prod.fst (load_unknown presets s rom))
  · exact .inl (congrArg Prod.fst (load_of_not_fits presets s p h))

end

/-- Settles O55: a successful load is a block write of the image into the empty memory of a fresh state. -/
theorem loadResetsOrChangesNothing : Obligations.LoadResetsOrChangesNothing := by
  intro presets rom p s
  refine ⟨fun hfit => ⟨_, load_named_of_fits presets s p (romFits_iff.mpr hfit), rfl, ?_, ?_, ?_⟩, rfl,
    fun hlong q => load_of_not_fits presets s q fun hfit => ?_, load_unknown presets s rom⟩
  · exact fun k hk => Memory.read_writeBytes_inside [] 0x200 rom k hk
  · exact fun a ha => Memory.read_writeBytes_outside [] rom ha
  · exact Memory.wf_writeBytes Memory.wf_nil 0x200 rom hfit
  · exact absurd (romFits_iff.mp hfit) (not_le.mpr hlong)

/-! ### Operations other than `run-frame` (R323) -/

/-- A key event that is answered keeps the sequencer. -/
theorem keyEvent_keeps_seq {s t : State} {k : Nat} {b : Bool} {r : Reply} (h : keyEvent s k b = .next (t, r)) :
    t.seq = s.seq := by
  by_cases hk : k < 16
  · cases (keyEvent_of_key s hk b).symm.trans h
    rfl
  · cases (keyEvent_of_not_key s (not_lt.mp hk) b).symm.trans h

/-- Settles O56: every operation but `load` and `run-frame` leaves both accumulators where they were, a load leaves the
state before or a fresh one, and what only reads answers the state itself. -/
theorem onlyRunFrameAdvancesTime : Obligations.OnlyRunFrameAdvancesTime := by
  intro R op s t r h
  have accums (hseq : t.seq = s.seq) :
      t.seq.cycleAccum = s.seq.cycleAccum ∧ t.seq.timerAccum = s.seq.timerAccum := by simp [hseq]
  cases op with
  | load presets rom p =>
    cases h
    obtain hsame | ⟨q, m, hfresh⟩ := load_cases presets s rom p
    · exact .inl hsame
    · rw [hfresh]
      exact .inr ⟨rfl, rfl⟩
  | runFrame => exact trivial
  | step => exact accums (step_keeps_seq (hostOp_step_next h))
  | press => exact accums (keyEvent_keeps_seq h)
  | release => exact accums (keyEvent_keeps_seq h)
  | setTickrate =>
    obtain ⟨-, rfl⟩ := hostOp_setTickrate_next h
    exact ⟨rfl, rfl⟩
  | output =>
    obtain rfl := hostOp_output_next h
    exact ⟨rfl, rfl⟩
  | setQuirks | poll =>
    cases h
    exact ⟨rfl, rfl⟩
  | readRaster | peekNext | peek | disassembleRom =>
    cases h
    rfl

end Sys2Proof.Machine
end
